-- ==== Sys2Proof/Word.lean ====
section
/-!
DEFINITION. The word types: a 64-bit register or binary64 pattern (00_scope R6 REG_WIDTH, R8), a byte, a complex
sample (00_scope R8, 20_memory R64) and the indices a command word names buffers by (30_encoding R91).
-/

namespace Sys2Proof

/-- A 64-bit register value, or the bit pattern of a binary64 number (00_scope R6, R8). -/
abbrev Word := BitVec 64

/-- The smallest addressable unit of the Host bus (20_memory R60). -/
abbrev Byte := BitVec 8

/-- The number of a complex buffer, CB0 to CB3: every value of CS and CD names one (30_encoding R91). -/
abbrev CIdx := Fin 4

/-- The number of a bit buffer, BB0 or BB1: every value of BSEL names one (30_encoding R91). -/
abbrev BIdx := Fin 2

/-- One complex sample: the binary64 patterns of its real and imaginary parts (00_scope R8, 10_state R40). Any
pattern may stand in either part. -/
structure Cx where
  re : Word
  im : Word
  deriving DecidableEq, Repr, Inhabited

end Sys2Proof
end

