-- ==== Sys2Proof/Syntax.lean ====
section
/-!
DEFINITION. The command set: one constructor for each row of spec/opcode_table.json (30_encoding R92). The operands
carry their bounds in their types, since every value of CS, CD and BSEL names an existing buffer (30_encoding R91).
-/

namespace Sys2Proof

/-- A legal command of the WOFM command set, version 1. -/
inductive Instr where
  /-- NOP, opcode 0x00 (41_control_commands R140). -/
  | nop
  /-- CHECK, opcode 0x01 (41_control_commands R141). -/
  | check
  /-- QMAP cCD, bBS, opcode 0x10 (42_qpsk_map R150). -/
  | qmap (cd : CIdx) (bs : BIdx)
  /-- MOD cCD, cCS, opcode 0x20 (43_modulation R170). -/
  | mod (cd cs : CIdx)
  /-- DEMOD cCD, cCS, opcode 0x21 (43_modulation R175). -/
  | demod (cd cs : CIdx)
  /-- CHAN cCD, cCS, opcode 0x30 (44_channel R196). -/
  | chan (cd cs : CIdx)
  /-- DETECT bBD, cCS, opcode 0x40 (45_detection R210). -/
  | detect (bd : BIdx) (cs : CIdx)
  /-- BERCNT, opcode 0x41 (45_detection R215). -/
  | bercnt
  /-- PAPR cCS, opcode 0x50 (46_papr R237). -/
  | papr (cs : CIdx)
  deriving DecidableEq, Repr

end Sys2Proof
end

