-- ==== Sys2Proof/Decode.lean ====
section
/-!
DEFINITION. The decoder of 30_encoding R97, total on every 64-bit word, and the encoder of R98, written from the same
table of opcodes, masks and matches (R92, R93). The host's `decodeTableWord` is at the end.
-/

namespace Sys2Proof

/-- Why a word is illegal; the number is the detail IllegalCommand reports (30_encoding R94). -/
inductive Illegal where
  /-- Detail 1: OPC is none of the nine values of 30_encoding R92. -/
  | unknownOpcode
  /-- Detail 2: OPC is known, and some reserved or unused bit is 1. -/
  | reservedField
  deriving DecidableEq, Repr

/-- One row of 30_encoding R93, with the opcode of R92 (the low byte of the match) and what the row's fields mean. -/
structure OpRow where
  mnemonic : String
  mask : Word
  value : Word
  build : CIdx → CIdx → BIdx → Instr

/-- The rows of 30_encoding R93; `build` takes CS, CD and BSEL. -/
def opRows : List OpRow :=
  [ ⟨"NOP", 0xFFFFFFFFFFFFFFFF#64, 0x00#64, fun _ _ _ => .nop⟩,
    ⟨"CHECK", 0xFFFFFFFFFFFFFFFF#64, 0x01#64, fun _ _ _ => .check⟩,
    ⟨"QMAP", 0xFFFFFFFFFFFFE3FF#64, 0x10#64, fun _ cd b => .qmap cd b⟩,
    ⟨"MOD", 0xFFFFFFFFFFFFF0FF#64, 0x20#64, fun cs cd _ => .mod cd cs⟩,
    ⟨"DEMOD", 0xFFFFFFFFFFFFF0FF#64, 0x21#64, fun cs cd _ => .demod cd cs⟩,
    ⟨"CHAN", 0xFFFFFFFFFFFFF0FF#64, 0x30#64, fun cs cd _ => .chan cd cs⟩,
    ⟨"DETECT", 0xFFFFFFFFFFFFECFF#64, 0x40#64, fun cs _ b => .detect b cs⟩,
    ⟨"BERCNT", 0xFFFFFFFFFFFFFFFF#64, 0x41#64, fun _ _ _ => .bercnt⟩,
    ⟨"PAPR", 0xFFFFFFFFFFFFFCFF#64, 0x50#64, fun cs _ _ => .papr cs⟩ ]

/-- OPC, bits 7:0 (30_encoding R90). -/
def opcOf (w : Word) : Byte := w.extractLsb' 0 8

/-- CS, bits 9:8 (30_encoding R90, R91). -/
def csOf (w : Word) : CIdx := (w.extractLsb' 8 2).toFin

/-- CD, bits 11:10 (30_encoding R90, R91). -/
def cdOf (w : Word) : CIdx := (w.extractLsb' 10 2).toFin

/-- BSEL, bit 12 (30_encoding R90, R91). -/
def bselOf (w : Word) : BIdx := (w.extractLsb' 12 1).toFin

/-- The row whose match has the word's opcode, if any (30_encoding R97). -/
def rowOf (w : Word) : Option OpRow := opRows.find? (fun r => opcOf r.value == opcOf w)

/-- The decoder of 30_encoding R97: an unknown opcode is reported before a reserved field. -/
def decode (w : Word) : Except Illegal Instr :=
  match rowOf w with
  | none => .error .unknownOpcode
  | some r =>
    if w &&& r.mask = r.value then .ok (r.build (csOf w) (cdOf w) (bselOf w)) else .error .reservedField

/-- A complex buffer number shifted to the field at bit `at` (30_encoding R98). -/
def cField (c : CIdx) (pos : Nat) : Word := BitVec.ofNat 64 c.val <<< pos

/-- A bit buffer number shifted to bit 12, BSEL (30_encoding R98). -/
def bField (b : BIdx) : Word := BitVec.ofNat 64 b.val <<< 12

/-- The encoder: the word of each assembler form (30_encoding R98). -/
def encode : Instr → Word
  | .nop => 0x00#64
  | .check => 0x01#64
  | .qmap cd bs => 0x10#64 ||| cField cd 10 ||| bField bs
  | .mod cd cs => 0x20#64 ||| cField cs 8 ||| cField cd 10
  | .demod cd cs => 0x21#64 ||| cField cs 8 ||| cField cd 10
  | .chan cd cs => 0x30#64 ||| cField cs 8 ||| cField cd 10
  | .detect bd cs => 0x40#64 ||| cField cs 8 ||| bField bd
  | .bercnt => 0x41#64
  | .papr cs => 0x50#64 ||| cField cs 8

/-- The instruction this decoder reads from a table word: the bits below `nbits`, every bit above them 0. A command
is always one 64-bit word (30_encoding R96). -/
def decodeTableWord (nbits w : Nat) : Option Instr :=
  match decode (BitVec.ofNat 64 (w % 2 ^ nbits)) with
  | .ok i => some i
  | .error _ => none

end Sys2Proof
end

