-- ==== Sys2Proof/Config.lean ====
section
/-!
DEFINITION. What is fixed for the machine: the implementation parameters of 00_scope R6 with a value, and the OPEN
ones and the free values as constants without a body. Nothing in Lean can evaluate an opaque constant or prove a
value of it, so a theorem about the model holds whatever they are (70_reset_and_hazards R297).
-/

namespace Sys2Proof

/-- The wavelet catalogue and the sentinel (00_scope R2, 10_state R29). `noWavelet` is the spec's `none`, the
DFT baseline. -/
inductive Wavelet where
  | noWavelet
  | haar
  | db4
  | sym4
  | rbio22
  | coif1
  deriving DecidableEq, Repr, Inhabited

/-- The scale pair of the IDFT and DFT baseline (43_modulation R166). -/
inductive DftNorm where
  | backward
  | ortho
  deriving DecidableEq, Repr, Inhabited

/-- MAX_SAMPLES, the capacity of a complex buffer in samples (00_scope R6). -/
def Config.maxSamples : Nat := 16384

/-- BB_BYTES, the capacity of a bit buffer in bytes, two for each sample (00_scope R6). -/
def Config.bbBytes : Nat := 2 * Config.maxSamples

/-- ADDR_WIDTH: Host bus addresses are below 2^24 (00_scope R6, 20_memory R60). -/
def Config.addrSpace : Nat := 2 ^ 24

/-- The value of the ID register: "WOFM", version 1 (10_state R22). -/
def Config.idValue : Word := 0x00000001574F464D#64

/-- BLOCK_BASE, where the platform places the block; OPEN (20_memory R71). UNVERIFIED, log 12. -/
opaque Config.blockBase : Nat

/-- DFT_NORM, the normalization of the baseline; OPEN (43_modulation R166). UNVERIFIED, log 12. -/
opaque Config.dftNorm : DftNorm

/-- One coefficient of the wavelet library; nothing is known of it (00_scope R9). UNVERIFIED, log 6. -/
opaque Config.Coeff : Type

/-- What `decompose` hands to `reconstruct`: "an opaque coefficient set" (00_scope R9). -/
abbrev Config.CoeffSet := List Config.Coeff

/-- WDEC(x, w, lv), the library's decompose; OPEN (00_scope R6, R9). UNVERIFIED, log 6. -/
opaque Config.wdec : List Cx → Wavelet → Nat → Config.CoeffSet

/-- WREC(c, w), the library's reconstruct: a finite sequence of complex samples of any length; OPEN
(00_scope R6, R9). UNVERIFIED, log 6. -/
opaque Config.wrec : Config.CoeffSet → Wavelet → List Cx

/-- IDFT as computed: sample n of the inverse transform of a block under a normalization; OPEN (43_modulation R165,
R166). The transform of a block of N samples is samples 0 to N-1, so it has exactly N. UNVERIFIED, log 6. -/
opaque Config.idftSample : DftNorm → List Cx → Nat → Cx

/-- DFT as computed: sample k of the forward transform of a block; OPEN (43_modulation R165, R166).
UNVERIFIED, log 6. -/
opaque Config.dftSample : DftNorm → List Cx → Nat → Cx

/-- POW10, the library's 10^x, on FINITE binary64 patterns; OPEN (00_scope R6). Its results at a NaN and at the
infinities are those of 44_channel R192 and stand in `Sys2Proof.Machine.pow10`. UNVERIFIED, log 6, 7. -/
opaque Config.pow10 : Word → Word

/-- LOG10, the library's log10 x; OPEN (00_scope R6). UNVERIFIED, log 6. -/
opaque Config.log10 : Word → Word

/-- GAUSS(seed, index), the noise source; OPEN (44_channel R193). UNVERIFIED, log 6. -/
opaque Config.gauss : Word → Word → Word

/-- Free value: how many Host steps come between the issue of a command and its completion step, from the counter
`draws` at the issue (60_exceptions R256, 70_reset_and_hazards R295: finite, unbounded, unspecified).
UNVERIFIED, log 2. -/
opaque Config.latency : Nat → Nat

/-- Free value: what a Host read finds in a buffer byte whose content the spec leaves unspecified, from the counter
`draws` and the byte's address (70_reset_and_hazards R281, R291; 93_implementation_defined U1 to U4).
UNVERIFIED, log 4. -/
opaque Config.drawByte : Nat → Nat → Byte

/-- Free value: the sign and payload of a NaN the arithmetic would produce (93_implementation_defined U15).
UNVERIFIED, log 8. -/
opaque Config.nanSign : Bool

/-- Free value: see `Config.nanSign`. -/
opaque Config.nanPayload : BitVec 51

end Sys2Proof
end

