-- ==== Sys2Proof/Machine/Binary64.lean ====
section
/-!
DEFINITION. IEEE 754 binary64 arithmetic (00_scope R8): numbers unpacked from their patterns, the operations ⊕ ⊗ ⊘ and
fsqrt computed exactly over integers and rounded once to nearest, ties to even, subnormals kept, comparisons as IEEE
754 has them. A computed NaN carries no sign and no payload (93_implementation_defined U15, log 8).
-/

namespace Sys2Proof.Machine

/-- A binary64 number. `fin neg m e` is (-1)^neg * m * 2^(e - 1074); the unpacked patterns and the rounded results
have m < 2^53, e ≤ 2045, and m ≥ 2^52 unless e = 0. -/
inductive F64 where
  | nan
  | inf (neg : Bool)
  | fin (neg : Bool) (m : Nat) (e : Nat)
  deriving DecidableEq, Repr, Inhabited

/-- The number a binary64 pattern stands for (00_scope R8). -/
def unpack (w : Word) : F64 :=
  let frac := (w.extractLsb' 0 52).toNat
  let ex := (w.extractLsb' 52 11).toNat
  if ex = 2047 then (if frac = 0 then .inf w.msb else .nan)
  else if ex = 0 then .fin w.msb frac 0
  else .fin w.msb (2 ^ 52 + frac) (ex - 1)

/-- The sign bit of a pattern, as a number. -/
def signBit (neg : Bool) : Nat := if neg then 2 ^ 63 else 0

/-- The binary64 pattern of a number. For a finite number the exponent field and the fraction together are
e * 2^52 + m, for subnormal and normal numbers alike. A NaN's sign and payload are free values (log 8). -/
def pack : F64 → Word
  | .nan => BitVec.ofNat 64 (signBit Config.nanSign + 2047 * 2 ^ 52 + 2 ^ 51 + Config.nanPayload.toNat)
  | .inf neg => BitVec.ofNat 64 (signBit neg + 2047 * 2 ^ 52)
  | .fin neg m e => BitVec.ofNat 64 (signBit neg + e * 2 ^ 52 + m)

/-- isFinite(v): neither an infinity nor a NaN (00_scope R8). -/
def isFinite : F64 → Bool
  | .fin _ _ _ => true
  | .inf _ => false
  | .nan => false

/-- v = 0: either signed zero (00_scope R8). -/
def isZero : F64 → Bool
  | .fin _ m _ => m == 0
  | .inf _ => false
  | .nan => false

/-- Round up when dropping `shift` low bits of m leaves more than half a unit, or half and an odd quotient; `sticky`
says that the exact value lies strictly between m and m + 1. -/
def roundsUp (m shift : Nat) (sticky : Bool) : Bool :=
  let rem := m % 2 ^ shift
  let half := 2 ^ (shift - 1)
  decide (half < rem) || (rem == half && (sticky || (m / 2 ^ shift) % 2 == 1))

/-- The number with 53 significant bits nearest to m * 2^(x - 1074), ties to even; infinite when it is too large. When
`sticky` is set, the exact value lies strictly between m and m + 1 units, and the caller gives m more than 54 bits. -/
def roundF64 (neg : Bool) (m : Nat) (x : Int) (sticky : Bool) : F64 :=
  if m = 0 then .fin neg 0 0
  else
    let e := (x + (m.log2 : Int) - 52).toNat
    if (e : Int) ≤ x then
      if e ≤ 2045 then .fin neg (m <<< (x - e).toNat) e else .inf neg
    else
      let shift := ((e : Int) - x).toNat
      let q := m / 2 ^ shift + (if roundsUp m shift sticky then 1 else 0)
      let r := if q = 2 ^ 53 then (2 ^ 52, e + 1) else (q, e)
      if r.2 ≤ 2045 then .fin neg r.1 r.2 else .inf neg

/-- An integer with the sign of a number. -/
def signedInt (neg : Bool) (m : Nat) : Int := if neg then -(m : Int) else m

/-- ⊕, addition (00_scope R8). An exact zero sum is +0 unless both operands are -0. -/
def fadd : F64 → F64 → F64
  | .fin na ma ea, .fin nb mb eb =>
    let e := min ea eb
    let sum := signedInt na (ma <<< (ea - e)) + signedInt nb (mb <<< (eb - e))
    if sum = 0 then .fin (na && nb) 0 0 else roundF64 (decide (sum < 0)) sum.natAbs e false
  | .inf a, .inf b => if a = b then .inf a else .nan
  | .inf a, .fin _ _ _ => .inf a
  | .fin _ _ _, .inf b => .inf b
  | .nan, _ => .nan
  | _, .nan => .nan

/-- The number with the other sign. -/
def fneg : F64 → F64
  | .nan => .nan
  | .inf a => .inf (!a)
  | .fin a m e => .fin (!a) m e

/-- ⊖, subtraction (00_scope R8). -/
def fsub (a b : F64) : F64 := fadd a (fneg b)

/-- ⊗, multiplication (00_scope R8). -/
def fmul : F64 → F64 → F64
  | .fin na ma ea, .fin nb mb eb => roundF64 (na != nb) (ma * mb) ((ea : Int) + eb - 1074) false
  | .inf a, .inf b => .inf (a != b)
  | .inf a, .fin nb mb _ => if mb = 0 then .nan else .inf (a != nb)
  | .fin na ma _, .inf b => if ma = 0 then .nan else .inf (na != b)
  | .nan, _ => .nan
  | _, .nan => .nan

/-- ⊘, division (00_scope R8): the quotient to 120 binary places below the operands' unit, and whether it is exact. -/
def fdiv : F64 → F64 → F64
  | .fin na ma ea, .fin nb mb eb =>
    if mb = 0 then (if ma = 0 then .nan else .inf (na != nb))
    else roundF64 (na != nb) ((ma <<< 120) / mb) ((ea : Int) - eb - 120 + 1074) ((ma <<< 120) % mb != 0)
  | .inf _, .inf _ => .nan
  | .inf a, .fin nb _ _ => .inf (a != nb)
  | .fin na _ _, .inf b => .fin (na != b) 0 0
  | .nan, _ => .nan
  | _, .nan => .nan

/-- The integer square root by digits: the largest r + d with d below 2^bits whose square is at most m. -/
def isqrtFrom (m : Nat) : Nat → Nat → Nat
  | 0, r => r
  | bits + 1, r =>
    let r' := r + 2 ^ bits
    isqrtFrom m bits (if r' * r' ≤ m then r' else r)

/-- The integer square root of a number below 2^180. -/
def isqrt (m : Nat) : Nat := isqrtFrom m 90 0

/-- fsqrt, square root (00_scope R8): the root of m * 2^t with t chosen so that what is left of the exponent is even. -/
def fsqrt : F64 → F64
  | .nan => .nan
  | .inf neg => if neg then .nan else .inf false
  | .fin neg m e =>
    if m = 0 then .fin neg 0 0
    else if neg then .nan
    else
      let t := 120 + e % 2
      let big := m <<< t
      let r := isqrt big
      roundF64 false r (((e : Int) - t - 1074) / 2 + 1074) (r * r != big)

/-- a < b as IEEE 754 compares: false with a NaN, -0 equal to +0 (00_scope R8). -/
def flt : F64 → F64 → Bool
  | .fin na ma ea, .fin nb mb eb =>
    let e := min ea eb
    decide (signedInt na (ma <<< (ea - e)) < signedInt nb (mb <<< (eb - e)))
  | .inf a, .inf b => a && !b
  | .inf a, .fin _ _ _ => a
  | .fin _ _ _, .inf b => !b
  | .nan, _ => false
  | _, .nan => false

/-- The larger of two numbers, exactly (46_papr R232). -/
def fmax (a b : F64) : F64 := if flt a b then b else a

/-- i2f(k): the binary64 number equal to k, exact for k < 2^53 (00_scope R12). -/
def i2f (k : Nat) : F64 := roundF64 false k 1074 false

/-- +0.0. -/
def fzero : F64 := .fin false 0 0

/-- POW10 at the special values 44_channel R192 gives (a NaN stays a NaN, +∞ gives +∞, -∞ gives +0), and the
library's POW10 on every finite number. DEDUCED, log 7. -/
def pow10 : F64 → F64
  | .nan => .nan
  | .inf neg => if neg then .fin false 0 0 else .inf false
  | .fin neg m e => unpack (Config.pow10 (pack (.fin neg m e)))

/-- LOG10 as the library computes it (00_scope R6); PAPR applies it to finite numbers only (46_papr R237). -/
def log10 (v : F64) : F64 := unpack (Config.log10 (pack v))

end Sys2Proof.Machine
end

