-- ==== Sys2Proof/Machine/Bus.lean ====
section
/-!
DEFINITION. What crosses the block's boundary: the inputs the outside world gives it (Host bus transactions,
40_host_access; the reset input, 70_reset_and_hazards R280) and the answers the bus gives the Host.
-/

namespace Sys2Proof.Machine

/-- One thing the outside world does to the block. -/
inductive Input where
  /-- A bus read of `size` bytes at byte address `addr` (40_host_access R111). -/
  | read (addr size : Nat)
  /-- A bus write of `size` bytes; the value is the low 8*size bits of `value` (40_host_access R112). -/
  | write (addr size : Nat) (value : Word)
  /-- The Host's WAIT loop: read STATUS, and again while its bit 0 is 1 (30_encoding R99). -/
  | wait
  /-- A pulse of the reset input, or power-on (70_reset_and_hazards R280). -/
  | hardReset
  deriving DecidableEq, Repr

/-- What the bus answers one transaction (40_host_access R110 to R112). -/
inductive Response where
  /-- The address, size or alignment was refused: no state changed, no data (40_host_access R110). -/
  | busError
  /-- A write was answered, whether it took effect or was refused or ignored. -/
  | done
  /-- A read's data, zero-extended to 64 bits. -/
  | data (value : Word)
  deriving DecidableEq, Repr

end Sys2Proof.Machine
end

