-- ==== Sys2Proof/Machine/State.lean ====
section
/-!
DEFINITION. The state record of the block: every piece of state of 10_state R49, as plain data, with the outside
world's inputs still to come, what the bus answered, and the counters the free values are applied to.
-/

namespace Sys2Proof.Machine

/-- The error kinds STATUS.ERR can report; codes 6 to 15 are never produced (60_exceptions R250). -/
inductive ErrKind where
  /-- 0: success. -/
  | noError
  /-- 1: every command but NOP, from the configuration check. -/
  | configuration
  /-- 2: MOD, DEMOD, CHAN, DETECT, PAPR. -/
  | numerical
  /-- 3: CHECK and CHAN, from the noise variance. -/
  | parameterRange
  /-- 4: any illegal word. -/
  | illegalCommand
  /-- 5: QMAP and BERCNT. -/
  | bitValue
  deriving DecidableEq, Repr

/-- The fields of STATUS; its reserved bits read as zero and are not stored (10_state R24). -/
structure Status where
  busy : Bool
  done : Bool
  haz : Bool
  paprValid : Bool
  berValid : Bool
  varValid : Bool
  err : ErrKind
  detail : BitVec 4
  deriving DecidableEq, Repr

/-- Why a step stops the model. -/
inductive Fault where
  /-- Raised by QMAP, MOD, DEMOD, CHAN, DETECT, BERCNT and PAPR when the source range holds a byte whose written flag
  is clear: the spec's own model fault UnwrittenSource (70_reset_and_hazards R281, R297). SAFE: the chip computes on
  whatever bits are there, and nothing is claimed of it. Log 5. -/
  | unwrittenSource
  deriving DecidableEq, Repr

/-- Why an instruction is refused. Every word has a meaning (70_reset_and_hazards R297), so no arm refuses. -/
inductive Refusal where
  /-- Raised by an arm of `exec` that has no meaning yet; no arm of this model is one. SAFE. -/
  | notModelled (mnemonic : String)
  deriving DecidableEq, Repr

/-- The state of the block (10_state R20, R49). ID is hard-wired and not stored (10_state R22). -/
structure State where
  /-- CTRL.IE, interrupt enable (10_state R23). -/
  ie : Bool
  /-- STATUS (10_state R24). -/
  status : Status
  /-- CMD, the last command word accepted (10_state R25). -/
  cmd : Word
  /-- CFG_NSUB, n_subcarriers N (10_state R27). -/
  cfgNsub : Word
  /-- CFG_NSYM, n_symbols S (10_state R28). -/
  cfgNsym : Word
  /-- CFG_WAVELET, the wavelet code (10_state R29). -/
  cfgWavelet : Word
  /-- SNR_DB, a binary64 pattern (10_state R30). -/
  snrDb : Word
  /-- NOISE_SEED (10_state R31). -/
  noiseSeed : Word
  /-- NOISE_CTR, noise draws consumed (10_state R32). -/
  noiseCtr : Word
  /-- NOISE_VAR, a binary64 pattern (10_state R33). -/
  noiseVar : Word
  /-- PAPR_DB, a binary64 pattern (10_state R34). -/
  paprDb : Word
  /-- PEAK_PWR, a binary64 pattern (10_state R35). -/
  peakPwr : Word
  /-- MEAN_PWR, a binary64 pattern (10_state R36). -/
  meanPwr : Word
  /-- ERR_BITS (10_state R37). -/
  errBits : Word
  /-- TOTAL_BITS (10_state R38). -/
  totalBits : Word
  /-- BER, a binary64 pattern (10_state R39). -/
  ber : Word
  /-- ERR_INDEX (10_state R26). -/
  errIndex : Word
  /-- What ERR_INDEX held before the command in flight, which is what it reads as while BUSY = 1 (40_host_access R111,
  70_reset_and_hazards R291). Meaningless while BUSY = 0. Log 20. -/
  heldErrIndex : Word
  /-- The data buffers CB0 to CB3, BB0, BB1 at their bus addresses (20_memory R62). A byte is listed exactly when its
  written flag is set (10_state R49, 70_reset_and_hazards R281); addresses strictly rise. -/
  mem : List Host.Cell
  /-- The refusal mark of 10_state R49: bookkeeping no step of this model sets (70_reset_and_hazards R297). Log 10. -/
  refusalMark : Bool
  /-- The model's own: what the outside world has still to do, next first (00_scope R16). Log 1. -/
  inputs : List Input
  /-- The model's own: what the bus has answered, newest first (40_host_access R110 to R112). Log 3. -/
  responses : List Response
  /-- The model's own: how many Host steps still come before the completion step of the command in flight
  (60_exceptions R256). Log 2. -/
  patience : Nat
  /-- The model's own: the counter the free values are applied to. Log 4. -/
  draws : Nat
  deriving DecidableEq, Repr

/-- STATUS after reset: every field 0 (70_reset_and_hazards R280). -/
def Status.reset : Status :=
  { busy := false, done := false, haz := false, paprValid := false, berValid := false, varValid := false,
    err := .noError, detail := 0#4 }

/-- The machine right after a hardware reset (70_reset_and_hazards R280, R281): every register at its reset value,
every written flag clear. The model's own fields, `heldErrIndex` among them, are empty or 0 (DESIGN CHOICE, log 18). -/
def State.reset : State :=
  { ie := false, status := Status.reset, cmd := 0#64, cfgNsub := 64#64, cfgNsym := 100#64, cfgWavelet := 1#64,
    snrDb := 0#64, noiseSeed := 0#64, noiseCtr := 0#64, noiseVar := 0#64, paprDb := 0#64, peakPwr := 0#64,
    meanPwr := 0#64, errBits := 0#64, totalBits := 0#64, ber := 0#64, errIndex := 0#64,
    heldErrIndex := 0#64, mem := [], refusalMark := false, inputs := [], responses := [], patience := 0, draws := 0 }

end Sys2Proof.Machine
end

