-- ==== Sys2Proof/Machine/Memory.lean ====
section
/-!
DEFINITION. The operations over the buffer memory: one byte, the little-endian bytes of a value (20_memory R61), and
the runs of samples and bit bytes commands work on (20_memory R64, R65). A byte is listed exactly when its written
flag is set (70_reset_and_hazards R281), and the list keeps rising addresses.
-/

namespace Sys2Proof.Machine

/-- The buffer memory: (address, byte) cells. -/
abbrev Mem := List Host.Cell

/-- The canonical form: addresses strictly rise. An unlisted address reads as nothing, so no listed byte can equal
what an unlisted address reads as. -/
def memWf : Mem → Bool
  | [] => true
  | [_] => true
  | x :: y :: rest => decide (x.1 < y.1) && memWf (y :: rest)

/-- The byte at an address: nothing where the written flag is clear (70_reset_and_hazards R281). -/
def memRead : Mem → Nat → Option Byte
  | [], _ => none
  | x :: rest, a => if a = x.1 then some x.2 else memRead rest a

/-- Store one byte and set its written flag (70_reset_and_hazards R281). -/
def memWrite : Mem → Nat → Byte → Mem
  | [], a, v => [(a, v)]
  | x :: rest, a, v =>
    if a < x.1 then (a, v) :: x :: rest else if a = x.1 then (a, v) :: rest else x :: memWrite rest a v

/-- Clear the written flags of n bytes from address a: their contents become unspecified (60_exceptions R254,
70_reset_and_hazards R281, R283). -/
def memForget (m : Mem) (a n : Nat) : Mem := m.filter (fun x => decide (x.1 < a) || decide (a + n ≤ x.1))

/-- The low n bytes of a value, the least significant first (20_memory R61). -/
def bytesOf : Nat → Word → List Byte
  | 0, _ => []
  | n + 1, v => v.extractLsb' 0 8 :: bytesOf n (v >>> 8)

/-- The value whose bytes these are, the least significant first, zero-extended (20_memory R61). -/
def wordOf : List Byte → Word
  | [] => 0#64
  | b :: rest => b.zeroExtend 64 ||| (wordOf rest <<< 8)

/-- The n bytes from address a, where all their written flags are set. -/
def memReadBytes (m : Mem) : Nat → Nat → Option (List Byte)
  | _, 0 => some []
  | a, n + 1 =>
    match memRead m a with
    | none => none
    | some b =>
      match memReadBytes m (a + 1) n with
      | none => none
      | some rest => some (b :: rest)

/-- Store a run of bytes from address a upwards. -/
def memWriteBytes : Mem → Nat → List Byte → Mem
  | m, _, [] => m
  | m, a, b :: rest => memWriteBytes (memWrite m a b) (a + 1) rest

/-- The 64-bit value at address a, where all eight written flags are set (20_memory R61). -/
def memReadWord (m : Mem) (a : Nat) : Option Word := (memReadBytes m a 8).map wordOf

/-- The base address of CB c (20_memory R62). -/
def cbBase (c : CIdx) : Nat := 0x040000 * (c.val + 1)

/-- The base address of BB b (20_memory R62). -/
def bbBase (b : BIdx) : Nat := 0x140000 + 0x8000 * b.val

/-- The complex sample at address a: real part, then imaginary part (20_memory R64). The second example of 20_memory R68
has the byte at base(CB1) + 23 in CB[1][1].im, where R61 and R64 have it as the top byte of CB[1][1].re; no ruling
settles the two. DESIGN CHOICE, log 21: the layout is that of R64. -/
def memReadCx (m : Mem) (a : Nat) : Option Cx :=
  match memReadWord m a with
  | none => none
  | some re =>
    match memReadWord m (a + 8) with
    | none => none
    | some im => some ⟨re, im⟩

/-- The complex samples from address a upwards, where every written flag is set (20_memory R64). -/
def memReadSamples (m : Mem) : Nat → Nat → Option (List Cx)
  | _, 0 => some []
  | a, len + 1 =>
    match memReadCx m a with
    | none => none
    | some x =>
      match memReadSamples m (a + 16) len with
      | none => none
      | some rest => some (x :: rest)

/-- The bytes of a complex sample as the buffer lays them out (20_memory R64). -/
def cxBytes (x : Cx) : List Byte := bytesOf 8 x.re ++ bytesOf 8 x.im

/-- The bytes of a run of samples. -/
def samplesBytes (xs : List Cx) : List Byte := xs.flatMap cxBytes

/-- Samples 0 to len-1 of CB c, where every one is written (10_state R40). -/
def readSamples (m : Mem) (c : CIdx) (len : Nat) : Option (List Cx) := memReadSamples m (cbBase c) len

/-- Store samples from sample 0 of CB c upwards (10_state R40). -/
def writeSamples (m : Mem) (c : CIdx) (xs : List Cx) : Mem := memWriteBytes m (cbBase c) (samplesBytes xs)

/-- Samples 0 to len-1 of CB c become unspecified (60_exceptions R254). -/
def forgetSamples (m : Mem) (c : CIdx) (len : Nat) : Mem := memForget m (cbBase c) (16 * len)

/-- Bytes 0 to n-1 of BB b, where every one is written (10_state R41). -/
def readBits (m : Mem) (b : BIdx) (n : Nat) : Option (List Byte) := memReadBytes m (bbBase b) n

/-- Store bytes from byte 0 of BB b upwards (10_state R41). -/
def writeBits (m : Mem) (b : BIdx) (bs : List Byte) : Mem := memWriteBytes m (bbBase b) bs

/-- Bytes 0 to n-1 of BB b become unspecified (70_reset_and_hazards R283). -/
def forgetBits (m : Mem) (b : BIdx) (n : Nat) : Mem := memForget m (bbBase b) n

end Sys2Proof.Machine
end

