-- ==== Sys2Proof/Machine/Flags.lean ====
section
/-!
DEFINITION. The STATUS word and its codes (10_state R24, 60_exceptions R250), the details of each error
(60_exceptions R251), the CTRL word (10_state R23) and the interrupt output (10_state R47).
-/

namespace Sys2Proof.Machine

/-- The code STATUS.ERR reports for a kind (60_exceptions R250). -/
def errCode : ErrKind → Nat
  | .noError => 0
  | .configuration => 1
  | .numerical => 2
  | .parameterRange => 3
  | .illegalCommand => 4
  | .bitValue => 5

/-- The details a kind is ever reported with (60_exceptions R251). -/
def detailLegal : ErrKind → BitVec 4 → Bool
  | .noError, d => d == 0#4
  | .configuration, d => d == 1#4 || d == 2#4 || d == 3#4 || d == 4#4
  | .numerical, d => d == 1#4 || d == 2#4 || d == 3#4 || d == 4#4
  | .parameterRange, d => d == 1#4
  | .illegalCommand, d => d == 1#4 || d == 2#4
  | .bitValue, d => d == 1#4

/-- STATUS as it is read: every field at its place, the reserved bits 0 (10_state R24). -/
def statusWord (st : Status) : Word :=
  BitVec.ofNat 64
    (st.busy.toNat + 2 * st.done.toNat + 4 * st.haz.toNat + 8 * st.paprValid.toNat + 16 * st.berValid.toNat
      + 32 * st.varValid.toNat + 256 * errCode st.err + 65536 * st.detail.toNat)

/-- CTRL as it is read: IE in bit 0, SRST and the reserved bits 0 (10_state R23). -/
def ctrlWord (s : State) : Word := BitVec.ofNat 64 s.ie.toNat

/-- IRQ = STATUS.DONE and CTRL.IE, a level and a function of state (10_state R47, 60_exceptions R260). -/
def irq (s : State) : Bool := s.status.done && s.ie

end Sys2Proof.Machine
end

