-- ==== Sys2Proof/Machine/Ops.lean ====
section
/-!
DEFINITION. The shared operations on the state: a command's completion and its raise (60_exceptions R252 to R255), the
commits of the result registers, the issue of a command (40_host_access R116), the two resets (70_reset_and_hazards
R280, R283) and the register file (10_state R20).
-/

namespace Sys2Proof.Machine

/-- `raise K(detail, index)` (60_exceptions R252). -/
structure Raise where
  kind : ErrKind
  detail : BitVec 4
  index : Nat
  deriving DecidableEq, Repr

/-- What every completion step writes: ERR, ERR_DETAIL, ERR_INDEX, BUSY 0 and DONE 1 (60_exceptions R254, R255). The
model's counters move on: no command is in flight, and the free values are fresh ones. -/
def finish (kind : ErrKind) (detail : BitVec 4) (index : Nat) (s : State) : State :=
  { s with
    status := { s.status with busy := false, done := true, err := kind, detail := detail }
    errIndex := BitVec.ofNat 64 index
    patience := 0
    draws := s.draws + 1 }

/-- A command that completes without a raise (60_exceptions R255). -/
def completed (s : State) : State := finish .noError 0#4 0 s

/-- Taking an error: what every command that raises writes (60_exceptions R252, R253, R254). There is no trap entry:
no program counter, mode or vector exists (60_exceptions R259). -/
def raised (r : Raise) (s : State) : State := finish r.kind r.detail r.index s

/-- IllegalCommand for a word the decoder rejects; it changes no VALID bit (30_encoding R94, 60_exceptions R254). -/
def illegalCommand (k : Illegal) (s : State) : State :=
  match k with
  | .unknownOpcode => raised ⟨.illegalCommand, 1#4, 0⟩ s
  | .reservedField => raised ⟨.illegalCommand, 2#4, 0⟩ s

/-- The Host acknowledges a completion: DONE is cleared (60_exceptions R261, 40_host_access R117). -/
def acknowledge (s : State) : State := { s with status := { s.status with done := false } }

/-- The Host clears HAZ (40_host_access R117). -/
def clearHaz (s : State) : State := { s with status := { s.status with haz := false } }

/-- VAR_VALID is cleared by a CHECK or CHAN that raised (60_exceptions R254). -/
def dropVar (s : State) : State := { s with status := { s.status with varValid := false } }

/-- PAPR_VALID is cleared by a PAPR that raised (60_exceptions R254, 46_papr R236). -/
def dropPapr (s : State) : State := { s with status := { s.status with paprValid := false } }

/-- BER_VALID is cleared by a BERCNT that raised (60_exceptions R254). -/
def dropBer (s : State) : State := { s with status := { s.status with berValid := false } }

/-- Commit NOISE_VAR and VAR_VALID (41_control_commands R141, 44_channel R196). -/
def commitVar (var : Word) (s : State) : State :=
  { s with noiseVar := var, status := { s.status with varValid := true } }

/-- Commit NOISE_CTR (44_channel R195). -/
def commitCtr (ctr : Word) (s : State) : State := { s with noiseCtr := ctr }

/-- Commit PAPR_DB, PEAK_PWR, MEAN_PWR and PAPR_VALID (46_papr R237). -/
def commitPapr (papr peak mean : Word) (s : State) : State :=
  { s with
    paprDb := papr
    peakPwr := peak
    meanPwr := mean
    status := { s.status with paprValid := true } }

/-- Commit ERR_BITS, TOTAL_BITS, BER and BER_VALID (45_detection R215). -/
def commitBer (errs total ber : Word) (s : State) : State :=
  { s with
    errBits := errs
    totalBits := total
    ber := ber
    status := { s.status with berValid := true } }

/-- Commit the buffers. -/
def commitMem (m : Mem) (s : State) : State := { s with mem := m }

/-- Issue a command: the accepted write of CMD, which sets ERR_INDEX to 0 (40_host_access R116, 10_state R26). What it
held before is kept for the reads while BUSY = 1 (70_reset_and_hazards R291, log 20). The completion step follows after a
finite number of Host steps that nothing states (60_exceptions R256). -/
def issue (w : Word) (s : State) : State :=
  { s with
    cmd := w
    status := { s.status with busy := true, done := false, err := .noError, detail := 0#4 }
    errIndex := 0#64
    heldErrIndex := s.errIndex
    patience := Config.latency s.draws
    draws := s.draws + 1 }

/-- A write refused because BUSY = 1 sets HAZ and nothing else (70_reset_and_hazards R290). -/
def refuseWrite (s : State) : State := { s with status := { s.status with haz := true } }

/-- Every register at its reset value (70_reset_and_hazards R280, R283); buffers, bookkeeping and the outside world's
part of the state stay. -/
def resetRegisters (s : State) : State :=
  { State.reset with
    mem := s.mem
    refusalMark := s.refusalMark
    inputs := s.inputs
    responses := s.responses
    draws := s.draws + 1 }

/-- Hardware reset, power-on or the reset input: every register at its reset value and every written flag clear
(70_reset_and_hazards R280, R281). -/
def hardReset (s : State) : State := { resetRegisters s with mem := [], refusalMark := false }

/-- N is 0 or no power of two (41_control_commands R143). -/
def notPow2 (n : Word) : Bool := n == 0#64 || (n &&& (n - 1#64)) != 0#64

/-- The first of the four configuration checks that fails, as the detail it raises (41_control_commands R143). The
product N * S is exact. -/
def cfgFailure (s : State) : Option (BitVec 4) :=
  if notPow2 s.cfgNsub then some 1#4
  else if 5 < s.cfgWavelet.toNat then some 2#4
  else if s.cfgNsym = 0#64 then some 3#4
  else if Config.maxSamples < s.cfgNsub.toNat * s.cfgNsym.toNat then some 4#4
  else none

/-- L = N * S, the stream length (41_control_commands R144). -/
def streamLen (s : State) : Nat := s.cfgNsub.toNat * s.cfgNsym.toNat

/-- The destination elements an instruction writes lose their written flags: samples 0 to L-1 of CB[CD] for QMAP, MOD,
DEMOD and CHAN, bytes 0 to 2L-1 of BB[BD] for DETECT, nothing for the others (70_reset_and_hazards R283). -/
def forgetDestination (i : Instr) (len : Nat) (m : Mem) : Mem :=
  match i with
  | .nop => m
  | .check => m
  | .qmap cd _ => forgetSamples m cd len
  | .mod cd _ => forgetSamples m cd len
  | .demod cd _ => forgetSamples m cd len
  | .chan cd _ => forgetSamples m cd len
  | .detect bd _ => forgetBits m bd (2 * len)
  | .bercnt => m
  | .papr _ => m

/-- The buffers after a soft reset: a command in flight is abandoned and the destination elements it would have
written become unspecified (70_reset_and_hazards R283). An illegal word and a word under a configuration that fails
its check would have written nothing. DEDUCED, log 9. -/
def abandonedMem (s : State) : Mem :=
  if s.status.busy then
    match decode s.cmd with
    | .error _ => s.mem
    | .ok i => if cfgFailure s = none then forgetDestination i (streamLen s) s.mem else s.mem
  else s.mem

/-- Soft reset (70_reset_and_hazards R283). -/
def softReset (s : State) : State := { resetRegisters s with mem := abandonedMem s }

/-- The registers of the map (10_state R20). -/
inductive Reg where
  | id
  | ctrl
  | status
  | cmd
  | cfgNsub
  | cfgNsym
  | cfgWavelet
  | snrDb
  | noiseSeed
  | noiseCtr
  | noiseVar
  | paprDb
  | peakPwr
  | meanPwr
  | errBits
  | totalBits
  | ber
  | errIndex
  deriving DecidableEq, Repr

/-- The registers in the order of their offsets, 8 bytes each from offset 0 (10_state R20). -/
def regList : List Reg :=
  [.id, .ctrl, .status, .cmd, .cfgNsub, .cfgNsym, .cfgWavelet, .snrDb, .noiseSeed, .noiseCtr, .noiseVar, .paprDb,
    .peakPwr, .meanPwr, .errBits, .totalBits, .ber, .errIndex]

/-- The register at an 8-byte aligned offset, if the offset is not reserved (10_state R20, R21). -/
def regAt (off : Nat) : Option Reg := regList[off / 8]?

/-- What ERR_INDEX reads as: while BUSY = 1 the value it held before the command in flight, else the register
(40_host_access R111, 70_reset_and_hazards R291). A read while BUSY = 1 need not return what was last written, here the 0
of R116, because 20_memory R73 excepts it by R291. DEDUCED, log 20. -/
def errIndexRead (s : State) : Word := if s.status.busy then s.heldErrIndex else s.errIndex

/-- The value a register reads as (40_host_access R111); a read has no side effect (20_memory R70). -/
def regValue (r : Reg) (s : State) : Word :=
  match r with
  | .id => Config.idValue
  | .ctrl => ctrlWord s
  | .status => statusWord s.status
  | .cmd => s.cmd
  | .cfgNsub => s.cfgNsub
  | .cfgNsym => s.cfgNsym
  | .cfgWavelet => s.cfgWavelet
  | .snrDb => s.snrDb
  | .noiseSeed => s.noiseSeed
  | .noiseCtr => s.noiseCtr
  | .noiseVar => s.noiseVar
  | .paprDb => s.paprDb
  | .peakPwr => s.peakPwr
  | .meanPwr => s.meanPwr
  | .errBits => s.errBits
  | .totalBits => s.totalBits
  | .ber => s.ber
  | .errIndex => errIndexRead s

/-- A write that is refused, with HAZ set, while BUSY = 1 (40_host_access R114, R115, R116, R120). -/
def unlessBusy (s s' : State) : State := if s.status.busy then refuseWrite s else s'

/-- Write of CTRL: bit 1 performs the soft reset, else bit 0 becomes IE (40_host_access R118). -/
def writeCtrl (v : Word) (s : State) : State :=
  if v.getLsbD 1 then softReset s else { s with ie := v.getLsbD 0 }

/-- Write of STATUS: bit 1 clears DONE, bit 2 clears HAZ, every other bit is ignored (40_host_access R117). -/
def writeStatus (v : Word) (s : State) : State :=
  let t := if v.getLsbD 1 then acknowledge s else s
  if v.getLsbD 2 then clearHaz t else t

/-- Write of a register (40_host_access R113 to R119): the read-only registers ignore it. -/
def regWrite (r : Reg) (v : Word) (s : State) : State :=
  match r with
  | .id => s
  | .ctrl => writeCtrl v s
  | .status => writeStatus v s
  | .cmd => unlessBusy s (issue v s)
  | .cfgNsub => unlessBusy s { s with cfgNsub := v }
  | .cfgNsym => unlessBusy s { s with cfgNsym := v }
  | .cfgWavelet => unlessBusy s { s with cfgWavelet := v }
  | .snrDb => unlessBusy s { s with snrDb := v }
  | .noiseSeed => unlessBusy s { s with noiseSeed := v, noiseCtr := 0#64 }
  | .noiseCtr => s
  | .noiseVar => s
  | .paprDb => s
  | .peakPwr => s
  | .meanPwr => s
  | .errBits => s
  | .totalBits => s
  | .ber => s
  | .errIndex => s

end Sys2Proof.Machine
end

