-- ==== Sys2Proof/Machine/Operands.lean ====
section
/-!
DEFINITION. What a command reads before it computes: the configuration (41_control_commands R143, R144), its source
samples (43_modulation R168) or source bits (42_qpsk_map R151), and what its words hold.
-/

namespace Sys2Proof.Machine

/-- The values a command uses once the configuration check succeeded (41_control_commands R144). -/
structure Cfg where
  /-- N, the subcarriers of a block. -/
  nsub : Nat
  /-- S, the blocks. -/
  nsym : Nat
  /-- lv = log2 N, the decomposition depth. -/
  level : Nat
  /-- w, the wavelet. -/
  wavelet : Wavelet
  deriving DecidableEq, Repr

/-- L = N * S (41_control_commands R144). -/
def cfgLen (cfg : Cfg) : Nat := cfg.nsub * cfg.nsym

/-- The wavelet a code names (10_state R29); codes above 5 fail the configuration check. -/
def waveletOf (code : Nat) : Wavelet :=
  match code with
  | 0 => .noWavelet
  | 1 => .haar
  | 2 => .db4
  | 3 => .sym4
  | 4 => .rbio22
  | _ => .coif1

/-- The configuration as the registers hold it (41_control_commands R144). -/
def cfgOf (s : State) : Cfg :=
  { nsub := s.cfgNsub.toNat, nsym := s.cfgNsym.toNat, level := s.cfgNsub.toNat.log2,
    wavelet := waveletOf s.cfgWavelet.toNat }

/-- The configuration check: ConfigurationError with the first failing detail, or the values a command uses
(41_control_commands R143, R144). -/
def cfgCheck (s : State) : Except Raise Cfg :=
  match cfgFailure s with
  | some d => .error ⟨.configuration, d, 0⟩
  | none => .ok (cfgOf s)

/-- A complex sample as two numbers (00_scope R8). -/
structure CNum where
  re : F64
  im : F64
  deriving DecidableEq, Repr

/-- The numbers of a sample's patterns. -/
def cnum (x : Cx) : CNum := ⟨unpack x.re, unpack x.im⟩

/-- Both parts are finite (43_modulation R168). -/
def cxFinite (x : Cx) : Bool := isFinite (unpack x.re) && isFinite (unpack x.im)

/-- The index, counted from `i`, of the first sample with a part that is not finite (43_modulation R168, 60_exceptions
R253). -/
def firstNonFinite : List Cx → Nat → Option Nat
  | [], _ => none
  | x :: rest, i => if cxFinite x then firstNonFinite rest (i + 1) else some i

/-- The scan of a complex source: NumericalError(4, i) at the first non-finite sample (60_exceptions R257). -/
def scanSamples (xs : List Cx) : Except Raise Unit :=
  match firstNonFinite xs 0 with
  | some i => .error ⟨.numerical, 4#4, i⟩
  | none => .ok ()

/-- A bit byte is 0x00 or 0x01 (42_qpsk_map R151). -/
def bitByte (b : Byte) : Bool := b == 0#8 || b == 1#8

/-- The index, counted from `j`, of the first byte that is neither 0 nor 1 (42_qpsk_map R151). -/
def firstBadBit : List Byte → Nat → Option Nat
  | [], _ => none
  | b :: rest, j => if bitByte b then firstBadBit rest (j + 1) else some j

/-- The scan of a bit source: BitValueError(1, j) at the first bad byte (42_qpsk_map R151). -/
def scanBits (bs : List Byte) : Except Raise Unit :=
  match firstBadBit bs 0 with
  | some j => .error ⟨.bitValue, 1#4, j⟩
  | none => .ok ()

/-- What follows the configuration check: the error the check raises, with the VALID bit `drop` clears
(60_exceptions R254), or the command itself. -/
def withCfg (drop : State → State) (s : State) (perform : Cfg → Host.Outcome State Fault Refusal) :
    Host.Outcome State Fault Refusal :=
  match cfgCheck s with
  | .error r => .next (raised r (drop s))
  | .ok cfg => perform cfg

/-- The samples 0 to L-1 a command reads from CB c; the model fault UnwrittenSource where one of their bytes has no
written flag (70_reset_and_hazards R281, log 5). -/
def withSamples (c : CIdx) (len : Nat) (s : State) (perform : List Cx → Host.Outcome State Fault Refusal) :
    Host.Outcome State Fault Refusal :=
  match readSamples s.mem c len with
  | none => .fault .unwrittenSource
  | some xs => perform xs

/-- The bytes 0 to n-1 a command reads from BB b; the model fault UnwrittenSource where one of them has no written
flag (70_reset_and_hazards R281, log 5). -/
def withBits (b : BIdx) (n : Nat) (s : State) (perform : List Byte → Host.Outcome State Fault Refusal) :
    Host.Outcome State Fault Refusal :=
  match readBits s.mem b n with
  | none => .fault .unwrittenSource
  | some bs => perform bs

end Sys2Proof.Machine
end

