-- ==== Sys2Proof/Machine/Control.lean ====
section
/-!
DEFINITION. The control commands NOP and CHECK (41_control_commands R140, R141) and the noise variance they and CHAN
share (44_channel R191).
-/

namespace Sys2Proof.Machine

/-- 10.0. -/
def ften : F64 := i2f 10

/-- 2.0. -/
def ftwo : F64 := i2f 2

/-- var = N / (2 * 10^(SNR_dB / 10)) in the binary64 order of 44_channel R191, before its range test. -/
def varianceOf (nsub : Nat) (snrDb : Word) : F64 :=
  let t := fdiv (unpack snrDb) ften
  let snr := pow10 t
  let d := fmul ftwo snr
  fdiv (i2f nsub) d

/-- noise_variance() (44_channel R191): ParameterRangeError(1, 0) unless the variance is finite and above 0. -/
def noiseVariance (cfg : Cfg) (s : State) : Except Raise F64 :=
  let var := varianceOf cfg.nsub s.snrDb
  if isFinite var && flt fzero var then .ok var else .error ⟨.parameterRange, 1#4, 0⟩

/-- NOP: no configuration check, no effect but the completion writes (41_control_commands R140). -/
def execNop (s : State) : Host.Outcome State Fault Refusal := .next (completed s)

/-- What CHECK leaves after the configuration check (41_control_commands R141). -/
def checkResult (cfg : Cfg) (s : State) : State :=
  match noiseVariance cfg s with
  | .error r => raised r (dropVar s)
  | .ok var => completed (commitVar (pack var) s)

/-- CHECK: validate the configuration and the SNR (41_control_commands R141). -/
def execCheck (s : State) : Host.Outcome State Fault Refusal :=
  withCfg dropVar s fun cfg => .next (checkResult cfg s)

end Sys2Proof.Machine
end

