-- ==== Sys2Proof/Machine/Channel.lean ====
section
/-!
DEFINITION. The AWGN channel CHAN (44_channel R190 to R196).
-/

namespace Sys2Proof.Machine

/-- The draws of sample i: GAUSS(seed, c + i) for the real part and GAUSS(seed, c + L + i) for the imaginary part, the
index modulo 2^64 (44_channel R194). -/
def drawOf (seed ctr : Word) (len i : Nat) : CNum :=
  ⟨unpack (Config.gauss seed (ctr + BitVec.ofNat 64 i)), unpack (Config.gauss seed (ctr + BitVec.ofNat 64 (len + i)))⟩

/-- One noisy sample: x ⊕ (sigma ⊗ z), each part by itself (44_channel R196). -/
def noisyOf (sigma : F64) (x : Cx) (z : CNum) : CNum :=
  ⟨fadd (unpack x.re) (fmul sigma z.re), fadd (unpack x.im) (fmul sigma z.im)⟩

/-- The noisy samples from sample i on; NumericalError(1, i) at the first sum that is not finite (44_channel R196). -/
def addNoise (sigma : F64) (seed ctr : Word) (len : Nat) : Nat → List Cx → Except Raise (List Cx)
  | _, [] => .ok []
  | i, x :: rest =>
    let y := noisyOf sigma x (drawOf seed ctr len i)
    if isFinite y.re && isFinite y.im then
      match addNoise sigma seed ctr len (i + 1) rest with
      | .error r => .error r
      | .ok ys => .ok (⟨pack y.re, pack y.im⟩ :: ys)
    else .error ⟨.numerical, 1#4, i⟩

/-- What CHAN leaves once the variance and the source are known (44_channel R196): only a success moves NOISE_CTR
(44_channel R195); every raise clears VAR_VALID, and one of the compute phase leaves samples 0 to L-1 of CB[CD]
unspecified (60_exceptions R254). -/
def chanResult (cfg : Cfg) (cd : CIdx) (var : F64) (xs : List Cx) (s : State) : State :=
  match scanSamples xs with
  | .error r => raised r (dropVar s)
  | .ok () =>
    match addNoise (fsqrt var) s.noiseSeed s.noiseCtr (cfgLen cfg) 0 xs with
    | .error r => raised r (dropVar (commitMem (forgetSamples s.mem cd (cfgLen cfg)) s))
    | .ok ys =>
      completed
        (commitVar (pack var)
          (commitCtr (s.noiseCtr + BitVec.ofNat 64 (2 * cfgLen cfg)) (commitMem (writeSamples s.mem cd ys) s)))

/-- What follows the configuration check of CHAN: the variance, then the source (60_exceptions R257). -/
def chanPerform (cd cs : CIdx) (s : State) (cfg : Cfg) : Host.Outcome State Fault Refusal :=
  match noiseVariance cfg s with
  | .error r => .next (raised r (dropVar s))
  | .ok var => withSamples cs (cfgLen cfg) s fun xs => .next (chanResult cfg cd var xs s)

/-- CHAN cCD, cCS: add complex Gaussian noise at the configured SNR (44_channel R196). The variance is checked before
the source is read (60_exceptions R257). -/
def execChan (cd cs : CIdx) (s : State) : Host.Outcome State Fault Refusal :=
  withCfg dropVar s (chanPerform cd cs s)

end Sys2Proof.Machine
end

