-- ==== Sys2Proof/Machine/Detection.lean ====
section
/-!
DEFINITION. The QPSK detector DETECT and the bit-error counter BERCNT (45_detection R210 to R217).
-/

namespace Sys2Proof.Machine

/-- A component decides 1 exactly when it is above +0.0 (45_detection R210, R211). -/
def decideBit (w : Word) : Byte := if flt fzero (unpack w) then 1#8 else 0#8

/-- The bytes of the detected bits: sample i gives bytes 2i and 2i+1 (45_detection R210). -/
def decideBits (xs : List Cx) : List Byte := xs.flatMap fun x => [decideBit x.re, decideBit x.im]

/-- What DETECT leaves once its source is read (45_detection R210). -/
def detectResult (bd : BIdx) (xs : List Cx) (s : State) : State :=
  match scanSamples xs with
  | .error r => raised r s
  | .ok () => completed (commitMem (writeBits s.mem bd (decideBits xs)) s)

/-- DETECT bBD, cCS: hard-decision QPSK detection (45_detection R210). -/
def execDetect (bd : BIdx) (cs : CIdx) (s : State) : Host.Outcome State Fault Refusal :=
  withCfg id s fun cfg => withSamples cs (cfgLen cfg) s fun xs => .next (detectResult bd xs s)

/-- The number of places where two runs of bytes differ (45_detection R215). -/
def mismatches : List Byte → List Byte → Nat
  | a :: as, b :: bs => (if a = b then 0 else 1) + mismatches as bs
  | _, _ => 0

/-- What BERCNT leaves once its sources are read: BB0 is scanned before BB1 (45_detection R215). -/
def bercntResult (original recovered : List Byte) (total : Nat) (s : State) : State :=
  match scanBits original with
  | .error r => raised r (dropBer s)
  | .ok () =>
    match scanBits recovered with
    | .error r => raised r (dropBer s)
    | .ok () =>
      let e := mismatches original recovered
      completed
        (commitBer (BitVec.ofNat 64 e) (BitVec.ofNat 64 total) (pack (fdiv (i2f e) (i2f total))) s)

/-- BERCNT: count the bit errors between BB0 and BB1 (45_detection R215). -/
def execBercnt (s : State) : Host.Outcome State Fault Refusal :=
  withCfg dropBer s fun cfg =>
    withBits 0 (2 * cfgLen cfg) s fun original =>
      withBits 1 (2 * cfgLen cfg) s fun recovered =>
        .next (bercntResult original recovered (2 * cfgLen cfg) s)

end Sys2Proof.Machine
end

