-- ==== Sys2Proof/Machine/Modulation.lean ====
section
/-!
DEFINITION. The modulator MOD and the demodulator DEMOD (43_modulation R160 to R176): per block the wavelet round trip,
or the DFT baseline.
-/

namespace Sys2Proof.Machine

/-- WRT(w, x) = WREC(WDEC(x, w, lv), w) with lv = log2 N (43_modulation R160, R163). -/
def wrt (cfg : Cfg) (x : List Cx) : List Cx := Config.wrec (Config.wdec x cfg.wavelet cfg.level) cfg.wavelet

/-- IDFT of a block: exactly N samples (43_modulation R165). -/
def idft (n : Nat) (x : List Cx) : List Cx := (List.range n).map (Config.idftSample Config.dftNorm x)

/-- DFT of a block: exactly N samples (43_modulation R165). -/
def dft (n : Nat) (x : List Cx) : List Cx := (List.range n).map (Config.dftSample Config.dftNorm x)

/-- The wavelet round trip of block b, aligned to its leading N samples (43_modulation R161); NumericalError(2, b) when
it is shorter (43_modulation R162). -/
def shapeWavelet (cfg : Cfg) (x : List Cx) (b : Nat) : Except Raise (List Cx) :=
  let r := wrt cfg x
  if r.length < cfg.nsub then .error ⟨.numerical, 2#4, b⟩ else .ok (r.take cfg.nsub)

/-- shape_mod(w, x, s) (43_modulation R171). -/
def shapeMod (cfg : Cfg) (x : List Cx) (b : Nat) : Except Raise (List Cx) :=
  match cfg.wavelet with
  | .noWavelet => .ok (idft cfg.nsub x)
  | .haar => shapeWavelet cfg x b
  | .db4 => shapeWavelet cfg x b
  | .sym4 => shapeWavelet cfg x b
  | .rbio22 => shapeWavelet cfg x b
  | .coif1 => shapeWavelet cfg x b

/-- shape_demod(w, x, s) (43_modulation R176). -/
def shapeDemod (cfg : Cfg) (x : List Cx) (b : Nat) : Except Raise (List Cx) :=
  match cfg.wavelet with
  | .noWavelet => .ok (dft cfg.nsub x)
  | .haar => shapeWavelet cfg x b
  | .db4 => shapeWavelet cfg x b
  | .sym4 => shapeWavelet cfg x b
  | .rbio22 => shapeWavelet cfg x b
  | .coif1 => shapeWavelet cfg x b

/-- One block: shape it, then NumericalError(1, b*N + n) at its first output sample that is not finite
(43_modulation R168, R170). -/
def shapeBlock (shape : List Cx → Nat → Except Raise (List Cx)) (n b : Nat) (x : List Cx) :
    Except Raise (List Cx) :=
  match shape x b with
  | .error r => .error r
  | .ok y =>
    match firstNonFinite y (b * n) with
    | some i => .error ⟨.numerical, 1#4, i⟩
    | none => .ok y

/-- `count` blocks of N samples from block number b on, ascending, their outputs concatenated; the first block that
raises ends it (43_modulation R167, R170, 60_exceptions R257). -/
def shapeBlocks (shape : List Cx → Nat → Except Raise (List Cx)) (n : Nat) :
    Nat → Nat → List Cx → Except Raise (List Cx)
  | 0, _, _ => .ok []
  | count + 1, b, xs =>
    match shapeBlock shape n b (xs.take n) with
    | .error r => .error r
    | .ok y =>
      match shapeBlocks shape n count (b + 1) (xs.drop n) with
      | .error r => .error r
      | .ok rest => .ok (y ++ rest)

/-- What MOD and DEMOD leave once the source is read (43_modulation R170): a raise of the scan changes no buffer, a
raise of the compute phase leaves samples 0 to L-1 of CB[CD] unspecified (60_exceptions R254). -/
def shapeResult (shape : List Cx → Nat → Except Raise (List Cx)) (cfg : Cfg) (cd : CIdx) (xs : List Cx)
    (s : State) : State :=
  match scanSamples xs with
  | .error r => raised r s
  | .ok () =>
    match shapeBlocks shape cfg.nsub cfg.nsym 0 xs with
    | .error r => raised r (commitMem (forgetSamples s.mem cd (cfgLen cfg)) s)
    | .ok ys => completed (commitMem (writeSamples s.mem cd ys) s)

/-- MOD cCD, cCS: symbol stream to waveform (43_modulation R170). -/
def execMod (cd cs : CIdx) (s : State) : Host.Outcome State Fault Refusal :=
  withCfg id s fun cfg => withSamples cs (cfgLen cfg) s fun xs => .next (shapeResult (shapeMod cfg) cfg cd xs s)

/-- DEMOD cCD, cCS: waveform to estimated symbol stream (43_modulation R175). -/
def execDemod (cd cs : CIdx) (s : State) : Host.Outcome State Fault Refusal :=
  withCfg id s fun cfg => withSamples cs (cfgLen cfg) s fun xs => .next (shapeResult (shapeDemod cfg) cfg cd xs s)

end Sys2Proof.Machine
end

