-- ==== Sys2Proof/Machine/PaprMeter.lean ====
section
/-!
DEFINITION. The PAPR meter PAPR (46_papr R230 to R237).
-/

namespace Sys2Proof.Machine

/-- p = (re ⊗ re) ⊕ (im ⊗ im), the power of a sample (46_papr R231). -/
def power (x : Cx) : F64 := fadd (fmul (unpack x.re) (unpack x.re)) (fmul (unpack x.im) (unpack x.im))

/-- The powers from sample i on; NumericalError(1, i) at the first that is not finite (46_papr R237). -/
def powersFrom : Nat → List Cx → Except Raise (List F64)
  | _, [] => .ok []
  | i, x :: rest =>
    if isFinite (power x) then
      match powersFrom (i + 1) rest with
      | .error r => .error r
      | .ok ps => .ok (power x :: ps)
    else .error ⟨.numerical, 1#4, i⟩

/-- The exact maximum of the powers; none is below +0 (46_papr R231, R232). -/
def peakOf (ps : List F64) : F64 := ps.foldl fmax fzero

/-- The powers added in ascending index order from +0.0 (46_papr R232). -/
def sumOf (ps : List F64) : F64 := ps.foldl fadd fzero

/-- The ratio clamped to at least 1.0 (46_papr R233). -/
def clampRatio (r : F64) : F64 := if flt r (i2f 1) then i2f 1 else r

/-- 10.0 ⊗ LOG10(ratio) (46_papr R233). -/
def paprDbOf (ratio : F64) : F64 := fmul ften (log10 ratio)

/-- The results of a successful PAPR. -/
structure PaprValues where
  papr : F64
  peak : F64
  mean : F64
  deriving DecidableEq, Repr

/-- The compute phase of PAPR over L samples, its errors in the order of 46_papr R234. -/
def paprOf (xs : List Cx) (len : Nat) : Except Raise PaprValues :=
  match powersFrom 0 xs with
  | .error r => .error r
  | .ok ps =>
    let peak := peakOf ps
    let sum := sumOf ps
    if !isFinite sum then .error ⟨.numerical, 1#4, len⟩
    else
      let mean := fdiv sum (i2f len)
      if isZero mean then .error ⟨.numerical, 3#4, 0⟩
      else
        let ratio := fdiv peak mean
        if !isFinite ratio then .error ⟨.numerical, 1#4, len⟩
        else
          let papr := paprDbOf (clampRatio ratio)
          if !isFinite papr then .error ⟨.numerical, 1#4, len⟩ else .ok ⟨papr, peak, mean⟩

/-- What PAPR leaves once its source is read; every raise clears PAPR_VALID (46_papr R236, R237). -/
def paprResult (xs : List Cx) (len : Nat) (s : State) : State :=
  match scanSamples xs with
  | .error r => raised r (dropPapr s)
  | .ok () =>
    match paprOf xs len with
    | .error r => raised r (dropPapr s)
    | .ok v => completed (commitPapr (pack v.papr) (pack v.peak) (pack v.mean) s)

/-- PAPR cCS: measure the peak-to-average power ratio (46_papr R237). -/
def execPapr (cs : CIdx) (s : State) : Host.Outcome State Fault Refusal :=
  withCfg dropPapr s fun cfg => withSamples cs (cfgLen cfg) s fun xs => .next (paprResult xs (cfgLen cfg) s)

end Sys2Proof.Machine
end

