-- ==== Sys2Proof/Machine/QpskMap.lean ====
section
/-!
DEFINITION. The QPSK mapper QMAP (42_qpsk_map R150 to R152).
-/

namespace Sys2Proof.Machine

/-- i2f(2 * b) ⊖ 1.0, as a pattern (42_qpsk_map R150). -/
def mapBit (b : Byte) : Word := pack (fsub (i2f (2 * b.toNat)) (i2f 1))

/-- The samples of a bit block: bytes 2i and 2i+1 give sample i (42_qpsk_map R150, 00_scope R14). -/
def mapBits : List Byte → List Cx
  | b0 :: b1 :: rest => ⟨mapBit b0, mapBit b1⟩ :: mapBits rest
  | [_] => []
  | [] => []

/-- What QMAP leaves once its source is read (42_qpsk_map R150). -/
def qmapResult (cd : CIdx) (bs : List Byte) (s : State) : State :=
  match scanBits bs with
  | .error r => raised r s
  | .ok () => completed (commitMem (writeSamples s.mem cd (mapBits bs)) s)

/-- QMAP cCD, bBS: map a bit block to a QPSK symbol stream (42_qpsk_map R150). -/
def execQmap (cd : CIdx) (bs : BIdx) (s : State) : Host.Outcome State Fault Refusal :=
  withCfg id s fun cfg => withBits bs (2 * cfgLen cfg) s fun bytes => .next (qmapResult cd bytes s)

end Sys2Proof.Machine
end

