-- ==== Sys2Proof/Machine/Dispatch.lean ====
section
/-!
DEFINITION. One arm per command: the Engine's completion step of a legal word (41_control_commands R142).
-/

namespace Sys2Proof.Machine

def exec (i : Instr) (s : State) : Host.Outcome State Fault Refusal :=
  match i with
  | .nop => Sys2Proof.Machine.execNop s
  | .check => Sys2Proof.Machine.execCheck s
  | .qmap cd bs => Sys2Proof.Machine.execQmap cd bs s
  | .mod cd cs => Sys2Proof.Machine.execMod cd cs s
  | .demod cd cs => Sys2Proof.Machine.execDemod cd cs s
  | .chan cd cs => Sys2Proof.Machine.execChan cd cs s
  | .detect bd cs => Sys2Proof.Machine.execDetect bd cs s
  | .bercnt => Sys2Proof.Machine.execBercnt s
  | .papr cs => Sys2Proof.Machine.execPapr cs s

end Sys2Proof.Machine
end

