-- ==== Sys2Proof/Machine/Engine.lean ====
section
/-!
DEFINITION. The Engine's completion step (60_exceptions R256).
-/

namespace Sys2Proof.Machine

/-- The Engine's completion step: exec of the word in CMD, decoded now (60_exceptions R256, 41_control_commands R142);
an illegal word completes with its error (30_encoding R94). -/
def engineStep (s : State) : Host.Outcome State Fault Refusal :=
  match decode s.cmd with
  | .ok i => exec i s
  | .error k => .next (illegalCommand k s)

end Sys2Proof.Machine
end

