-- ==== Sys2Proof/WellFormed.lean ====
section
/-!
DEFINITION. Which terms stand for something the hardware can be given. A command's operands carry their bounds in
their types (Syntax.lean), so every `Instr` does. A bus transaction is a tuple with bounds of its own
(30_encoding R100), and these checks say so.
-/

namespace Sys2Proof

/-- A transaction's size is 1, 2, 4 or 8 bytes (30_encoding R100). -/
def sizeWf (n : Nat) : Bool := n == 1 || n == 2 || n == 4 || n == 8

/-- A transaction's address lies in the 24-bit address space (30_encoding R100). -/
def addrWf (a : Nat) : Bool := decide (a < Config.addrSpace)

/-- The value written has 8*n bits (40_host_access R112). -/
def dataWf (n : Nat) (v : Word) : Bool := decide (v.toNat < 2 ^ (8 * n))

/-- The transaction is one of 30_encoding R100. -/
def inputWf : Machine.Input → Bool
  | .read a n => addrWf a && sizeWf n
  | .write a n v => addrWf a && sizeWf n && dataWf n v
  | .wait => true
  | .hardReset => true

end Sys2Proof
end

