-- ==== Sys2Proof/Machine/HostAccess.lean ====
section
/-!
DEFINITION. The Host's side: the address map and the admission check (20_memory R62 to R67, 40_host_access R110), the
bus transactions READ and WRITE (R111 to R120), the reset input (70_reset_and_hazards R280) and the Host's step.
-/

namespace Sys2Proof.Machine

/-- The mapped ranges of 20_memory R62, as first address and size: the register file, CB0 to CB3, BB0 and BB1. -/
def mappedRanges : List (Nat × Nat) :=
  [(0x000000, 0x1000), (0x040000, 0x40000), (0x080000, 0x40000), (0x0C0000, 0x40000), (0x100000, 0x40000),
    (0x140000, 0x8000), (0x148000, 0x8000)]

/-- An address inside one of the mapped ranges (20_memory R62). -/
def byteMapped (a : Nat) : Bool := mappedRanges.any fun r => decide (r.1 ≤ a) && decide (a < r.1 + r.2)

/-- Every byte of a transaction is mapped (40_host_access R110). -/
def mapped (a n : Nat) : Bool := (List.range n).all fun k => byteMapped (a + k)

/-- The address lies in the register file (20_memory R62). -/
def inRegisters (a : Nat) : Bool := decide (a ≤ 0x000FFF)

/-- The admission check (40_host_access R110, 20_memory R66, R67). A size the bus does not have is answered as one it
refuses (DESIGN CHOICE, log 11). -/
def admits (a n : Nat) : Bool :=
  sizeWf n && a % n == 0 && decide (a + n ≤ Config.addrSpace) && mapped a n && (!inRegisters a || n == 8)

/-- Where the platform sees a byte of the block (20_memory R71). -/
def platformAddress (a : Nat) : Nat := Config.blockBase + a

/-- One buffer byte as a Host read finds it: a free value while BUSY = 1 or where the written flag is clear, the stored
byte otherwise (40_host_access R111, 70_reset_and_hazards R281, R291, log 4, 16). -/
def hostByte (s : State) (a : Nat) : Byte :=
  if s.status.busy then Config.drawByte s.draws a
  else
    match memRead s.mem a with
    | some b => b
    | none => Config.drawByte s.draws a

/-- The n bytes from address a as a Host read finds them. -/
def hostBytes (s : State) : Nat → Nat → List Byte
  | _, 0 => []
  | a, n + 1 => hostByte s a :: hostBytes s (a + 1) n

/-- The value of a register read; reserved offsets read 0 (40_host_access R111, 10_state R21). -/
def regRead (off : Nat) (s : State) : Word :=
  match regAt off with
  | none => 0#64
  | some r => regValue r s

/-- MemRead(a, n) (40_host_access R111). -/
def busRead (a n : Nat) (s : State) : Response :=
  if admits a n then
    if inRegisters a then .data (regRead a s) else .data (wordOf (hostBytes s a n))
  else .busError

/-- Write at a register offset; reserved offsets ignore it (40_host_access R113). -/
def regWriteAt (off : Nat) (v : Word) (s : State) : State :=
  match regAt off with
  | none => s
  | some r => regWrite r v s

/-- buf_write(a, n, v): refused while BUSY = 1, else n little-endian bytes (40_host_access R120). -/
def bufWrite (a n : Nat) (v : Word) (s : State) : State :=
  unlessBusy s (commitMem (memWriteBytes s.mem a (bytesOf n v)) s)

/-- The state after MemWrite(a, n, v) (40_host_access R112). -/
def busWrite (a n : Nat) (v : Word) (s : State) : State :=
  if admits a n then (if inRegisters a then regWriteAt a v s else bufWrite a n v s) else s

/-- What the bus answers a write (40_host_access R112). -/
def writeResponse (a n : Nat) : Response := if admits a n then .done else .busError

/-- Record what the bus answered. -/
def answer (r : Response) (s : State) : State := { s with responses := r :: s.responses }

/-- The model's bookkeeping at a Host step: one step fewer before the completion of the command in flight, and fresh
free values for the next read while BUSY = 1 (log 2, 4). -/
def hostTick (s : State) : State :=
  { s with patience := s.patience - 1, draws := if s.status.busy then s.draws + 1 else s.draws }

/-- One input takes effect, in one step (20_memory R69). WAIT reads STATUS and stays next while BUSY = 1
(30_encoding R99). -/
def performInput (i : Input) (s : State) : State :=
  match i with
  | .read a n => answer (busRead a n s) s
  | .write a n v => answer (writeResponse a n) (busWrite a n v s)
  | .wait =>
    let t := answer (busRead 0x010 8 s) s
    if s.status.busy then { t with inputs := .wait :: s.inputs } else t
  | .hardReset => hardReset s

/-- The Host's step: the next input takes effect; without one nothing changes (60_exceptions R270). -/
def hostStep (s : State) : State :=
  match s.inputs with
  | [] => s
  | i :: rest => performInput i (hostTick { s with inputs := rest })

/-- The completion step is next: a command is in flight, and the Host steps that were to come before it are taken or
there is none left (60_exceptions R256, 70_reset_and_hazards R295, log 2). -/
def engineNext (s : State) : Bool := s.status.busy && (s.patience == 0 || s.inputs.isEmpty)

end Sys2Proof.Machine
end

