-- ==== Sys2Proof/Machine/Step.lean ====
section
/-!
DEFINITION. One step of the machine: the Engine's completion step (60_exceptions R256) or the next step of the Host
(00_scope R15), as the state says which is next.
-/

namespace Sys2Proof.Machine

/-- One step: a single total order of Host steps and completions (20_memory R73). -/
def step (s : State) : Host.Outcome State Fault Refusal :=
  if engineNext s then engineStep s else .next (hostStep s)

/-- The state with a command word accepted in CMD, as its issue leaves it (40_host_access R116), and its completion
step next. -/
def State.withFetchWord (s : State) (nbits w : Nat) : State :=
  { s with
    cmd := BitVec.ofNat 64 (w % 2 ^ nbits)
    status := { s.status with busy := true, done := false, err := .noError, detail := 0#4 }
    errIndex := 0#64
    heldErrIndex := s.errIndex
    patience := 0 }

end Sys2Proof.Machine
end

