-- ==== Sys2Proof/Safety.lean ====
section
/-!
DEFINITION. The terms claims about the machine use: launch premises and the end of a run (70_reset_and_hazards R296,
R298), the named properties of the OPEN parameters (00_scope R10, 43_modulation R166), which no definition of the
machine assumes, what commands find in the buffers, the frames of the commands, and the invariants.
-/

namespace Sys2Proof.Safety

open Sys2Proof.Machine

/-! ### Runs -/

/-- clean_reset: the registers of a hardware reset with every written flag clear, whatever the Host is to do
(70_reset_and_hazards R298). -/
def cleanReset (s : State) : Prop :=
  s = { State.reset with inputs := s.inputs, responses := s.responses, draws := s.draws }

/-- idle: BUSY = 0, HAZ = 0 and nothing recorded (70_reset_and_hazards R298). -/
def idle (s : State) : Prop := s.status.busy = false ∧ s.status.haz = false ∧ s.refusalMark = false

/-- loaded(range): the bytes from address a on are written and hold these values (70_reset_and_hazards R298). -/
def loaded (s : State) (a : Nat) (bytes : List Byte) : Prop := memReadBytes s.mem a bytes.length = some bytes

/-- A run has ended: the Host has performed its last transaction, BUSY = 0 and nothing is recorded
(70_reset_and_hazards R296). A model fault ends a run as an outcome of the step, not as a state. -/
def runEnded (s : State) : Prop := s.inputs = [] ∧ s.status.busy = false ∧ s.refusalMark = false

/-- What a run that ended shows: the registers, and the buffer bytes whose written flags are set
(70_reset_and_hazards R296). -/
def observe (s : State) : List Word × Mem := (regList.map fun r => regValue r s, s.mem)

/-- The step of a state is safe: no model fault and no refusal. -/
def safeStep (s : State) : Prop := ∃ t, step s = .next t

/-! ### Values of binary64 numbers -/

/-- The exact value of a finite number (00_scope R8). -/
def f64Value : F64 → Option ℚ
  | .fin neg m e => some ((if neg then -1 else 1) * m * 2 ^ e / 2 ^ 1074)
  | .inf _ => none
  | .nan => none

/-- A number as unpacking and rounding leave it: at most 53 significant bits, the exponent in range, and normalized
unless it is subnormal. -/
def f64Canonical : F64 → Prop
  | .fin _ m e => m < 2 ^ 53 ∧ e ≤ 2045 ∧ (2 ^ 52 ≤ m ∨ e = 0)
  | .inf _ => True
  | .nan => True

/-- The magnitude m * 2^(e - 1074) of a finite number, as a real. -/
noncomputable def magnitude (m e : Nat) : ℝ := m * 2 ^ e / 2 ^ 1074

/-- The value of a finite number, as a real. -/
noncomputable def signedValue (neg : Bool) (m e : Nat) : ℝ := (if neg then -1 else 1) * magnitude m e

/-- v is the binary64 rounding of the number of magnitude `a` and sign `neg`: to nearest, ties to the even significand,
and infinite from half a unit above the largest finite number on, 2^1024 - 2^970 (00_scope R8). -/
def IsRounded (neg : Bool) (a : ℝ) (v : F64) : Prop :=
  f64Canonical v ∧ (2 ^ 1024 - 2 ^ 970 ≤ a → v = .inf neg) ∧
    (a < 2 ^ 1024 - 2 ^ 970 → ∃ m e, v = .fin neg m e ∧ ∀ m' e', f64Canonical (.fin neg m' e') →
      |magnitude m e - a| ≤ |magnitude m' e' - a| ∧
        (|magnitude m e - a| = |magnitude m' e' - a| → magnitude m e ≠ magnitude m' e' → m % 2 = 0))

/-- The exact value of a pattern, 0 where it has none. -/
def patternValue (w : Word) : ℚ := (f64Value (unpack w)).getD 0

/-- |x|^2 of a finite sample, exactly. -/
def normSq (x : Cx) : ℚ := patternValue x.re ^ 2 + patternValue x.im ^ 2

/-- |x - y|^2 of two finite samples, exactly. -/
def distSq (x y : Cx) : ℚ :=
  (patternValue x.re - patternValue y.re) ^ 2 + (patternValue x.im - patternValue y.im) ^ 2

/-! ### Named properties of the OPEN parameters (00_scope R10): premises only -/

/-- The blocks WT_CLOSE and WT_ID speak of: a real wavelet, 2^k finite samples, at most MAX_SAMPLES (00_scope R10). -/
def WtBlock (w : Wavelet) (k : Nat) (x : List Cx) : Prop :=
  w ≠ .noWavelet ∧ 2 ^ k ≤ Config.maxSamples ∧ x.length = 2 ^ k ∧ ∀ y ∈ x, cxFinite y = true

/-- WT_CLOSE(tol) of a wavelet library (00_scope R10), squared: each of the leading N samples is finite and within
tol times the largest magnitude of the block. -/
def WtClose (tol : ℚ) {C : Type} (dec : List Cx → Wavelet → Nat → C) (recon : C → Wavelet → List Cx) : Prop :=
  ∀ w k x, WtBlock w k x →
    2 ^ k ≤ (recon (dec x w k) w).length ∧
    ∀ n < 2 ^ k, ∃ r y, (recon (dec x w k) w)[n]? = some r ∧ x[n]? = some y ∧ cxFinite r = true ∧
      ∃ z ∈ x, distSq r y ≤ tol ^ 2 * normSq z

/-- WT_ID of a wavelet library: the leading N samples are the block itself (00_scope R10). -/
def WtId {C : Type} (dec : List Cx → Wavelet → Nat → C) (recon : C → Wavelet → List Cx) : Prop :=
  ∀ w k x, WtBlock w k x → ∀ n < 2 ^ k, (recon (dec x w k) w)[n]? = x[n]?

/-- The sample is finite and stands for this complex number. -/
def IsCxValue (x : Cx) (z : ℂ) : Prop :=
  cxFinite x = true ∧ z.re = (patternValue x.re : ℝ) ∧ z.im = (patternValue x.im : ℝ)

/-- c_inv of a normalization at N samples (43_modulation R166). -/
def IsInverseScale (norm : DftNorm) (n : Nat) (c : ℝ) : Prop :=
  match norm with
  | .backward => c = 1 / n
  | .ortho => c = 1 / Real.sqrt n

/-- c_fwd of a normalization at N samples (43_modulation R166). -/
def IsForwardScale (norm : DftNorm) (n : Nat) (c : ℝ) : Prop :=
  match norm with
  | .backward => c = 1
  | .ortho => c = 1 / Real.sqrt n

/-- z is IDFT_exact(X)[n] (43_modulation R166). -/
def IsIdftExact (norm : DftNorm) (x : List Cx) (n : Nat) (z : ℂ) : Prop :=
  ∃ (c : ℝ) (v : Nat → ℂ), IsInverseScale norm x.length c ∧ (∀ k y, x[k]? = some y → IsCxValue y (v k)) ∧
    z = c * ∑ k ∈ Finset.range x.length, v k * Complex.exp (2 * Real.pi * Complex.I * k * n / x.length)

/-- z is DFT_exact(x)[k] (43_modulation R166). -/
def IsDftExact (norm : DftNorm) (x : List Cx) (k : Nat) (z : ℂ) : Prop :=
  ∃ (c : ℝ) (v : Nat → ℂ), IsForwardScale norm x.length c ∧ (∀ n y, x[n]? = some y → IsCxValue y (v n)) ∧
    z = c * ∑ n ∈ Finset.range x.length, v n * Complex.exp (-(2 * Real.pi * Complex.I * k * n / x.length))

/-- The blocks DFT_CLOSE and DFT_EXACT_SMALL speak of: 2^k finite samples, at most MAX_SAMPLES. That these are the
lengths and samples meant, as in WT_CLOSE, is DEDUCED, log 19. -/
def DftBlock (k : Nat) (x : List Cx) : Prop :=
  2 ^ k ≤ Config.maxSamples ∧ x.length = 2 ^ k ∧ ∀ y ∈ x, cxFinite y = true

/-- Every sample of a block has magnitude at most `bound`. -/
def BlockBound (bound : ℝ) (x : List Cx) : Prop := ∀ y ∈ x, ∀ u, IsCxValue y u → ‖u‖ ≤ bound

/-- DFT_CLOSE(tol) of a computed transform against the exact one it approximates (00_scope R10): every sample of the
result is finite and within tol of the exact value. The spec does not say whether tol is absolute or relative to the
block's largest magnitude. DESIGN CHOICE, log 19: it is absolute, over the blocks whose samples have magnitude at most
`bound`; for every bound it is the reading without one. -/
def DftClose (tol bound : ℝ) (norm : DftNorm) (f : DftNorm → List Cx → Nat → Cx)
    (exact : DftNorm → List Cx → Nat → ℂ → Prop) : Prop :=
  ∀ k x, DftBlock k x → BlockBound bound x → ∀ n < 2 ^ k, ∀ z, exact norm x n z →
    ∃ v, IsCxValue (f norm x n) v ∧ ‖v - z‖ ≤ tol

/-- DFT_EXACT_SMALL of a computed transform: for N at most 4, exact wherever the exact result is representable, which
is where some finite sample stands for it (00_scope R10). -/
def DftExactSmall (norm : DftNorm) (f : DftNorm → List Cx → Nat → Cx)
    (exact : DftNorm → List Cx → Nat → ℂ → Prop) : Prop :=
  ∀ k x, k ≤ 2 → DftBlock k x → ∀ n < 2 ^ k, ∀ z y, exact norm x n z → IsCxValue y z → IsCxValue (f norm x n) z

/-- POW10_EXACT of a pow10 function (00_scope R10). -/
def Pow10Exact (f : Word → Word) : Prop := ∀ k ≤ 22, f (pack (i2f k)) = pack (i2f (10 ^ k))

/-- LOG10_EXACT1 of a log10 function: log10(1) is +0 (00_scope R10). -/
def Log10Exact1 (f : Word → Word) : Prop := f (pack (i2f 1)) = 0#64

/-- A log10 function is monotone on finite numbers (46_papr R235). -/
def Log10Monotone (f : Word → Word) : Prop :=
  ∀ a b, isFinite (unpack a) = true → isFinite (unpack b) = true → flt (unpack b) (unpack a) = false →
    flt (unpack (f b)) (unpack (f a)) = false

/-! ### What commands find -/

/-- The configuration is one the check accepts (41_control_commands R143): N is a positive power of two, the code
names a wavelet, S is at least 1 and the stream fits. -/
def CfgValid (s : State) : Prop :=
  (∃ k, s.cfgNsub.toNat = 2 ^ k) ∧ s.cfgWavelet.toNat ≤ 5 ∧ 1 ≤ s.cfgNsym.toNat ∧
    s.cfgNsub.toNat * s.cfgNsym.toNat ≤ 16384

/-- Sample i of CB c, where all its bytes are written. -/
def sampleAt (s : State) (c : CIdx) (i : Nat) : Option Cx := memReadCx s.mem (0x040000 * (c.val + 1) + 16 * i)

/-- Byte j of BB b, where it is written. -/
def bitAt (s : State) (b : BIdx) (j : Nat) : Option Byte := memRead s.mem (0x140000 + 0x8000 * b.val + j)

/-- Samples 0 to L-1 of CB c are written and hold x. -/
def Holds (s : State) (c : CIdx) (x : Nat → Cx) : Prop := ∀ i < streamLen s, sampleAt s c i = some (x i)

/-- Bytes 0 to 2L-1 of BB b are written and hold v. -/
def HoldsBits (s : State) (b : BIdx) (v : Nat → Byte) : Prop := ∀ j < 2 * streamLen s, bitAt s b j = some (v j)

/-- Samples 0 to L-1 of x are finite. -/
def AllFinite (s : State) (x : Nat → Cx) : Prop := ∀ i < streamLen s, cxFinite (x i) = true

/-- Block b of a stream: samples b*N to b*N + N-1 (43_modulation R167). -/
def blockOf (s : State) (x : Nat → Cx) (b : Nat) : List Cx :=
  (List.range s.cfgNsub.toNat).map fun n => x (b * s.cfgNsub.toNat + n)

/-- The wavelet round trip of block b, before its alignment (43_modulation R160). -/
def roundTrip (s : State) (x : Nat → Cx) (b : Nat) : List Cx :=
  Config.wrec (Config.wdec (blockOf s x b) (waveletOf s.cfgWavelet.toNat) s.cfgNsub.toNat.log2)
    (waveletOf s.cfgWavelet.toNat)

/-- A round trip a command accepts: at least N samples, the leading N finite (43_modulation R162, R168). -/
def GoodTrip (n : Nat) (r : List Cx) : Prop := n ≤ r.length ∧ ∀ k < n, ∀ y, r[k]? = some y → cxFinite y = true

/-- The constellation point of two bits, as patterns (42_qpsk_map R152). -/
def symbolWord (b : Byte) : Word := if b = 1#8 then 0x3FF0000000000000#64 else 0xBFF0000000000000#64

/-- One of the four constellation points (42_qpsk_map R152). -/
def IsSymbol (x : Cx) : Prop := ∃ b0 b1, x = ⟨symbolWord b0, symbolWord b1⟩

/-! ### Frames -/

/-- The completion writes: BUSY 0, DONE 1, ERR, ERR_DETAIL and ERR_INDEX; HAZ stays (60_exceptions R254, R255). -/
def Finished (k : ErrKind) (d : BitVec 4) (n : Nat) (s t : State) : Prop :=
  t.status.busy = false ∧ t.status.done = true ∧ t.status.haz = s.status.haz ∧ t.status.err = k ∧
    t.status.detail = d ∧ t.errIndex = BitVec.ofNat 64 n

/-- CTRL, CMD, the configuration registers, SNR_DB and NOISE_SEED keep their values, and so do what ERR_INDEX held before
the command, the refusal mark and the outside world's part of the state. No command writes any of them. -/
def SameSetup (s t : State) : Prop :=
  t.ie = s.ie ∧ t.cmd = s.cmd ∧ t.cfgNsub = s.cfgNsub ∧ t.cfgNsym = s.cfgNsym ∧ t.cfgWavelet = s.cfgWavelet ∧
    t.snrDb = s.snrDb ∧ t.noiseSeed = s.noiseSeed ∧ t.heldErrIndex = s.heldErrIndex ∧ t.refusalMark = s.refusalMark ∧
    t.inputs = s.inputs ∧ t.responses = s.responses

/-- NOISE_VAR keeps its value. -/
def SameVar (s t : State) : Prop := t.noiseVar = s.noiseVar

/-- PAPR_DB, PEAK_PWR and MEAN_PWR keep their values. -/
def SamePapr (s t : State) : Prop := t.paprDb = s.paprDb ∧ t.peakPwr = s.peakPwr ∧ t.meanPwr = s.meanPwr

/-- ERR_BITS, TOTAL_BITS and BER keep their values. -/
def SameBer (s t : State) : Prop := t.errBits = s.errBits ∧ t.totalBits = s.totalBits ∧ t.ber = s.ber

/-- NOISE_VAR and VAR_VALID keep their values. -/
def KeepVar (s t : State) : Prop := SameVar s t ∧ t.status.varValid = s.status.varValid

/-- PAPR_DB, PEAK_PWR, MEAN_PWR and PAPR_VALID keep their values. -/
def KeepPapr (s t : State) : Prop := SamePapr s t ∧ t.status.paprValid = s.status.paprValid

/-- ERR_BITS, TOTAL_BITS, BER and BER_VALID keep their values. -/
def KeepBer (s t : State) : Prop := SameBer s t ∧ t.status.berValid = s.status.berValid

/-- NOISE_CTR keeps its value. -/
def KeepCtr (s t : State) : Prop := t.noiseCtr = s.noiseCtr

/-- Every byte of the buffers reads as before, its written flag with it. -/
def KeepMem (s t : State) : Prop := ∀ a, memRead t.mem a = memRead s.mem a

/-- Every byte outside the n bytes from address `lo` reads as before, its written flag with it. -/
def KeepMemOutside (lo n : Nat) (s t : State) : Prop :=
  ∀ a, a < lo ∨ lo + n ≤ a → memRead t.mem a = memRead s.mem a

/-- The n bytes from address `lo` have no written flag: their contents are unspecified. -/
def Unspecified (lo n : Nat) (t : State) : Prop := ∀ a, lo ≤ a → a < lo + n → memRead t.mem a = none

/-- Everything but the completion fields, the command's own results, NOISE_CTR and the buffers. -/
def KeepResults (s t : State) : Prop := SameSetup s t ∧ KeepVar s t ∧ KeepPapr s t ∧ KeepBer s t

/-- A raise that leaves every buffer, result register and VALID bit as they were (60_exceptions R254). -/
def RaisesOnly (k : ErrKind) (d : BitVec 4) (n : Nat) (s t : State) : Prop :=
  Finished k d n s t ∧ KeepResults s t ∧ KeepCtr s t ∧ KeepMem s t

/-- The first address of an instruction's destination, where it writes a buffer (20_memory R62). -/
def destBase : Instr → Nat
  | .nop => 0
  | .check => 0
  | .qmap cd _ => cbBase cd
  | .mod cd _ => cbBase cd
  | .demod cd _ => cbBase cd
  | .chan cd _ => cbBase cd
  | .detect bd _ => bbBase bd
  | .bercnt => 0
  | .papr _ => 0

/-- How many bytes an instruction's destination has: 16L for the commands that write a complex buffer, 2L for
DETECT, 0 for the others (10_state R40, R41). -/
def destSize (s : State) : Instr → Nat
  | .nop => 0
  | .check => 0
  | .qmap _ _ => 16 * streamLen s
  | .mod _ _ => 16 * streamLen s
  | .demod _ _ => 16 * streamLen s
  | .chan _ _ => 16 * streamLen s
  | .detect _ _ => 2 * streamLen s
  | .bercnt => 0
  | .papr _ => 0

/-- The errors a legal command can complete with (60_exceptions R258), and success. -/
def canReport : Instr → ErrKind → BitVec 4 → Bool
  | _, .noError, d => d == 0#4
  | .nop, .configuration, _ => false
  | _, .configuration, d => detailLegal .configuration d
  | .check, .parameterRange, d => d == 1#4
  | .chan _ _, .parameterRange, d => d == 1#4
  | .qmap _ _, .bitValue, d => d == 1#4
  | .bercnt, .bitValue, d => d == 1#4
  | .mod _ _, .numerical, d => d == 4#4 || d == 2#4 || d == 1#4
  | .demod _ _, .numerical, d => d == 4#4 || d == 2#4 || d == 1#4
  | .chan _ _, .numerical, d => d == 4#4 || d == 1#4
  | .detect _ _, .numerical, d => d == 4#4
  | .papr _, .numerical, d => d == 4#4 || d == 1#4 || d == 3#4
  | _, _, _ => false

/-- The noise variance of 44_channel R191, before its range test. -/
def snrVariance (s : State) : F64 :=
  fdiv (i2f s.cfgNsub.toNat) (fmul (i2f 2) (pow10 (fdiv (unpack s.snrDb) (i2f 10))))

/-- The range test of 44_channel R191: finite and above 0. -/
def VarianceOk (s : State) : Prop := isFinite (snrVariance s) = true ∧ flt fzero (snrVariance s) = true

/-- Every byte of an instruction's source range has its written flag set (70_reset_and_hazards R281). -/
def SourceWritten (s : State) : Instr → Prop
  | .nop => True
  | .check => True
  | .qmap _ bs => ∀ j < 2 * streamLen s, memRead s.mem (bbBase bs + j) ≠ none
  | .mod _ cs => ∀ j < 16 * streamLen s, memRead s.mem (cbBase cs + j) ≠ none
  | .demod _ cs => ∀ j < 16 * streamLen s, memRead s.mem (cbBase cs + j) ≠ none
  | .chan _ cs => ∀ j < 16 * streamLen s, memRead s.mem (cbBase cs + j) ≠ none
  | .detect _ cs => ∀ j < 16 * streamLen s, memRead s.mem (cbBase cs + j) ≠ none
  | .bercnt => ∀ b : BIdx, ∀ j < 2 * streamLen s, memRead s.mem (bbBase b + j) ≠ none
  | .papr cs => ∀ j < 16 * streamLen s, memRead s.mem (cbBase cs + j) ≠ none

/-- The checks before the source scan pass: the configuration, and for CHAN the noise variance (60_exceptions R257). -/
def ReachesSource (s : State) : Instr → Prop
  | .chan _ _ => CfgValid s ∧ VarianceOk s
  | .nop => True
  | .check => CfgValid s
  | .qmap _ _ => CfgValid s
  | .mod _ _ => CfgValid s
  | .demod _ _ => CfgValid s
  | .detect _ _ => CfgValid s
  | .bercnt => CfgValid s
  | .papr _ => CfgValid s

/-! ### Invariants -/

/-- The buffer memory has its canonical form and lists buffer addresses only (20_memory R62). -/
def MemInv (s : State) : Prop := memWf s.mem = true ∧ ∀ c ∈ s.mem, 0x040000 ≤ c.1 ∧ c.1 < 0x150000

/-- The error report is one the spec has: the detail belongs to the kind (60_exceptions R251, 93 U7), success has
ERR_INDEX 0 (R255), and while a command is in flight DONE is 0 and nothing is reported (40_host_access R116), with
ERR_INDEX 0 as the issue set it. -/
def StatusInv (s : State) : Prop :=
  detailLegal s.status.err s.status.detail = true ∧ (s.status.err = .noError → s.errIndex = 0#64) ∧
    (s.status.busy = true → s.status.done = false ∧ s.status.err = .noError)

/-- The shape of every state: `MemInv`, `StatusInv` and a clear refusal mark (70_reset_and_hazards R297). -/
def ShapeInv (s : State) : Prop := MemInv s ∧ StatusInv s ∧ s.refusalMark = false

/-- A VALID bit that is 1 says that its registers hold the result of a successful command (10_state R24): a finite
variance above 0; finite PAPR values, with a mean that is not 0 and PAPR_DB the value 46_papr R233 makes of the other
two; counts in range and their quotient. -/
def ValidInv (s : State) : Prop :=
  (s.status.varValid = true → isFinite (unpack s.noiseVar) = true ∧ flt fzero (unpack s.noiseVar) = true) ∧
  (s.status.paprValid = true →
    isFinite (unpack s.paprDb) = true ∧ isFinite (unpack s.peakPwr) = true ∧ isFinite (unpack s.meanPwr) = true ∧
      isZero (unpack s.meanPwr) = false ∧
      s.paprDb = pack (fmul (i2f 10) (log10 (clampRatio (fdiv (unpack s.peakPwr) (unpack s.meanPwr)))))) ∧
  (s.status.berValid = true →
    s.errBits.toNat ≤ s.totalBits.toNat ∧ 2 ≤ s.totalBits.toNat ∧ s.totalBits.toNat ≤ 32768 ∧
      s.ber = pack (fdiv (i2f s.errBits.toNat) (i2f s.totalBits.toNat)))

end Sys2Proof.Safety
end

