-- ==== Sys2Proof/Certificates/Slice0/Obligations.lean ====
section
/-!
DEFINITION. The statements for the provers. Each says which rule of spec/ it formalises; `Finished`, `Keep…` and the
other terms are those of Safety.lean.
-/

open Sys2Proof Sys2Proof.Machine Sys2Proof.Safety

/-! ### Encoding (30_encoding) -/

/-- Every command decodes from its own word, with every operand at every value (30_encoding R97, R98). -/
def Obligations.DecodeOfEncodeIsTheCommand : Prop := ∀ i : Instr, decode (encode i) = .ok i

/-- A word is legal only as the encoding of the command it decodes to: no legal word has a second spelling, and no bit
outside the used fields is ignored (30_encoding R94, R97). -/
def Obligations.LegalWordsAreTheEncodings : Prop := ∀ (w : Word) (i : Instr), decode w = .ok i → w = encode i

/-- Words of 30_encoding R98 and all those of the vectors ENC-1 to ENC-17, written out. -/
def Obligations.WordsOfTheSpecDecode : Prop :=
  decode 0x0000000000000000#64 = .ok .nop ∧ decode 0x0000000000000001#64 = .ok .check ∧
  decode 0x0000000000000420#64 = .ok (.mod 1 0) ∧ decode 0x0000000000000930#64 = .ok (.chan 2 1) ∧
  decode 0x0000000000001340#64 = .ok (.detect 1 3) ∧ decode 0x0000000000001C10#64 = .ok (.qmap 3 1) ∧
  decode 0x0000000000000E21#64 = .ok (.demod 3 2) ∧ decode 0x0000000000000350#64 = .ok (.papr 3) ∧
  decode 0x0000000000000041#64 = .ok .bercnt ∧ decode 0x0000000000000002#64 = .error .unknownOpcode ∧
  decode 0x0000000000002000#64 = .error .reservedField ∧ decode 0x8000000000000020#64 = .error .reservedField ∧
  decode 0x0000000000001520#64 = .error .reservedField ∧ decode 0x0000000000002002#64 = .error .unknownOpcode ∧
  decode 0x00000000000000FF#64 = .error .unknownOpcode ∧ decode 0x0000000000000110#64 = .error .reservedField ∧
  decode 0x0000000000000450#64 = .error .reservedField ∧ decode 0x0000000000000C40#64 = .error .reservedField ∧
  decode 0x0000000000000141#64 = .error .reservedField

/-- No word matches two rows of the table (30_encoding R93). -/
def Obligations.NoWordMatchesTwoRows : Prop :=
  ∀ (w : Word) (r₁ r₂ : OpRow), r₁ ∈ opRows → r₂ ∈ opRows → w &&& r₁.mask = r₁.value → w &&& r₂.mask = r₂.value →
    r₁.mnemonic = r₂.mnemonic

/-- An illegal word is stored in CMD and sets BUSY like any other, and its completion step reports IllegalCommand:
detail 1 when its opcode is none of the nine, detail 2 when its opcode is known and it is no command's word. Nothing
else changes, whatever the configuration (30_encoding R94, R95, 60_exceptions R254). -/
def Obligations.IllegalWordsCompleteWithTheError : Prop :=
  (∀ (s : State) (w : Word), s.status.busy = false →
    (regWrite .cmd w s).cmd = w ∧ (regWrite .cmd w s).status.busy = true) ∧
  ∀ s : State, s.status.busy = true → (s.patience = 0 ∨ s.inputs = []) →
    (opcOf s.cmd ∉ [0x00#8, 0x01#8, 0x10#8, 0x20#8, 0x21#8, 0x30#8, 0x40#8, 0x41#8, 0x50#8] →
      ∃ t, step s = .next t ∧ RaisesOnly .illegalCommand 1#4 0 s t) ∧
    (opcOf s.cmd ∈ [0x00#8, 0x01#8, 0x10#8, 0x20#8, 0x21#8, 0x30#8, 0x40#8, 0x41#8, 0x50#8] →
      (∀ i, encode i ≠ s.cmd) → ∃ t, step s = .next t ∧ RaisesOnly .illegalCommand 2#4 0 s t)

/-! ### The step (60_exceptions, 70_reset_and_hazards) -/

/-- When the word in CMD decodes to a command and the Engine is next, the step is that command's `exec`, on this very
state (60_exceptions R256). -/
def Obligations.StepRunsTheDecodedCommand : Prop :=
  ∀ (s : State) (i : Instr), s.status.busy = true → (s.patience = 0 ∨ s.inputs = []) → decode s.cmd = .ok i →
    step s = exec i s

/-- When the Engine is not next, the step is the Host's, the next input taking effect after the model's bookkeeping, by
its kind: a bus write leaves the state of `busWrite` and its answer, a bus read adds the data of `busRead` to the
answers and changes nothing else, WAIT adds STATUS to the answers and stays next while BUSY = 1, and a pulse of the
reset input resets. The answers are newest first. With no input and BUSY = 0 nothing changes (00_scope R15, 20_memory
R69, 30_encoding R99, 60_exceptions R270; the agent, the answers and the bookkeeping are the model's, log 1, 2, 3, 4,
13). -/
def Obligations.OtherwiseTheHostMoves : Prop :=
  (∀ (s : State) (i : Input) (rest : List Input), s.inputs = i :: rest → (s.status.busy = false ∨ s.patience ≠ 0) →
    let u : State :=
      { s with
        inputs := rest
        patience := s.patience - 1
        draws := if s.status.busy then s.draws + 1 else s.draws }
    (∀ a n v, i = .write a n v →
      step s = .next { busWrite a n v u with responses := writeResponse a n :: s.responses }) ∧
    (∀ a n, i = .read a n → step s = .next { u with responses := busRead a n u :: s.responses }) ∧
    (i = .wait → step s = .next { u with
      inputs := if s.status.busy then .wait :: rest else rest
      responses := .data (statusWord s.status) :: s.responses }) ∧
    (i = .hardReset → step s = .next (performInput .hardReset u))) ∧
  ∀ s : State, s.inputs = [] → s.status.busy = false → step s = .next s

/-- A command in flight is completed or abandoned after finitely many Host steps: within `patience` steps of the Host
the completion step is next, or BUSY is 0 (60_exceptions R256, 70_reset_and_hazards R295; that the number is held in
the state is the model's choice, log 2). -/
def Obligations.CompletionComesWithinThePatience : Prop :=
  ∀ s : State, s.status.busy = true → ∃ k ≤ s.patience, ∃ u : State,
    Host.Core.run Sys2Proof.core k s = .next u ∧ (engineNext u = true ∨ u.status.busy = false)

/-- Every completion, of every command, leaves BUSY 0 and DONE 1 with an error kind and detail of the table; success
reports ERR = ERR_DETAIL = ERR_INDEX = 0; HAZ, CTRL, CMD, the configuration and NOISE_SEED keep their values
(60_exceptions R251, R255, R256). -/
def Obligations.EveryCompletionEndsTheCommand : Prop :=
  ∀ (i : Instr) (s t : State), exec i s = .next t →
    t.status.busy = false ∧ t.status.done = true ∧ detailLegal t.status.err t.status.detail = true ∧
      (t.status.err = .noError → t.status.detail = 0#4 ∧ t.errIndex = 0#64) ∧ t.status.haz = s.status.haz ∧
      SameSetup s t

/-! ### Control commands (41_control_commands) -/

/-- NOP: its word is 0; it completes in every state without checking the configuration and changes no buffer, result
register or VALID bit; a NOP opcode with any bit of 63:8 set completes with IllegalCommand(2) and nothing else
(41_control_commands R140). -/
def Obligations.NopCompletes : Prop :=
  encode .nop = 0#64 ∧
  (∀ s : State, s.status.busy = true → (s.patience = 0 ∨ s.inputs = []) → opcOf s.cmd = 0x00#8 → s.cmd ≠ 0#64 →
    ∃ t, step s = .next t ∧ RaisesOnly .illegalCommand 2#4 0 s t) ∧
  ∀ s : State, ∃ t, exec .nop s = .next t ∧ Finished .noError 0#4 0 s t ∧ KeepResults s t ∧ KeepCtr s t ∧ KeepMem s t

/-- The configuration check of every command but NOP, in its order, the product exact; each failure raises
ConfigurationError with its detail and index 0, and no buffer, result register or counter changes; a valid
configuration raises none of them (41_control_commands R143). -/
def Obligations.ConfigurationErrors : Prop :=
  ∀ (s : State) (i : Instr), i ≠ .nop →
    let Raises (d : BitVec 4) : Prop :=
      ∃ t, exec i s = .next t ∧ Finished .configuration d 0 s t ∧ SameSetup s t ∧ SameVar s t ∧ SamePapr s t ∧
        SameBer s t ∧ KeepCtr s t ∧ KeepMem s t
    ((∀ k, s.cfgNsub.toNat ≠ 2 ^ k) → Raises 1#4) ∧
    ((∃ k, s.cfgNsub.toNat = 2 ^ k) → 5 < s.cfgWavelet.toNat → Raises 2#4) ∧
    ((∃ k, s.cfgNsub.toNat = 2 ^ k) → s.cfgWavelet.toNat ≤ 5 → s.cfgNsym.toNat = 0 → Raises 3#4) ∧
    ((∃ k, s.cfgNsub.toNat = 2 ^ k) → s.cfgWavelet.toNat ≤ 5 → s.cfgNsym.toNat ≠ 0 →
      16384 < s.cfgNsub.toNat * s.cfgNsym.toNat → Raises 4#4) ∧
    (CfgValid s → ∀ t, exec i s = .next t → t.status.err ≠ .configuration)

/-- CHECK under a valid configuration: NOISE_VAR becomes N / (2 * 10^(SNR_dB / 10)), evaluated in that binary64 order,
and VAR_VALID 1, when that is finite and above 0; else ParameterRangeError(1, 0), VAR_VALID 0 and NOISE_VAR kept. No
buffer and no draw is touched (44_channel R191, 41_control_commands R141). -/
def Obligations.CheckComputesTheVariance : Prop :=
  ∀ s : State, CfgValid s →
    let var := fdiv (i2f s.cfgNsub.toNat) (fmul (i2f 2) (pow10 (fdiv (unpack s.snrDb) (i2f 10))))
    ∃ t, exec .check s = .next t ∧ SameSetup s t ∧ KeepPapr s t ∧ KeepBer s t ∧ KeepCtr s t ∧ KeepMem s t ∧
      (isFinite var = true ∧ flt fzero var = true →
        Finished .noError 0#4 0 s t ∧ t.noiseVar = pack var ∧ t.status.varValid = true) ∧
      (¬ (isFinite var = true ∧ flt fzero var = true) →
        Finished .parameterRange 1#4 0 s t ∧ SameVar s t ∧ t.status.varValid = false)

/-- The reset configuration is valid, and given POW10_EXACT a CHECK right after reset succeeds with NOISE_VAR = 32.0
(70_reset_and_hazards R284). -/
def Obligations.CheckAfterReset : Prop :=
  CfgValid State.reset ∧
  (Pow10Exact Config.pow10 → ∃ t, exec .check State.reset = .next t ∧ Finished .noError 0#4 0 State.reset t ∧
    t.noiseVar = 0x4040000000000000#64 ∧ t.status.varValid = true)

/-- A NaN or an infinite SNR_DB raises ParameterRangeError in CHECK and, before its source is read, in CHAN
(44_channel R192; what POW10 gives at those values is read from that rule, log 7). -/
def Obligations.NonFiniteSnrIsOutOfRange : Prop :=
  ∀ (s : State) (cd cs : CIdx), CfgValid s → isFinite (unpack s.snrDb) = false →
    (∃ t, exec .check s = .next t ∧ Finished .parameterRange 1#4 0 s t ∧ t.status.varValid = false ∧ SameVar s t) ∧
    ∃ t, exec (.chan cd cs) s = .next t ∧ Finished .parameterRange 1#4 0 s t ∧ t.status.varValid = false ∧
      SameVar s t ∧ KeepCtr s t ∧ KeepMem s t

/-! ### QPSK mapper (42_qpsk_map) -/

/-- QMAP under a valid configuration, its source bytes all 0 or 1: sample i of CB[CD] becomes the constellation point
of bytes 2i and 2i+1; nothing outside the destination samples changes (42_qpsk_map R150, R152). -/
def Obligations.QmapMapsTheBits : Prop :=
  ∀ (s : State) (cd : CIdx) (bs : BIdx) (v : Nat → Byte), CfgValid s → HoldsBits s bs v →
    (∀ j < 2 * streamLen s, v j = 0#8 ∨ v j = 1#8) →
    ∃ t, exec (.qmap cd bs) s = .next t ∧ Finished .noError 0#4 0 s t ∧ KeepResults s t ∧ KeepCtr s t ∧
      (∀ i < streamLen s, sampleAt t cd i = some ⟨if v (2 * i) = 1#8 then 0x3FF0000000000000#64
          else 0xBFF0000000000000#64, if v (2 * i + 1) = 1#8 then 0x3FF0000000000000#64 else 0xBFF0000000000000#64⟩) ∧
      KeepMemOutside (cbBase cd) (16 * streamLen s) s t

/-- A byte outside {0, 1} in the range QMAP or BERCNT reads is refused with BitValueError(1, j), j the lowest such
index, BB0 scanned before BB1, and every destination is unchanged (42_qpsk_map R151, 45_detection R215). -/
def Obligations.BadBitBytesAreRefused : Prop :=
  ∀ (s : State) (j : Nat) (v : Nat → Byte), CfgValid s → j < 2 * streamLen s →
    v j ≠ 0#8 → v j ≠ 1#8 → (∀ k < j, v k = 0#8 ∨ v k = 1#8) →
    (∀ (cd : CIdx) (bs : BIdx), HoldsBits s bs v →
      ∃ t, exec (.qmap cd bs) s = .next t ∧ RaisesOnly .bitValue 1#4 j s t) ∧
    (∀ u : Nat → Byte, (HoldsBits s 0 v ∧ HoldsBits s 1 u) ∨
        (HoldsBits s 0 u ∧ HoldsBits s 1 v ∧ ∀ k < 2 * streamLen s, u k = 0#8 ∨ u k = 1#8) →
      ∃ t, exec .bercnt s = .next t ∧ Finished .bitValue 1#4 j s t ∧ SameSetup s t ∧ KeepVar s t ∧ KeepPapr s t ∧
        SameBer s t ∧ t.status.berValid = false ∧ KeepCtr s t ∧ KeepMem s t)

/-- Without noise the mapper and the detector are inverses: DETECT of the stream QMAP produced gives back the bits
(42_qpsk_map R153). -/
def Obligations.DetectInvertsQmap : Prop :=
  ∀ (s : State) (c : CIdx) (b b' : BIdx) (v : Nat → Byte), CfgValid s → HoldsBits s b v →
    (∀ j < 2 * streamLen s, v j = 0#8 ∨ v j = 1#8) →
    ∃ t u, exec (.qmap c b) s = .next t ∧ exec (.detect b' c) t = .next u ∧ u.status.err = .noError ∧
      ∀ j < 2 * streamLen s, bitAt u b' j = some (v j)

/-! ### Modulator and demodulator (43_modulation) -/

/-- MOD and DEMOD with a real wavelet, on a written and finite source: when every block's round trip has at least N
samples and its leading N are finite, they are the destination's samples, block by block; the first block that is
short raises NumericalError(2, b), the first sample that is not finite NumericalError(1, b*N + n), and samples 0 to
L-1 of the destination are then unspecified. Nothing else changes (43_modulation R160 to R162, R167 to R171, R175). -/
def Obligations.WaveletShaping : Prop :=
  ∀ (s : State) (cd cs : CIdx) (x : Nat → Cx), CfgValid s → s.cfgWavelet.toNat ≠ 0 → Holds s cs x → AllFinite s x →
    ∀ i : Instr, i = .mod cd cs ∨ i = .demod cd cs →
    let N := s.cfgNsub.toNat
    let S := s.cfgNsym.toNat
    ∃ t, exec i s = .next t ∧ KeepResults s t ∧ KeepCtr s t ∧
      KeepMemOutside (cbBase cd) (16 * streamLen s) s t ∧
      ((∀ b < S, GoodTrip N (roundTrip s x b)) →
        Finished .noError 0#4 0 s t ∧
          ∀ b < S, ∀ n < N, sampleAt t cd (b * N + n) = (roundTrip s x b)[n]?) ∧
      (∀ b < S, (∀ b' < b, GoodTrip N (roundTrip s x b')) → (roundTrip s x b).length < N →
        Finished .numerical 2#4 b s t ∧ Unspecified (cbBase cd) (16 * streamLen s) t) ∧
      (∀ b < S, (∀ b' < b, GoodTrip N (roundTrip s x b')) → N ≤ (roundTrip s x b).length →
        ∀ n < N, ∀ y, (roundTrip s x b)[n]? = some y → cxFinite y = false →
          (∀ n' < n, ∀ y', (roundTrip s x b)[n']? = some y' → cxFinite y' = true) →
          Finished .numerical 1#4 (b * N + n) s t ∧ Unspecified (cbBase cd) (16 * streamLen s) t)

/-- MOD and DEMOD in the baseline, w = none, on a written and finite source: block b of the destination is the IDFT
(for MOD) or the DFT (for DEMOD) of block b of the source, N samples; the first output that is not finite raises
NumericalError(1, b*N + n) and samples 0 to L-1 of the destination are then unspecified (43_modulation R165, R167,
R168, R170, R176). -/
def Obligations.BaselineShaping : Prop :=
  ∀ (s : State) (cd cs : CIdx) (x : Nat → Cx), CfgValid s → s.cfgWavelet.toNat = 0 → Holds s cs x → AllFinite s x →
    ∀ (i : Instr) (f : DftNorm → List Cx → Nat → Cx),
    (i = .mod cd cs ∧ f = Config.idftSample) ∨ (i = .demod cd cs ∧ f = Config.dftSample) →
    let N := s.cfgNsub.toNat
    let S := s.cfgNsym.toNat
    let y (b n : Nat) : Cx := f Config.dftNorm (blockOf s x b) n
    ∃ t, exec i s = .next t ∧ KeepResults s t ∧ KeepCtr s t ∧
      KeepMemOutside (cbBase cd) (16 * streamLen s) s t ∧
      ((∀ b < S, ∀ n < N, cxFinite (y b n) = true) →
        Finished .noError 0#4 0 s t ∧ ∀ b < S, ∀ n < N, sampleAt t cd (b * N + n) = some (y b n)) ∧
      (∀ b < S, ∀ n < N, cxFinite (y b n) = false → (∀ n' < n, cxFinite (y b n') = true) →
        (∀ b' < b, ∀ n' < N, cxFinite (y b' n') = true) →
        Finished .numerical 1#4 (b * N + n) s t ∧ Unspecified (cbBase cd) (16 * streamLen s) t)

/-- Under WT_ID, MOD and DEMOD with a real wavelet copy a finite source, samples 0 to L-1, to the destination
(43_modulation R177). -/
def Obligations.IdentityTransformCopies : Prop :=
  WtId Config.wdec Config.wrec →
  ∀ (s : State) (cd cs : CIdx) (x : Nat → Cx), CfgValid s → s.cfgWavelet.toNat ≠ 0 → Holds s cs x → AllFinite s x →
    ∀ i : Instr, i = .mod cd cs ∨ i = .demod cd cs →
    ∃ t, exec i s = .next t ∧ Finished .noError 0#4 0 s t ∧ ∀ n < streamLen s, sampleAt t cd n = some (x n)

/-- The lossless round trip: with a real wavelet and no CHAN in between, DEMOD of the result of MOD returns the stream,
exactly under WT_ID, and under WT_CLOSE(tol) each sample within (2 tol + tol^2) times the largest magnitude of its
block (43_modulation R178, first two cases). -/
def Obligations.LosslessRoundTrip : Prop :=
  ∀ (s : State) (c₀ c₁ c₂ : CIdx) (x : Nat → Cx), CfgValid s → s.cfgWavelet.toNat ≠ 0 → Holds s c₀ x → AllFinite s x →
    (WtId Config.wdec Config.wrec →
      ∃ t u, exec (.mod c₁ c₀) s = .next t ∧ exec (.demod c₂ c₁) t = .next u ∧ u.status.err = .noError ∧
        ∀ n < streamLen s, sampleAt u c₂ n = some (x n)) ∧
    (∀ tol : ℚ, 0 ≤ tol → WtClose tol Config.wdec Config.wrec →
      ∃ t u, exec (.mod c₁ c₀) s = .next t ∧ exec (.demod c₂ c₁) t = .next u ∧ u.status.err = .noError ∧
        ∀ b < s.cfgNsym.toNat, ∀ n < s.cfgNsub.toNat, ∃ z, sampleAt u c₂ (b * s.cfgNsub.toNat + n) = some z ∧
          ∃ k < s.cfgNsub.toNat, distSq z (x (b * s.cfgNsub.toNat + n)) ≤
            (2 * tol + tol ^ 2) ^ 2 * normSq (x (b * s.cfgNsub.toNat + k)))

/-- A source whose first non-finite sample is i, with everything checked before the scan in order, raises
NumericalError(4, i) in MOD, DEMOD, CHAN, DETECT and PAPR, and no buffer changes; CHAN and PAPR clear their VALID bit
(43_modulation R168, 45_detection R212, 60_exceptions R254, R257). -/
def Obligations.NonFiniteSourceIsRefused : Prop :=
  ∀ (s : State) (cs cd : CIdx) (bd : BIdx) (x : Nat → Cx) (i : Nat), CfgValid s → Holds s cs x → i < streamLen s →
    cxFinite (x i) = false → (∀ k < i, cxFinite (x k) = true) →
    (∃ t, exec (.mod cd cs) s = .next t ∧ RaisesOnly .numerical 4#4 i s t) ∧
    (∃ t, exec (.demod cd cs) s = .next t ∧ RaisesOnly .numerical 4#4 i s t) ∧
    (∃ t, exec (.detect bd cs) s = .next t ∧ RaisesOnly .numerical 4#4 i s t) ∧
    (VarianceOk s → ∃ t, exec (.chan cd cs) s = .next t ∧ Finished .numerical 4#4 i s t ∧ SameSetup s t ∧
      SameVar s t ∧ t.status.varValid = false ∧ KeepPapr s t ∧ KeepBer s t ∧ KeepCtr s t ∧ KeepMem s t) ∧
    (∃ t, exec (.papr cs) s = .next t ∧ Finished .numerical 4#4 i s t ∧ SameSetup s t ∧ KeepVar s t ∧
      SamePapr s t ∧ t.status.paprValid = false ∧ KeepBer s t ∧ KeepCtr s t ∧ KeepMem s t)

/-! ### AWGN channel (44_channel) -/

/-- CHAN on a written and finite source: with the variance in range, sigma its root and the draws GAUSS(seed, c + i)
and GAUSS(seed, c + L + i), sample i of the destination is x[i] plus sigma times the draw, part by part; NOISE_VAR,
VAR_VALID and NOISE_CTR + 2L are committed. The first sum that is not finite raises NumericalError(1, i) and leaves
samples 0 to L-1 of the destination unspecified; a variance out of range raises ParameterRangeError(1, 0). Every raise
clears VAR_VALID and keeps NOISE_VAR and NOISE_CTR (44_channel R191, R194 to R196). -/
def Obligations.ChanAddsTheDraws : Prop :=
  ∀ (s : State) (cd cs : CIdx) (x : Nat → Cx), CfgValid s → Holds s cs x → AllFinite s x →
    let var := fdiv (i2f s.cfgNsub.toNat) (fmul (i2f 2) (pow10 (fdiv (unpack s.snrDb) (i2f 10))))
    let ok : Prop := isFinite var = true ∧ flt fzero var = true
    let sigma := fsqrt var
    let L := streamLen s
    let re (i : Nat) : F64 :=
      fadd (unpack (x i).re) (fmul sigma (unpack (Config.gauss s.noiseSeed (s.noiseCtr + BitVec.ofNat 64 i))))
    let im (i : Nat) : F64 :=
      fadd (unpack (x i).im) (fmul sigma (unpack (Config.gauss s.noiseSeed (s.noiseCtr + BitVec.ofNat 64 (L + i)))))
    let good (i : Nat) : Prop := isFinite (re i) = true ∧ isFinite (im i) = true
    ∃ t, exec (.chan cd cs) s = .next t ∧ SameSetup s t ∧ KeepPapr s t ∧ KeepBer s t ∧
      KeepMemOutside (cbBase cd) (16 * L) s t ∧
      (ok → (∀ i < L, good i) → Finished .noError 0#4 0 s t ∧ t.noiseVar = pack var ∧ t.status.varValid = true ∧
        t.noiseCtr = s.noiseCtr + BitVec.ofNat 64 (2 * L) ∧
        ∀ i < L, sampleAt t cd i = some ⟨pack (re i), pack (im i)⟩) ∧
      (ok → ∀ i < L, (∀ k < i, good k) → ¬ good i → Finished .numerical 1#4 i s t ∧ SameVar s t ∧
        t.status.varValid = false ∧ KeepCtr s t ∧ Unspecified (cbBase cd) (16 * L) t) ∧
      (¬ ok → Finished .parameterRange 1#4 0 s t ∧ SameVar s t ∧ t.status.varValid = false ∧ KeepCtr s t ∧
        KeepMem s t)

/-- A successful CHAN moves NOISE_CTR on by 2L modulo 2^64, and one that raises leaves it (44_channel R195); no other
command changes it (10_state R32). -/
def Obligations.OnlyChanMovesTheCounter : Prop :=
  ∀ (s t : State) (i : Instr), exec i s = .next t →
    ((∃ cd cs, i = .chan cd cs) → t.status.err = .noError →
      t.noiseCtr = s.noiseCtr + BitVec.ofNat 64 (2 * streamLen s)) ∧
    ((∃ cd cs, i = .chan cd cs) → t.status.err ≠ .noError → t.noiseCtr = s.noiseCtr) ∧
    ((¬ ∃ cd cs, i = .chan cd cs) → t.noiseCtr = s.noiseCtr)

/-! ### Detector and bit-error counter (45_detection) -/

/-- DETECT on a written and finite source: byte 2i of BB[BD] is 1 exactly when the real part of sample i is above +0.0,
and byte 2i+1 when its imaginary part is; nothing outside those 2L bytes changes (45_detection R210, R211). -/
def Obligations.DetectDecidesTheBits : Prop :=
  ∀ (s : State) (bd : BIdx) (cs : CIdx) (x : Nat → Cx), CfgValid s → Holds s cs x → AllFinite s x →
    ∃ t, exec (.detect bd cs) s = .next t ∧ Finished .noError 0#4 0 s t ∧ KeepResults s t ∧ KeepCtr s t ∧
      (∀ i < streamLen s,
        bitAt t bd (2 * i) = some (if flt fzero (unpack (x i).re) then 1#8 else 0#8) ∧
        bitAt t bd (2 * i + 1) = some (if flt fzero (unpack (x i).im) then 1#8 else 0#8)) ∧
      KeepMemOutside (bbBase bd) (2 * streamLen s) s t

/-- The decision threshold is strict: a finite component decides 1 exactly when its sign bit is 0 and it is not the
pattern of +0.0, so both signed zeros decide 0 (45_detection R211). -/
def Obligations.SignedZerosDecideZero : Prop :=
  ∀ (s : State) (bd : BIdx) (cs : CIdx) (x : Nat → Cx), CfgValid s → Holds s cs x → AllFinite s x →
    let one (w : Word) : Byte := if w.msb = false ∧ w ≠ 0#64 then 1#8 else 0#8
    ∃ t, exec (.detect bd cs) s = .next t ∧
      ∀ i < streamLen s, bitAt t bd (2 * i) = some (one (x i).re) ∧ bitAt t bd (2 * i + 1) = some (one (x i).im)

/-- BERCNT on written bit blocks of zeros and ones: ERR_BITS is the number of bytes that differ, TOTAL_BITS is 2L, BER
the binary64 quotient, BER_VALID 1; no buffer and no other register changes (45_detection R215). -/
def Obligations.BercntCountsTheErrors : Prop :=
  ∀ (s : State) (v u : Nat → Byte), CfgValid s → HoldsBits s 0 v → HoldsBits s 1 u →
    (∀ j < 2 * streamLen s, (v j = 0#8 ∨ v j = 1#8) ∧ (u j = 0#8 ∨ u j = 1#8)) →
    let e := ((List.range (2 * streamLen s)).filter fun j => v j != u j).length
    ∃ t, exec .bercnt s = .next t ∧ Finished .noError 0#4 0 s t ∧ SameSetup s t ∧ KeepVar s t ∧ KeepPapr s t ∧
      KeepCtr s t ∧ KeepMem s t ∧ t.status.berValid = true ∧ t.errBits = BitVec.ofNat 64 e ∧
      t.totalBits = BitVec.ofNat 64 (2 * streamLen s) ∧ t.ber = pack (fdiv (i2f e) (i2f (2 * streamLen s)))

/-- Comparing equal bit blocks gives ERR_BITS = 0 and BER = +0.0 exactly (45_detection R216). -/
def Obligations.EqualBlocksHaveNoErrors : Prop :=
  ∀ (s : State) (v : Nat → Byte), CfgValid s → HoldsBits s 0 v → HoldsBits s 1 v →
    (∀ j < 2 * streamLen s, v j = 0#8 ∨ v j = 1#8) →
    ∃ t, exec .bercnt s = .next t ∧ t.status.err = .noError ∧ t.errBits = 0#64 ∧ t.ber = 0#64

/-! ### PAPR meter (46_papr) -/

/-- PAPR on a written and finite source: the powers re*re + im*im, their maximum, their sum in ascending order from
+0.0, the mean, the ratio clamped to at least 1.0, and 10 * LOG10 of it; the errors in their order; a raise clears
PAPR_VALID and keeps the registers; no buffer changes (46_papr R231 to R234, R236, R237). -/
def Obligations.PaprMeasures : Prop :=
  ∀ (s : State) (cs : CIdx) (x : Nat → Cx), CfgValid s → Holds s cs x → AllFinite s x →
    let L := streamLen s
    let p (i : Nat) : F64 :=
      fadd (fmul (unpack (x i).re) (unpack (x i).re)) (fmul (unpack (x i).im) (unpack (x i).im))
    let peak := (List.range L).foldl (fun m i => if flt m (p i) then p i else m) (.fin false 0 0)
    let sum := (List.range L).foldl (fun a i => fadd a (p i)) (.fin false 0 0)
    let mean := fdiv sum (i2f L)
    let ratio := fdiv peak mean
    let clamped := if flt ratio (i2f 1) then i2f 1 else ratio
    let papr := fmul (i2f 10) (unpack (Config.log10 (pack clamped)))
    ∃ t, exec (.papr cs) s = .next t ∧ SameSetup s t ∧ KeepVar s t ∧ KeepBer s t ∧ KeepCtr s t ∧ KeepMem s t ∧
      let failed (d : BitVec 4) (n : Nat) : Prop :=
        Finished .numerical d n s t ∧ SamePapr s t ∧ t.status.paprValid = false
      (∀ i < L, (∀ k < i, isFinite (p k) = true) → isFinite (p i) = false → failed 1#4 i) ∧
      ((∀ i < L, isFinite (p i) = true) →
        if isFinite sum = false then failed 1#4 L
        else if isZero mean = true then failed 3#4 0
        else if isFinite ratio = false then failed 1#4 L
        else if isFinite papr = false then failed 1#4 L
        else Finished .noError 0#4 0 s t ∧ t.status.paprValid = true ∧ t.paprDb = pack papr ∧
          t.peakPwr = pack peak ∧ t.meanPwr = pack mean)

/-- The peak PAPR takes is the maximum of the powers: it is one of them, and none is above it (46_papr R232). -/
def Obligations.PeakIsTheMaximum : Prop :=
  ∀ xs : List Cx, xs ≠ [] → (∀ x ∈ xs, isFinite (power x) = true) →
    (∃ x ∈ xs, peakOf (xs.map power) = power x) ∧ ∀ x ∈ xs, flt (peakOf (xs.map power)) (power x) = false

/-- A stream of QPSK symbols has peak and mean power 2.0 exactly, and given LOG10_EXACT1 a PAPR of +0 dB
(46_papr R238, 42_qpsk_map R152). -/
def Obligations.PaprOfSymbolsIsZeroDb : Prop :=
  Log10Exact1 Config.log10 →
  ∀ (s : State) (cs : CIdx) (x : Nat → Cx), CfgValid s → Holds s cs x → (∀ i < streamLen s, IsSymbol (x i)) →
    ∃ t, exec (.papr cs) s = .next t ∧ Finished .noError 0#4 0 s t ∧ t.status.paprValid = true ∧ t.paprDb = 0#64 ∧
      t.peakPwr = 0x4000000000000000#64 ∧ t.meanPwr = 0x4000000000000000#64

/-- A signal of zeros, of either sign, has no energy: NumericalError(3, 0), PAPR_VALID 0, the registers and the buffers
kept (46_papr R234, R236). -/
def Obligations.ZeroEnergyIsRefused : Prop :=
  ∀ (s : State) (cs : CIdx) (x : Nat → Cx), CfgValid s → Holds s cs x →
    (∀ i < streamLen s, ((x i).re = 0#64 ∨ (x i).re = 0x8000000000000000#64) ∧
      ((x i).im = 0#64 ∨ (x i).im = 0x8000000000000000#64)) →
    ∃ t, exec (.papr cs) s = .next t ∧ Finished .numerical 3#4 0 s t ∧ t.status.paprValid = false ∧ SamePapr s t ∧
      KeepMem s t

/-- Every successful PAPR gives PAPR_DB of at least 0 when LOG10 is monotone and LOG10(1) = +0 (46_papr R235). -/
def Obligations.PaprIsNotNegative : Prop :=
  Log10Exact1 Config.log10 → Log10Monotone Config.log10 →
  ∀ (s t : State) (cs : CIdx), exec (.papr cs) s = .next t → t.status.err = .noError →
    flt (unpack t.paprDb) fzero = false

/-! ### Errors, over all commands (60_exceptions) -/

/-- What each command can report: its own rows of the table of errors, and success (60_exceptions R251, R258). -/
def Obligations.ErrorsEachCommandReports : Prop :=
  ∀ (i : Instr) (s t : State), exec i s = .next t → canReport i t.status.err t.status.detail = true

/-- A command that raises changes no result register and not NOISE_CTR; it changes a buffer only with NumericalError 1
or 2, and then only the destination samples of MOD, DEMOD and CHAN, which become unspecified: no byte outside the
destination changes, and PAPR has none (60_exceptions R254). -/
def Obligations.ErrorsLeaveTheResultsAlone : Prop :=
  ∀ (i : Instr) (s t : State), exec i s = .next t → t.status.err ≠ .noError →
    SameVar s t ∧ SamePapr s t ∧ SameBer s t ∧ KeepCtr s t ∧ KeepMemOutside (destBase i) (destSize s i) s t ∧
    ((t.status.err ≠ .numerical ∨ (t.status.detail ≠ 1#4 ∧ t.status.detail ≠ 2#4)) → KeepMem s t) ∧
    (t.status.err = .numerical → t.status.detail = 1#4 ∨ t.status.detail = 2#4 →
      Unspecified (destBase i) (destSize s i) t)

/-- A VALID bit follows its own commands: VAR_VALID becomes 1 by a CHECK or CHAN that succeeds and 0 by one that
raises, PAPR_VALID and BER_VALID likewise by PAPR and BERCNT; no other command touches them, nor the result registers
(10_state R24, R45, 60_exceptions R254). -/
def Obligations.ValidBitsFollowTheirCommands : Prop :=
  ∀ (i : Instr) (s t : State), exec i s = .next t →
    (if i = .check ∨ ∃ cd cs, i = .chan cd cs then (t.status.varValid = true ↔ t.status.err = .noError)
      else KeepVar s t) ∧
    (if ∃ cs, i = .papr cs then (t.status.paprValid = true ↔ t.status.err = .noError) else KeepPapr s t) ∧
    (if i = .bercnt then (t.status.berValid = true ↔ t.status.err = .noError) else KeepBer s t)

/-- No command changes a byte outside its destination: samples 0 to L-1 of CB[CD], bytes 0 to 2L-1 of BB[BD], or
nothing (10_state R40, R41). -/
def Obligations.OnlyTheDestinationChanges : Prop :=
  ∀ (i : Instr) (s t : State), exec i s = .next t → KeepMemOutside (destBase i) (destSize s i) s t

/-- The model fault UnwrittenSource comes exactly when the earlier checks pass and the source range holds a byte whose
written flag is clear; no command is ever refused (70_reset_and_hazards R281, R297; the place of the fault in the
order of the checks is the model's reading, log 5). -/
def Obligations.UnwrittenSourceIsTheOnlyFault : Prop :=
  ∀ (i : Instr) (s : State),
    (exec i s = .fault .unwrittenSource ↔ ReachesSource s i ∧ ¬ SourceWritten s i) ∧
    ∀ r : Refusal, exec i s ≠ .refused r

/-! ### Host access (40_host_access, 20_memory, 10_state) -/

/-- A transaction is admitted exactly when its size is 1, 2, 4 or 8, its address is a multiple of the size, and it lies
in the register file with size 8 or in the buffers. Any other, a misaligned one and a register access of a size other
than 8 among them, is answered BusError: a read returns no data, a write changes nothing; a write admitted is not
answered BusError, and a read admitted returns data (20_memory R62, R66, R67, 40_host_access R110). That sizes and
addresses the bus does not have are refused too is the model's choice, log 11. -/
def Obligations.AdmittedTransactions : Prop :=
  ∀ a n : Nat,
    let allowed : Prop := (n = 1 ∨ n = 2 ∨ n = 4 ∨ n = 8) ∧ a % n = 0 ∧
      ((a < 0x001000 ∧ n = 8) ∨ (0x040000 ≤ a ∧ a < 0x150000))
    (admits a n = true ↔ allowed) ∧
    (allowed → writeResponse a n = .done ∧ ∀ s : State, ∃ w, busRead a n s = .data w) ∧
    (¬ allowed → writeResponse a n = .busError ∧
      ∀ s : State, busRead a n s = .busError ∧ ∀ v : Word, busWrite a n v s = s)

/-- A transaction that touches a byte outside the mapped ranges is answered BusError: a read returns no data, and
neither changes the block (20_memory R63). -/
def Obligations.UnmappedIsBusError : Prop :=
  ∀ (s : State) (a n k : Nat) (v : Word), sizeWf n = true → k < n →
    (0x001000 ≤ a + k ∧ a + k < 0x040000 ∨ 0x150000 ≤ a + k) →
    busRead a n s = .busError ∧ writeResponse a n = .busError ∧ busWrite a n v s = s

/-- A bus read, at any address, changes only what the Host has been answered and the model's bookkeeping; the answer is
`busRead` of the state it leaves (20_memory R70, 40_host_access R111). -/
def Obligations.ReadsHaveNoSideEffect : Prop :=
  ∀ (s : State) (a n : Nat) (rest : List Input), s.inputs = .read a n :: rest → engineNext s = false →
    ∃ t, step s = .next t ∧ (∀ r, regValue r t = regValue r s) ∧ t.status = s.status ∧ t.mem = s.mem ∧
      t.refusalMark = s.refusalMark ∧ t.inputs = rest ∧ t.responses = busRead a n t :: s.responses

/-- Registers as they are read, at every offset of the map, and 0 at the reserved ones, busy or not; ERR_INDEX alone
reads otherwise while BUSY = 1, as the value held before the command in flight (10_state R20, R21, 40_host_access R111,
70_reset_and_hazards R291; that this and not the register is read is the model's reading, log 20). -/
def Obligations.RegisterReads : Prop :=
  ∀ s : State,
    busRead 0x000 8 s = .data 0x00000001574F464D#64 ∧ busRead 0x008 8 s = .data (BitVec.ofNat 64 s.ie.toNat) ∧
    busRead 0x010 8 s = .data (statusWord s.status) ∧ busRead 0x018 8 s = .data s.cmd ∧
    busRead 0x020 8 s = .data s.cfgNsub ∧ busRead 0x028 8 s = .data s.cfgNsym ∧
    busRead 0x030 8 s = .data s.cfgWavelet ∧ busRead 0x038 8 s = .data s.snrDb ∧
    busRead 0x040 8 s = .data s.noiseSeed ∧ busRead 0x048 8 s = .data s.noiseCtr ∧
    busRead 0x050 8 s = .data s.noiseVar ∧ busRead 0x058 8 s = .data s.paprDb ∧
    busRead 0x060 8 s = .data s.peakPwr ∧ busRead 0x068 8 s = .data s.meanPwr ∧
    busRead 0x070 8 s = .data s.errBits ∧ busRead 0x078 8 s = .data s.totalBits ∧
    busRead 0x080 8 s = .data s.ber ∧ (s.status.busy = false → busRead 0x088 8 s = .data s.errIndex) ∧
    (s.status.busy = true → busRead 0x088 8 s = .data s.heldErrIndex) ∧
    ∀ a, 0x090 ≤ a → a ≤ 0xFF8 → a % 8 = 0 → busRead a 8 s = .data 0#64

/-- STATUS as it is read has each field at its bits, ERR as the code of its kind, and zeros elsewhere (10_state R24,
60_exceptions R250). -/
def Obligations.StatusFields : Prop :=
  ∀ st : Status, (statusWord st).getLsbD 0 = st.busy ∧ (statusWord st).getLsbD 1 = st.done ∧
    (statusWord st).getLsbD 2 = st.haz ∧ (statusWord st).getLsbD 3 = st.paprValid ∧
    (statusWord st).getLsbD 4 = st.berValid ∧ (statusWord st).getLsbD 5 = st.varValid ∧
    (statusWord st).extractLsb' 6 2 = 0#2 ∧
    (statusWord st).extractLsb' 8 4 =
      (match st.err with
      | .noError => 0#4
      | .configuration => 1#4
      | .numerical => 2#4
      | .parameterRange => 3#4
      | .illegalCommand => 4#4
      | .bitValue => 5#4) ∧
    (statusWord st).extractLsb' 12 4 = 0#4 ∧ (statusWord st).extractLsb' 16 4 = st.detail ∧
    (statusWord st).extractLsb' 20 44 = 0#44

/-- While BUSY = 1 a write of a buffer, a configuration register, NOISE_SEED or CMD is refused: HAZ becomes 1 and
nothing else changes; and no write but a soft reset changes what the result registers, NOISE_CTR and ERR_INDEX read as,
since only the completion step writes them (70_reset_and_hazards R290, R291, 40_host_access R111, R114 to R116, R120). -/
def Obligations.BusyWritesAreRefused : Prop :=
  ∀ (s : State) (a n : Nat) (v : Word), s.status.busy = true →
    (admits a n = true →
      (0x001000 ≤ a ∨ a = 0x018 ∨ a = 0x020 ∨ a = 0x028 ∨ a = 0x030 ∨ a = 0x038 ∨ a = 0x040) →
      busWrite a n v s = { s with status := { s.status with haz := true } }) ∧
    ((a = 0x008 → v.getLsbD 1 = false) →
      ∀ r ∈ [Reg.noiseCtr, .noiseVar, .paprDb, .peakPwr, .meanPwr, .errBits, .totalBits, .ber, .errIndex],
        regValue r (busWrite a n v s) = regValue r s)

/-- A write of a read-only register or a reserved offset has no effect, even while BUSY = 1 (40_host_access R113). -/
def Obligations.ReadOnlyWritesAreIgnored : Prop :=
  ∀ (s : State) (a : Nat) (v : Word),
    (a = 0x000 ∨ (0x048 ≤ a ∧ a ≤ 0xFF8 ∧ a % 8 = 0)) → writeResponse a 8 = .done ∧ busWrite a 8 v s = s

/-- While BUSY = 0 a write of CFG_NSUB, CFG_NSYM, CFG_WAVELET or SNR_DB stores the value, whatever it is; a write of
NOISE_SEED stores it and clears NOISE_CTR (40_host_access R114, R115). -/
def Obligations.ConfigurationWrites : Prop :=
  ∀ (s : State) (v : Word), s.status.busy = false →
    busWrite 0x020 8 v s = { s with cfgNsub := v } ∧ busWrite 0x028 8 v s = { s with cfgNsym := v } ∧
    busWrite 0x030 8 v s = { s with cfgWavelet := v } ∧ busWrite 0x038 8 v s = { s with snrDb := v } ∧
    busWrite 0x040 8 v s = { s with noiseSeed := v, noiseCtr := 0#64 }

/-- A write of CMD while BUSY = 0 issues the word, undecoded: CMD holds it, BUSY is 1, DONE, ERR, ERR_DETAIL and
ERR_INDEX are 0, so IRQ is low; HAZ, the VALID bits, every other register and the buffers stay. Every register but CMD and
STATUS reads as before it, ERR_INDEX as the value held before the command. While BUSY = 1 the write is refused: HAZ
becomes 1 and nothing else changes (40_host_access R111, R116, 10_state R26, 70_reset_and_hazards R291; that ERR_INDEX is
0 and reads as before is the model's reading, log 20). -/
def Obligations.CmdWriteIssues : Prop :=
  ∀ (s : State) (v : Word),
    (s.status.busy = true → busWrite 0x018 8 v s = { s with status := { s.status with haz := true } }) ∧
    (s.status.busy = false →
      let t := busWrite 0x018 8 v s
      t.cmd = v ∧ irq t = false ∧ t.status = { s.status with busy := true, done := false, err := .noError, detail := 0#4 } ∧
        t.errIndex = 0#64 ∧ t.mem = s.mem ∧
        (∀ r, r ≠ .cmd → r ≠ .status → regValue r t = regValue r s) ∧
        t.inputs = s.inputs ∧ t.responses = s.responses)

/-- A write of STATUS clears DONE where bit 1 is 1 and HAZ where bit 2 is 1, busy or not, and changes nothing else
(40_host_access R117). -/
def Obligations.StatusWriteClears : Prop :=
  ∀ (s : State) (v : Word), busWrite 0x010 8 v s =
    { s with status := { s.status with done := s.status.done && !v.getLsbD 1, haz := s.status.haz && !v.getLsbD 2 } }

/-- A write of CTRL without bit 1 sets IE to bit 0 and changes nothing else, busy or not (40_host_access R118, second
case). -/
def Obligations.CtrlWriteSetsIe : Prop :=
  ∀ (s : State) (v : Word), v.getLsbD 1 = false → busWrite 0x008 8 v s = { s with ie := v.getLsbD 0 }

/-- A write of CTRL with bit 1 set is a soft reset, also while BUSY = 1: every register is at its reset value, no
command is in flight, and the buffers keep their contents except that the destination elements of the command
abandoned, legal and under a valid configuration, become unspecified (40_host_access R118, 70_reset_and_hazards R283).
With an illegal word in CMD or an invalid configuration every byte stays, which is the model's reading, log 9. -/
def Obligations.SoftResetAbandonsTheCommand : Prop :=
  ∀ (s : State) (v : Word), v.getLsbD 1 = true →
    let t := busWrite 0x008 8 v s
    (∀ r, regValue r t = regValue r State.reset) ∧ t.status = Status.reset ∧
      (s.status.busy = false → KeepMem s t) ∧
      (s.status.busy = true → ∀ i, decode s.cmd = .ok i → CfgValid s →
        Unspecified (destBase i) (destSize s i) t ∧ KeepMemOutside (destBase i) (destSize s i) s t) ∧
      (s.status.busy = true → ((∀ i, decode s.cmd ≠ .ok i) ∨ ¬ CfgValid s) → KeepMem s t)

/-- A hardware reset, from any state, leaves every register at the value of the register map, every written flag clear
and IRQ low, and no completion step is next (70_reset_and_hazards R280, R281). -/
def Obligations.HardResetValues : Prop :=
  ∀ s : State,
    let t := performInput .hardReset s
    t.ie = false ∧ t.status = Status.reset ∧ statusWord t.status = 0#64 ∧ t.cmd = 0#64 ∧ t.cfgNsub = 64#64 ∧
      t.cfgNsym = 100#64 ∧ t.cfgWavelet = 1#64 ∧ t.snrDb = 0#64 ∧ t.noiseSeed = 0#64 ∧ t.noiseCtr = 0#64 ∧
      t.noiseVar = 0#64 ∧ t.paprDb = 0#64 ∧ t.peakPwr = 0#64 ∧ t.meanPwr = 0#64 ∧ t.errBits = 0#64 ∧
      t.totalBits = 0#64 ∧ t.ber = 0#64 ∧ t.errIndex = 0#64 ∧ regValue .id t = 0x00000001574F464D#64 ∧
      irq t = false ∧ engineNext t = false ∧ ∀ a, memRead t.mem a = none

/-- While BUSY = 0 a read of n written buffer bytes, whoever wrote them, the Host or a command, returns them,
little-endian and zero-extended. A buffer write while BUSY = 0 stores the low n bytes of the value, little-endian, and no
other byte, and an n-byte read there then returns them (20_memory R61, R68, R75, 40_host_access R111, R120). -/
def Obligations.BufferWriteThenRead : Prop :=
  (∀ (s : State) (a n : Nat) (b : Nat → Byte), s.status.busy = false → admits a n = true → 0x001000 ≤ a →
    (∀ k < n, memRead s.mem (a + k) = some (b k)) →
    ∃ w, busRead a n s = .data w ∧ (∀ k < n, w.extractLsb' (8 * k) 8 = b k) ∧ w.toNat < 2 ^ (8 * n)) ∧
  ∀ (s : State) (a n : Nat) (v : Word), s.status.busy = false → admits a n = true → 0x001000 ≤ a →
    let t := busWrite a n v s
    busRead a n t = .data (BitVec.ofNat 64 (v.toNat % 2 ^ (8 * n))) ∧
      (∀ k < n, memRead t.mem (a + k) = some (v.extractLsb' (8 * k) 8)) ∧ KeepMemOutside a n s t ∧
      t.status = s.status ∧ ∀ r, regValue r t = regValue r s

/-- IRQ is the level DONE and IE, a function of the state (10_state R47). -/
def Obligations.IrqIsDoneAndIe : Prop :=
  (∀ s : State, irq s = true ↔ s.status.done = true ∧ s.ie = true) ∧
  (∀ (i : Instr) (s t : State), exec i s = .next t → irq t = s.ie) ∧
  ∀ (s : State) (v : Word), (v.getLsbD 1 = true → irq (busWrite 0x010 8 v s) = false) ∧
    (s.status.busy = false → irq (busWrite 0x018 8 v s) = false)

/-! ### Invariants -/

/-- The reset state meets the invariants. -/
def Obligations.ResetMeetsTheInvariants : Prop := ShapeInv State.reset ∧ ValidInv State.reset

/-- Every step keeps the shape of the state: the memory canonical and inside the buffers, the error report one of the
table, nothing reported and ERR_INDEX 0 while a command is in flight, the refusal mark clear (60_exceptions R251,
20_memory R62, 40_host_access R116, 10_state R26). -/
def Obligations.EveryStepKeepsTheShape : Prop := ∀ s t : State, ShapeInv s → step s = .next t → ShapeInv t

/-- Every step keeps the meaning of the VALID bits: while one is 1, its registers hold the result of a successful
command (10_state R24, R33 to R39). -/
def Obligations.EveryStepKeepsTheValidResults : Prop := ∀ s t : State, ValidInv s → step s = .next t → ValidInv t

/-! ### Arithmetic (00_scope R8) -/

/-- A pattern that is no NaN is the pattern of the number it stands for, and that number is canonical; packing a
canonical number that is no NaN loses nothing (00_scope R8). -/
def Obligations.PatternsAndNumbersAgree : Prop :=
  (∀ w : Word, unpack w ≠ .nan → pack (unpack w) = w ∧ f64Canonical (unpack w)) ∧
  ∀ v : F64, f64Canonical v → v ≠ .nan → unpack (pack v) = v

/-- Rounding is to nearest, ties to even, and overflows to infinity: of an exact magnitude m * 2^(x - 1074), and of one
strictly between m and m + 1 such units where `sticky` says so and m has more than 54 bits, which is how division and
square root call it (00_scope R8). -/
def Obligations.RoundingIsToNearestEven : Prop :=
  ∀ (neg : Bool) (m : Nat) (x : Int) (sticky : Bool) (a : ℝ),
    (sticky = false → a = m * 2 ^ x / 2 ^ 1074) →
    (sticky = true → 2 ^ 54 ≤ m ∧ m * 2 ^ x / 2 ^ 1074 < a ∧ a < (m + 1) * 2 ^ x / 2 ^ 1074) →
    IsRounded neg a (roundF64 neg m x sticky)

/-- The lossless round trip of the baseline: with w = none and no CHAN in between, DEMOD of the result of MOD returns the
stream within tolFwd + c_fwd N tolInv, where IDFT meets DFT_CLOSE(tolInv) on blocks of the stream's magnitude and DFT
meets DFT_CLOSE(tolFwd) on blocks of the magnitude IDFT can then give; one tol for both is the case tolInv = tolFwd
(43_modulation R178, third case; the absolute tol of DFT_CLOSE and its bound are the model's choice, log 19). -/
def Obligations.BaselineRoundTrip : Prop :=
  ∀ (s : State) (c₀ c₁ c₂ : CIdx) (x : Nat → Cx) (tolInv tolFwd bound cInv cFwd : ℝ), CfgValid s →
    s.cfgWavelet.toNat = 0 → Holds s c₀ x → AllFinite s x →
    (∀ i < streamLen s, ∀ u, IsCxValue (x i) u → ‖u‖ ≤ bound) →
    let N := s.cfgNsub.toNat
    IsInverseScale Config.dftNorm N cInv → IsForwardScale Config.dftNorm N cFwd →
    DftClose tolInv bound Config.dftNorm Config.idftSample IsIdftExact →
    DftClose tolFwd (cInv * N * bound + tolInv) Config.dftNorm Config.dftSample IsDftExact →
    ∃ t u, exec (.mod c₁ c₀) s = .next t ∧ exec (.demod c₂ c₁) t = .next u ∧ u.status.err = .noError ∧
      ∀ b < s.cfgNsym.toNat, ∀ n < N, ∃ z v w, sampleAt u c₂ (b * N + n) = some z ∧ IsCxValue z v ∧
        IsCxValue (x (b * N + n)) w ∧ ‖v - w‖ ≤ tolFwd + cFwd * N * tolInv

/-- The operations are IEEE 754's: sum, difference, product, quotient and root of finite numbers are the exact results
rounded, with the signs of zeros, infinities and NaNs as the standard has them; i2f(k) is k rounded, and k itself below
2^53; the comparison is that of the exact values, -0 equal to +0, and false with a NaN (00_scope R8, R12). -/
def Obligations.ArithmeticIsRoundedExactly : Prop :=
  (∀ (na nb : Bool) (ma ea mb eb : Nat), f64Canonical (.fin na ma ea) → f64Canonical (.fin nb mb eb) →
    let a : F64 := .fin na ma ea
    let b : F64 := .fin nb mb eb
    let x := signedValue na ma ea
    let y := signedValue nb mb eb
    ((0 < x + y → IsRounded false (x + y) (fadd a b)) ∧ (x + y < 0 → IsRounded true (-(x + y)) (fadd a b)) ∧
      (x + y = 0 → fadd a b = .fin (na && nb) 0 0)) ∧
    ((0 < x - y → IsRounded false (x - y) (fsub a b)) ∧ (x - y < 0 → IsRounded true (-(x - y)) (fsub a b)) ∧
      (x - y = 0 → fsub a b = .fin (na && !nb) 0 0)) ∧
    IsRounded (na != nb) |x * y| (fmul a b) ∧
    ((y ≠ 0 → IsRounded (na != nb) |x / y| (fdiv a b)) ∧ (y = 0 → x ≠ 0 → fdiv a b = .inf (na != nb)) ∧
      (y = 0 → x = 0 → fdiv a b = .nan)) ∧
    ((0 < x → IsRounded false (Real.sqrt x) (fsqrt a)) ∧ (x = 0 → fsqrt a = .fin na 0 0) ∧
      (x < 0 → fsqrt a = .nan)) ∧
    (flt a b = true ↔ x < y)) ∧
  (∀ k : Nat, IsRounded false k (i2f k) ∧ (k < 2 ^ 53 → f64Value (i2f k) = some (k : ℚ))) ∧
  (∀ (p q n : Bool) (m e : Nat),
    let v : F64 := .fin n m e
    (fadd (.inf p) (.inf q) = (if p = q then .inf p else .nan) ∧ fadd (.inf p) v = .inf p ∧ fadd v (.inf p) = .inf p) ∧
    (fsub (.inf p) (.inf q) = (if p = q then .nan else .inf p) ∧ fsub (.inf p) v = .inf p ∧
      fsub v (.inf p) = .inf (!p)) ∧
    (fmul (.inf p) (.inf q) = .inf (p != q) ∧ fmul (.inf p) v = (if m = 0 then .nan else .inf (p != n)) ∧
      fmul v (.inf p) = (if m = 0 then .nan else .inf (n != p))) ∧
    (fdiv (.inf p) (.inf q) = .nan ∧ fdiv (.inf p) v = .inf (p != n) ∧ fdiv v (.inf p) = .fin (n != p) 0 0) ∧
    (fsqrt (.inf false) = .inf false ∧ fsqrt (.inf true) = .nan) ∧
    (flt (.inf p) (.inf q) = (p && !q) ∧ flt (.inf p) v = p ∧ flt v (.inf p) = !p)) ∧
  ∀ v : F64, fadd .nan v = .nan ∧ fadd v .nan = .nan ∧ fsub .nan v = .nan ∧ fsub v .nan = .nan ∧ fmul .nan v = .nan ∧
    fmul v .nan = .nan ∧ fdiv .nan v = .nan ∧ fdiv v .nan = .nan ∧ fsqrt .nan = .nan ∧ flt .nan v = false ∧
    flt v .nan = false
end

