-- ==== Sys2Proof/Laws/Binary64.lean ====
section
/-!
SUPPORT. The arithmetic stays canonical: what rounding, unpacking and the operations built on rounding give has at most
53 significant bits, an exponent in range, and is normalized unless it is subnormal.
-/

namespace Sys2Proof.Machine

open Sys2Proof.Safety

theorem canonical_zero (neg : Bool) : f64Canonical (.fin neg 0 0) := ⟨by norm_num, by norm_num, Or.inr rfl⟩

theorem canonical_roundF64 (neg : Bool) (m : Nat) (x : Int) (sticky : Bool) : f64Canonical (roundF64 neg m x sticky) := by
  unfold roundF64
  split
  · exact canonical_zero neg
  · rename_i hm
    have hlo : 2 ^ m.log2 ≤ m := Nat.log2_self_le hm
    have hhi : m < 2 ^ (m.log2 + 1) := Nat.lt_log2_self
    generalize m.log2 = l at *
    dsimp only
    split
    · rename_i he
      split
      · rename_i hle
        generalize hk : (x - ((x + (l : Int) - 52).toNat : Int)).toNat = k
        have hk52 : l + k ≤ 52 := by omega
        have hup : m * 2 ^ k < 2 ^ 53 :=
          calc m * 2 ^ k < 2 ^ (l + 1) * 2 ^ k := Nat.mul_lt_mul_of_pos_right hhi (by positivity)
            _ = 2 ^ (l + 1 + k) := (pow_add 2 _ _).symm
            _ ≤ 2 ^ 53 := Nat.pow_le_pow_right (by norm_num) (by omega)
        refine ⟨by rwa [Nat.shiftLeft_eq], hle, ?_⟩
        by_cases hz : (x + (l : Int) - 52).toNat = 0
        · exact Or.inr hz
        · left
          have : l + k = 52 := by omega
          rw [Nat.shiftLeft_eq, ← this, pow_add]
          exact Nat.mul_le_mul_right _ hlo
      · trivial
    · rename_i he
      generalize hk : ((((x + (l : Int) - 52).toNat : Nat) : Int) - x).toNat = k
      have hq : m / 2 ^ k < 2 ^ 53 := by
        rw [Nat.div_lt_iff_lt_mul (by positivity), ← pow_add]
        exact hhi.trans_le (Nat.pow_le_pow_right (by norm_num) (by omega))
      have hq' : (x + (l : Int) - 52).toNat = 0 ∨ 2 ^ 52 ≤ m / 2 ^ k := by
        by_cases hz : (x + (l : Int) - 52).toNat = 0
        · exact Or.inl hz
        · right
          rw [Nat.le_div_iff_mul_le (by positivity), ← pow_add]
          exact (Nat.pow_le_pow_right (by norm_num) (by omega)).trans hlo
      generalize hb : (if roundsUp m k sticky = true then 1 else 0) = b
      have hb1 : b ≤ 1 := by rw [← hb]; split <;> omega
      generalize m / 2 ^ k = q at *
      by_cases h53 : q + b = 2 ^ 53
      · simp only [h53, if_true]
        split
        · rename_i hle
          exact ⟨by norm_num, hle, Or.inl (le_refl _)⟩
        · trivial
      · simp only [h53, if_false]
        split
        · rename_i hle
          exact ⟨by omega, hle, by omega⟩
        · trivial

theorem canonical_i2f (k : Nat) : f64Canonical (i2f k) := canonical_roundF64 _ _ _ _

theorem canonical_fadd (a b : F64) : f64Canonical (fadd a b) := by
  unfold fadd
  split <;> try trivial
  · dsimp only; split
    · exact canonical_zero _
    · exact canonical_roundF64 _ _ _ _
  · split <;> trivial

theorem canonical_fmul (a b : F64) : f64Canonical (fmul a b) := by
  unfold fmul
  split <;> try trivial
  · exact canonical_roundF64 _ _ _ _
  all_goals split <;> trivial

theorem canonical_fdiv (a b : F64) : f64Canonical (fdiv a b) := by
  unfold fdiv
  split <;> try trivial
  · split
    · split <;> trivial
    · exact canonical_roundF64 _ _ _ _

theorem canonical_fsqrt (a : F64) : f64Canonical (fsqrt a) := by
  unfold fsqrt
  split <;> try trivial
  · split <;> trivial
  · split
    · exact canonical_zero _
    · split
      · trivial
      · exact canonical_roundF64 _ _ _ _

theorem canonical_power (x : Cx) : f64Canonical (power x) := canonical_fadd _ _

theorem canonical_fmax {a b : F64} (ha : f64Canonical a) (hb : f64Canonical b) : f64Canonical (fmax a b) := by
  unfold fmax; split
  · exact hb
  · exact ha

theorem canonical_foldl {f : F64 → F64 → F64}
    (hf : ∀ a b, f64Canonical a → f64Canonical b → f64Canonical (f a b)) :
    ∀ (xs : List F64) (a : F64), f64Canonical a → (∀ x ∈ xs, f64Canonical x) → f64Canonical (xs.foldl f a)
  | [], _, ha, _ => ha
  | x :: xs, a, ha, h =>
    canonical_foldl hf xs (f a x) (hf a x ha (h x (List.mem_cons_self ..))) fun y hy => h y (List.mem_cons_of_mem _ hy)

theorem canonical_peakOf (xs : List Cx) : f64Canonical (peakOf (xs.map power)) :=
  canonical_foldl (fun _ _ => canonical_fmax) _ _ (canonical_zero false) fun y hy => by
    obtain ⟨x, _, rfl⟩ := List.mem_map.1 hy; exact canonical_power x

theorem canonical_clampRatio {r : F64} (h : f64Canonical r) : f64Canonical (clampRatio r) := by
  unfold clampRatio; split
  · exact canonical_i2f 1
  · exact h

/-! ### Comparison, as the values compare -/

/-- On finite numbers the comparison is the comparison of the exact values. -/
theorem flt_fin (na nb : Bool) (ma mb ea eb : Nat) :
    flt (.fin na ma ea) (.fin nb mb eb) = true ↔
      signedInt na (ma * 2 ^ ea) < signedInt nb (mb * 2 ^ eb) := by
  have hsplit : ∀ (n : Bool) (m e k : Nat), k ≤ e →
      signedInt n (m * 2 ^ e) = signedInt n (m <<< (e - k)) * 2 ^ k := fun n m e k hk => by
    have : m * 2 ^ e = m * 2 ^ (e - k) * 2 ^ k := by rw [mul_assoc, ← pow_add]; congr 2; omega
    cases n <;> simp [signedInt, Nat.shiftLeft_eq, this]
  rw [hsplit na ma ea _ (min_le_left ea eb), hsplit nb mb eb _ (min_le_right ea eb)]
  simp only [flt, decide_eq_true_eq]
  exact (Int.mul_lt_mul_right (by positivity)).symm

/-- On finite numbers the comparison is a linear order up to equal values. -/
theorem flt_trans_le {a b c : F64} (ha : isFinite a = true) (hb : isFinite b = true) (hc : isFinite c = true)
    (hab : flt b a = false) (hbc : flt c b = false) : flt c a = false := by
  cases a <;> cases b <;> cases c <;> simp only [isFinite, Bool.false_eq_true] at ha hb hc
  rw [← Bool.not_eq_true, flt_fin] at hab hbc ⊢
  omega

theorem flt_irrefl (a : F64) : flt a a = false := by
  cases a with
  | nan => rfl
  | inf n => cases n <;> rfl
  | fin n m e => rw [← Bool.not_eq_true, flt_fin]; omega

theorem flt_asymm {a b : F64} (ha : isFinite a = true) (hb : isFinite b = true) (h : flt a b = true) :
    flt b a = false := by
  cases a <;> cases b <;> simp only [isFinite, Bool.false_eq_true] at ha hb
  rw [flt_fin] at h
  rw [← Bool.not_eq_true, flt_fin]
  omega

end Sys2Proof.Machine
end

