-- ==== Sys2Proof/Laws/Memory.lean ====
section
/-!
SUPPORT. What the memory operations do, said once: every one keeps the canonical form, a read after a write gives the
value written, a write leaves every other address alone, and equal canonical memories are equal data.
-/

namespace Sys2Proof.Machine

/-! ### The canonical form -/

theorem memWf_cons (x : Host.Cell) (m : Mem) :
    memWf (x :: m) = true ↔ (∀ y ∈ m, x.1 < y.1) ∧ memWf m = true := by
  induction m generalizing x with
  | nil => simp [memWf]
  | cons y rest ih =>
    simp only [memWf, Bool.and_eq_true, decide_eq_true_eq, List.mem_cons, forall_eq_or_imp]
    constructor
    · rintro ⟨h, hw⟩
      exact ⟨⟨h, fun z hz => lt_trans h (((ih y).1 hw).1 z hz)⟩, hw⟩
    · rintro ⟨⟨h, -⟩, hw⟩
      exact ⟨h, hw⟩

theorem mem_memWrite {m : Mem} {a : Nat} {v : Byte} {c : Host.Cell} (h : c ∈ memWrite m a v) :
    c = (a, v) ∨ c ∈ m := by
  induction m with
  | nil => simpa [memWrite] using h
  | cons x rest ih =>
    rw [memWrite] at h
    split at h
    · simpa using h
    · split at h
      · rcases List.mem_cons.1 h with h | h <;> simp [h]
      · rcases List.mem_cons.1 h with h | h
        · simp [h]
        · rcases ih h with h | h <;> simp [h]

theorem memWf_memWrite {m : Mem} (a : Nat) (v : Byte) (h : memWf m = true) : memWf (memWrite m a v) = true := by
  induction m with
  | nil => rfl
  | cons x rest ih =>
    obtain ⟨hx, hr⟩ := (memWf_cons x rest).1 h
    rw [memWrite]
    split
    · next hlt =>
      refine (memWf_cons _ _).2 ⟨fun y hy => ?_, h⟩
      rcases List.mem_cons.1 hy with rfl | hy
      · exact hlt
      · exact lt_trans hlt (hx y hy)
    · split
      · next heq => exact (memWf_cons _ _).2 ⟨fun y hy => heq ▸ hx y hy, hr⟩
      · next hlt hne =>
        refine (memWf_cons _ _).2 ⟨fun y hy => ?_, ih hr⟩
        rcases mem_memWrite hy with rfl | hy
        · show x.1 < a
          omega
        · exact hx y hy

theorem memWf_memForget {m : Mem} (a n : Nat) (h : memWf m = true) : memWf (memForget m a n) = true := by
  induction m with
  | nil => rfl
  | cons x rest ih =>
    obtain ⟨hx, hr⟩ := (memWf_cons x rest).1 h
    have hrest : memWf (memForget rest a n) = true := ih hr
    unfold memForget at *
    rw [List.filter_cons]
    split
    · exact (memWf_cons _ _).2 ⟨fun y hy => hx y (List.mem_of_mem_filter hy), hrest⟩
    · exact hrest

theorem memWf_memWriteBytes (bs : List Byte) : ∀ (m : Mem) (a : Nat), memWf m = true →
    memWf (memWriteBytes m a bs) = true := by
  induction bs with
  | nil => intro m a h; exact h
  | cons b rest ih => intro m a h; exact ih _ _ (memWf_memWrite a b h)

theorem memWf_writeSamples {m : Mem} (c : CIdx) (xs : List Cx) (h : memWf m = true) :
    memWf (writeSamples m c xs) = true := memWf_memWriteBytes _ _ _ h

theorem memWf_writeBits {m : Mem} (b : BIdx) (bs : List Byte) (h : memWf m = true) :
    memWf (writeBits m b bs) = true := memWf_memWriteBytes _ _ _ h

theorem memWf_forgetSamples {m : Mem} (c : CIdx) (len : Nat) (h : memWf m = true) :
    memWf (forgetSamples m c len) = true := memWf_memForget _ _ h

theorem memWf_forgetBits {m : Mem} (b : BIdx) (n : Nat) (h : memWf m = true) :
    memWf (forgetBits m b n) = true := memWf_memForget _ _ h

/-! ### One byte -/

@[simp] theorem memRead_nil (a : Nat) : memRead [] a = none := rfl

theorem memRead_memWrite (m : Mem) (a : Nat) (v : Byte) (b : Nat) :
    memRead (memWrite m a v) b = if b = a then some v else memRead m b := by
  induction m with
  | nil => simp [memWrite, memRead]
  | cons x rest ih =>
    rw [memWrite]
    split
    · simp [memRead]
    · split
      · next heq => subst heq; simp only [memRead]; split <;> rfl
      · next hne =>
        simp only [memRead, ih]
        split
        · next hbx => rw [if_neg]; omega
        · rfl

theorem memRead_memForget (m : Mem) (a n b : Nat) :
    memRead (memForget m a n) b = if a ≤ b ∧ b < a + n then none else memRead m b := by
  induction m with
  | nil => simp [memForget]
  | cons x rest ih =>
    unfold memForget at *
    rw [List.filter_cons]
    split
    · next hk =>
      simp only [memRead, ih]
      simp only [Bool.or_eq_true, decide_eq_true_eq] at hk
      split
      · next hb => subst hb; rw [if_neg]; omega
      · rfl
    · next hk =>
      simp only [Bool.or_eq_true, decide_eq_true_eq] at hk
      rw [ih, memRead]
      split
      · rfl
      · rw [if_neg]; omega

theorem mem_of_memRead {m : Mem} {a : Nat} {v : Byte} (h : memRead m a = some v) : (a, v) ∈ m := by
  induction m with
  | nil => simp at h
  | cons x rest ih =>
    rw [memRead] at h
    split at h
    · next hx => obtain rfl := Option.some.inj h; subst hx; exact List.mem_cons_self
    · exact List.mem_cons_of_mem _ (ih h)

theorem memRead_of_mem {m : Mem} (hw : memWf m = true) {a : Nat} {v : Byte} (h : (a, v) ∈ m) :
    memRead m a = some v := by
  induction m with
  | nil => simp at h
  | cons x rest ih =>
    obtain ⟨hx, hr⟩ := (memWf_cons x rest).1 hw
    rw [memRead]
    rcases List.mem_cons.1 h with rfl | h
    · simp
    · have := hx _ h
      rw [if_neg (by simp only at this; omega), ih hr h]

/-- Two canonical memories that read the same at every address are the same list. -/
theorem mem_ext : ∀ {m m' : Mem}, memWf m = true → memWf m' = true → (∀ a, memRead m a = memRead m' a) → m = m'
  | [], [], _, _, _ => rfl
  | [], y :: _, _, _, h => by have := h y.1; simp [memRead] at this
  | x :: _, [], _, _, h => by have := h x.1; simp [memRead] at this
  | x :: m, y :: m', hw, hw', h => by
    obtain ⟨hx, hm⟩ := (memWf_cons x m).1 hw
    obtain ⟨hy, hm'⟩ := (memWf_cons y m').1 hw'
    have hxy : x.1 = y.1 := by
      have h1 := mem_of_memRead (m := y :: m') (a := x.1) (v := x.2) (by rw [← h]; simp [memRead])
      have h2 := mem_of_memRead (m := x :: m) (a := y.1) (v := y.2) (by rw [h]; simp [memRead])
      rcases List.mem_cons.1 h1 with h1 | h1
      · rw [← h1]
      · rcases List.mem_cons.1 h2 with h2 | h2
        · rw [← h2]
        · have := hy _ h1; have := hx _ h2; simp only at *; omega
    have hv : x.2 = y.2 := by
      have := h x.1
      simpa [memRead, hxy] using this
    have hrest : m = m' := mem_ext hm hm' fun a => by
      by_cases ha : a = x.1
      · have h1 : memRead m a = none := by
          by_contra hne
          obtain ⟨v, hv⟩ := Option.ne_none_iff_exists'.1 hne
          have := hx _ (mem_of_memRead hv); simp only at this; omega
        have h2 : memRead m' a = none := by
          by_contra hne
          obtain ⟨v, hv⟩ := Option.ne_none_iff_exists'.1 hne
          have := hy _ (mem_of_memRead hv); simp only at this; omega
        rw [h1, h2]
      · have := h a
        simpa [memRead, ha, hxy ▸ ha] using this
    exact List.cons_eq_cons.2 ⟨Prod.ext hxy hv, hrest⟩

/-! ### Runs of bytes -/

theorem memRead_memWriteBytes (bs : List Byte) : ∀ (m : Mem) (a b : Nat),
    memRead (memWriteBytes m a bs) b = if a ≤ b ∧ b < a + bs.length then bs[b - a]? else memRead m b := by
  induction bs with
  | nil => intro m a b; rw [memWriteBytes, if_neg (by simp)]
  | cons v rest ih =>
    intro m a b
    rw [memWriteBytes, ih, memRead_memWrite]
    by_cases h1 : a + 1 ≤ b ∧ b < a + 1 + rest.length
    · rw [if_pos h1, if_pos (by rw [List.length_cons]; omega)]
      have : b - a = b - (a + 1) + 1 := by omega
      rw [this, List.getElem?_cons_succ]
    · rw [if_neg h1]
      by_cases h2 : b = a
      · subst h2; simp
      · rw [if_neg h2, if_neg (by rw [List.length_cons]; omega)]

theorem mem_memWriteBytes (bs : List Byte) : ∀ {m : Mem} {a : Nat} {c : Host.Cell}, c ∈ memWriteBytes m a bs →
    (a ≤ c.1 ∧ c.1 < a + bs.length) ∨ c ∈ m := by
  induction bs with
  | nil => intro m a c h; exact Or.inr h
  | cons v rest ih =>
    intro m a c h
    rcases ih h with h | h
    · left; rw [List.length_cons]; omega
    · rcases mem_memWrite h with rfl | h
      · left; simp
      · exact Or.inr h

theorem memReadBytes_eq_some (m : Mem) : ∀ (n a : Nat) (bs : List Byte),
    memReadBytes m a n = some bs ↔ bs.length = n ∧ ∀ k < n, memRead m (a + k) = bs[k]? := by
  intro n
  induction n with
  | zero =>
    intro a bs
    rw [memReadBytes, Option.some.injEq, List.length_eq_zero_iff]
    exact ⟨fun h => ⟨h.symm, fun k hk => absurd hk (by omega)⟩, fun h => h.1.symm⟩
  | succ n ih =>
    intro a bs
    rw [memReadBytes]
    constructor
    · intro h
      split at h
      · simp at h
      · next b hb =>
        split at h
        · simp at h
        · next rest hrest =>
          obtain rfl := Option.some.inj h
          obtain ⟨hl, hk⟩ := (ih _ _).1 hrest
          refine ⟨by simp [hl], fun k hkn => ?_⟩
          cases k with
          | zero => simpa using hb
          | succ k =>
            have := hk k (by omega)
            rw [List.getElem?_cons_succ, ← this]
            congr 1
            omega
    · rintro ⟨hl, hk⟩
      obtain _ | ⟨b, rest⟩ := bs
      · simp at hl
      · have h0 : memRead m a = some b := by simpa using hk 0 (by omega)
        have hr : memReadBytes m (a + 1) n = some rest := (ih _ _).2 ⟨by simpa using hl, fun k hkn => by
          have := hk (k + 1) (by omega)
          rw [List.getElem?_cons_succ] at this
          rw [← this]
          congr 1
          omega⟩
        rw [h0, hr]

theorem memReadBytes_congr {m m' : Mem} {a n : Nat} (h : ∀ k < n, memRead m (a + k) = memRead m' (a + k)) :
    memReadBytes m a n = memReadBytes m' a n := by
  ext bs
  rw [memReadBytes_eq_some, memReadBytes_eq_some]
  constructor
  · rintro ⟨hl, hk⟩; exact ⟨hl, fun k hkn => by rw [← h k hkn, hk k hkn]⟩
  · rintro ⟨hl, hk⟩; exact ⟨hl, fun k hkn => by rw [h k hkn, hk k hkn]⟩

/-- Reading back the bytes just stored. -/
theorem memReadBytes_memWriteBytes (m : Mem) (a : Nat) (bs : List Byte) :
    memReadBytes (memWriteBytes m a bs) a bs.length = some bs := by
  refine (memReadBytes_eq_some _ _ _ _).2 ⟨rfl, fun k hk => ?_⟩
  rw [memRead_memWriteBytes, if_pos (by omega)]
  congr 1
  omega

/-! ### Little-endian values (20_memory R61) -/

@[simp] theorem length_bytesOf (n : Nat) : ∀ v : Word, (bytesOf n v).length = n := by
  induction n with
  | zero => intro v; rfl
  | succ n ih => intro v; simp [bytesOf, ih]

theorem getElem_bytesOf (n : Nat) : ∀ (v : Word) (k : Nat), k < n →
    (bytesOf n v)[k]? = some (v.extractLsb' (8 * k) 8) := by
  induction n with
  | zero => intro v k h; omega
  | succ n ih =>
    intro v k h
    cases k with
    | zero => simp [bytesOf]
    | succ k =>
      rw [bytesOf, List.getElem?_cons_succ, ih _ _ (by omega)]
      congr 1
      ext i hi
      simp only [BitVec.getElem_extractLsb', BitVec.getLsbD_ushiftRight]
      congr 1
      omega

theorem getLsbD_wordOf (bs : List Byte) : ∀ i : Nat, (wordOf bs).getLsbD i =
    (decide (i < 64) && match bs[i / 8]? with | some b => b.getLsbD (i % 8) | none => false) := by
  induction bs with
  | nil => intro i; simp [wordOf]
  | cons b rest ih =>
    intro i
    simp only [wordOf, BitVec.getLsbD_or, BitVec.getLsbD_shiftLeft, ih]
    by_cases h8 : i < 8
    · have h0 : i / 8 = 0 := by omega
      simp [h8, h0, Nat.mod_eq_of_lt h8]
    · have h1 : i / 8 = (i - 8) / 8 + 1 := by omega
      have h2 : (i - 8) % 8 = i % 8 := by omega
      have h3 : b.getLsbD i = false := BitVec.getLsbD_of_ge _ _ (by omega)
      by_cases h64 : i < 64
      · have h4 : i - 8 < 64 := by omega
        simp [h8, h64, h1, h2, h3, h4]
      · simp [h8, h64, h3]

/-- The value of the low n bytes is the value modulo 2^(8n). -/
theorem wordOf_bytesOf (n : Nat) (v : Word) :
    wordOf (bytesOf n v) = BitVec.ofNat 64 (v.toNat % 2 ^ (8 * n)) := by
  ext i hi
  rw [BitVec.getElem_eq_testBit_toNat, BitVec.getElem_eq_testBit_toNat, BitVec.toNat_ofNat,
    Nat.testBit_mod_two_pow, Nat.testBit_mod_two_pow, ← BitVec.getLsbD, getLsbD_wordOf]
  simp only [hi, decide_true, Bool.true_and]
  by_cases h : i < 8 * n
  · rw [getElem_bytesOf n v (i / 8) (by omega)]
    have h8 : i % 8 < 8 := by omega
    have hi8 : 8 * (i / 8) + i % 8 = i := by omega
    simp only [BitVec.getLsbD_extractLsb', h8, hi8, h, decide_true, Bool.true_and]
    rfl
  · rw [List.getElem?_eq_none (by rw [length_bytesOf]; omega)]
    simp [h]

@[simp] theorem wordOf_bytesOf_eight (v : Word) : wordOf (bytesOf 8 v) = v := by
  rw [wordOf_bytesOf 8, Nat.mod_eq_of_lt v.isLt, BitVec.ofNat_toNat, BitVec.setWidth_eq]

/-! ### Samples (20_memory R64) -/

@[simp] theorem length_cxBytes (x : Cx) : (cxBytes x).length = 16 := by simp [cxBytes]

@[simp] theorem length_samplesBytes (xs : List Cx) : (samplesBytes xs).length = 16 * xs.length := by
  induction xs with
  | nil => rfl
  | cons x rest ih => simp only [samplesBytes, List.flatMap_cons, List.length_append, length_cxBytes,
      List.length_cons] at *; omega

theorem memReadCx_congr {m m' : Mem} {a : Nat} (h : ∀ k < 16, memRead m (a + k) = memRead m' (a + k)) :
    memReadCx m a = memReadCx m' a := by
  have h1 : memReadWord m a = memReadWord m' a := by
    rw [memReadWord, memReadWord, memReadBytes_congr fun k hk => h k (by omega)]
  have h2 : memReadWord m (a + 8) = memReadWord m' (a + 8) := by
    rw [memReadWord, memReadWord, memReadBytes_congr fun k hk => ?_]
    rw [Nat.add_assoc]
    exact h (8 + k) (by omega)
  rw [memReadCx, memReadCx, h1, h2]

theorem memReadSamples_eq_some (m : Mem) : ∀ (n a : Nat) (xs : List Cx),
    memReadSamples m a n = some xs ↔ xs.length = n ∧ ∀ i < n, memReadCx m (a + 16 * i) = xs[i]? := by
  intro n
  induction n with
  | zero =>
    intro a xs
    rw [memReadSamples, Option.some.injEq, List.length_eq_zero_iff]
    exact ⟨fun h => ⟨h.symm, fun k hk => absurd hk (by omega)⟩, fun h => h.1.symm⟩
  | succ n ih =>
    intro a xs
    rw [memReadSamples]
    constructor
    · intro h
      split at h
      · simp at h
      · next x hx =>
        split at h
        · simp at h
        · next rest hrest =>
          obtain rfl := Option.some.inj h
          obtain ⟨hl, hk⟩ := (ih _ _).1 hrest
          refine ⟨by simp [hl], fun i hi => ?_⟩
          cases i with
          | zero => simpa using hx
          | succ i =>
            have := hk i (by omega)
            rw [List.getElem?_cons_succ, ← this]
            congr 1
            omega
    · rintro ⟨hl, hk⟩
      obtain _ | ⟨x, rest⟩ := xs
      · simp at hl
      · have h0 : memReadCx m a = some x := by simpa using hk 0 (by omega)
        have hr : memReadSamples m (a + 16) n = some rest := (ih _ _).2 ⟨by simpa using hl, fun i hi => by
          have := hk (i + 1) (by omega)
          rw [List.getElem?_cons_succ] at this
          rw [← this]
          congr 1
          omega⟩
        rw [h0, hr]

theorem readSamples_eq_some (m : Mem) (c : CIdx) (n : Nat) (xs : List Cx) :
    readSamples m c n = some xs ↔ xs.length = n ∧ ∀ i < n, memReadCx m (cbBase c + 16 * i) = xs[i]? :=
  memReadSamples_eq_some m n _ xs

theorem readBits_eq_some (m : Mem) (b : BIdx) (n : Nat) (bs : List Byte) :
    readBits m b n = some bs ↔ bs.length = n ∧ ∀ k < n, memRead m (bbBase b + k) = bs[k]? :=
  memReadBytes_eq_some m n _ bs

theorem memWriteBytes_append (as : List Byte) : ∀ (m : Mem) (a : Nat) (bs : List Byte),
    memWriteBytes m a (as ++ bs) = memWriteBytes (memWriteBytes m a as) (a + as.length) bs := by
  induction as with
  | nil => intro m a bs; simp [memWriteBytes]
  | cons v rest ih =>
    intro m a bs
    simp only [List.cons_append, memWriteBytes, ih, List.length_cons]
    congr 1
    omega

theorem memReadCx_memWriteBytes (m : Mem) (a : Nat) (x : Cx) :
    memReadCx (memWriteBytes m a (cxBytes x)) a = some x := by
  have hread : ∀ k < 16, memRead (memWriteBytes m a (cxBytes x)) (a + k) = (cxBytes x)[k]? := fun k hk => by
    rw [memRead_memWriteBytes, length_cxBytes, if_pos (by omega), Nat.add_sub_cancel_left]
  generalize memWriteBytes m a (cxBytes x) = m' at hread
  have hre : memReadBytes m' a 8 = some (bytesOf 8 x.re) :=
    (memReadBytes_eq_some _ _ _ _).2 ⟨length_bytesOf _ _, fun k hk => by
      rw [hread k (by omega), cxBytes, List.getElem?_append_left (by rw [length_bytesOf]; omega)]⟩
  have him : memReadBytes m' (a + 8) 8 = some (bytesOf 8 x.im) :=
    (memReadBytes_eq_some _ _ _ _).2 ⟨length_bytesOf _ _, fun k hk => by
      rw [Nat.add_assoc, hread (8 + k) (by omega), cxBytes,
        List.getElem?_append_right (by rw [length_bytesOf]; omega), length_bytesOf, Nat.add_sub_cancel_left]⟩
  simp only [memReadCx, memReadWord, hre, him, Option.map_some, wordOf_bytesOf_eight]

/-- Sample i after samples were stored is the i-th of them. -/
theorem memReadCx_samplesBytes (xs : List Cx) : ∀ (m : Mem) (a i : Nat), i < xs.length →
    memReadCx (memWriteBytes m a (samplesBytes xs)) (a + 16 * i) = xs[i]? := by
  induction xs with
  | nil => intro m a i h; simp at h
  | cons x rest ih =>
    intro m a i h
    have happ : samplesBytes (x :: rest) = cxBytes x ++ samplesBytes rest := rfl
    rw [happ, memWriteBytes_append, length_cxBytes]
    cases i with
    | zero =>
      have hcongr : memReadCx (memWriteBytes (memWriteBytes m a (cxBytes x)) (a + 16) (samplesBytes rest)) a
          = memReadCx (memWriteBytes m a (cxBytes x)) a :=
        memReadCx_congr fun k hk => by rw [memRead_memWriteBytes, if_neg (by omega)]
      exact hcongr.trans (memReadCx_memWriteBytes m a x)
    | succ i =>
      have ha : a + 16 * (i + 1) = a + 16 + 16 * i := by omega
      rw [List.getElem?_cons_succ, ha]
      exact ih (memWriteBytes m a (cxBytes x)) (a + 16) i (by simpa using h)

theorem readSamples_writeSamples (m : Mem) (c : CIdx) (xs : List Cx) :
    readSamples (writeSamples m c xs) c xs.length = some xs :=
  (readSamples_eq_some _ _ _ _).2 ⟨rfl, fun i hi => memReadCx_samplesBytes xs m _ i hi⟩

theorem readBits_writeBits (m : Mem) (b : BIdx) (bs : List Byte) :
    readBits (writeBits m b bs) b bs.length = some bs := memReadBytes_memWriteBytes m _ bs

/-- Storing samples leaves every byte outside them alone. -/
theorem memRead_writeSamples_of_outside (m : Mem) (c : CIdx) (xs : List Cx) (a : Nat)
    (h : a < cbBase c ∨ cbBase c + 16 * xs.length ≤ a) : memRead (writeSamples m c xs) a = memRead m a := by
  rw [writeSamples, memRead_memWriteBytes, if_neg]
  rw [length_samplesBytes]
  omega

/-- Storing bit bytes leaves every byte outside them alone. -/
theorem memRead_writeBits_of_outside (m : Mem) (b : BIdx) (bs : List Byte) (a : Nat)
    (h : a < bbBase b ∨ bbBase b + bs.length ≤ a) : memRead (writeBits m b bs) a = memRead m a := by
  rw [writeBits, memRead_memWriteBytes, if_neg]
  omega

end Sys2Proof.Machine
end

