-- ==== Sys2Proof/Laws/State.lean ====
section
/-!
SUPPORT. One lemma for each field of State under each named update: what the update writes there, or that it leaves it.
`completed` and `raised` are `finish` by their own two lemmas.
-/

namespace Sys2Proof.Machine

@[simp] theorem completed_eq (s : State) : completed s = finish .noError 0#4 0 s := rfl

@[simp] theorem raised_eq (r : Raise) (s : State) : raised r s = finish r.kind r.detail r.index s := rfl

@[simp] theorem finish_ie (k : ErrKind) (d : BitVec 4) (n : Nat) (s : State) : (finish k d n s).ie = s.ie := rfl
@[simp] theorem finish_status (k : ErrKind) (d : BitVec 4) (n : Nat) (s : State) :
    (finish k d n s).status = { s.status with busy := false, done := true, err := k, detail := d } := rfl
@[simp] theorem finish_cmd (k : ErrKind) (d : BitVec 4) (n : Nat) (s : State) : (finish k d n s).cmd = s.cmd := rfl
@[simp] theorem finish_cfgNsub (k : ErrKind) (d : BitVec 4) (n : Nat) (s : State) :
    (finish k d n s).cfgNsub = s.cfgNsub := rfl
@[simp] theorem finish_cfgNsym (k : ErrKind) (d : BitVec 4) (n : Nat) (s : State) :
    (finish k d n s).cfgNsym = s.cfgNsym := rfl
@[simp] theorem finish_cfgWavelet (k : ErrKind) (d : BitVec 4) (n : Nat) (s : State) :
    (finish k d n s).cfgWavelet = s.cfgWavelet := rfl
@[simp] theorem finish_snrDb (k : ErrKind) (d : BitVec 4) (n : Nat) (s : State) :
    (finish k d n s).snrDb = s.snrDb := rfl
@[simp] theorem finish_noiseSeed (k : ErrKind) (d : BitVec 4) (n : Nat) (s : State) :
    (finish k d n s).noiseSeed = s.noiseSeed := rfl
@[simp] theorem finish_noiseCtr (k : ErrKind) (d : BitVec 4) (n : Nat) (s : State) :
    (finish k d n s).noiseCtr = s.noiseCtr := rfl
@[simp] theorem finish_noiseVar (k : ErrKind) (d : BitVec 4) (n : Nat) (s : State) :
    (finish k d n s).noiseVar = s.noiseVar := rfl
@[simp] theorem finish_paprDb (k : ErrKind) (d : BitVec 4) (n : Nat) (s : State) :
    (finish k d n s).paprDb = s.paprDb := rfl
@[simp] theorem finish_peakPwr (k : ErrKind) (d : BitVec 4) (n : Nat) (s : State) :
    (finish k d n s).peakPwr = s.peakPwr := rfl
@[simp] theorem finish_meanPwr (k : ErrKind) (d : BitVec 4) (n : Nat) (s : State) :
    (finish k d n s).meanPwr = s.meanPwr := rfl
@[simp] theorem finish_errBits (k : ErrKind) (d : BitVec 4) (n : Nat) (s : State) :
    (finish k d n s).errBits = s.errBits := rfl
@[simp] theorem finish_totalBits (k : ErrKind) (d : BitVec 4) (n : Nat) (s : State) :
    (finish k d n s).totalBits = s.totalBits := rfl
@[simp] theorem finish_ber (k : ErrKind) (d : BitVec 4) (n : Nat) (s : State) : (finish k d n s).ber = s.ber := rfl
@[simp] theorem finish_errIndex (k : ErrKind) (d : BitVec 4) (n : Nat) (s : State) :
    (finish k d n s).errIndex = BitVec.ofNat 64 n := rfl
@[simp] theorem finish_heldErrIndex (k : ErrKind) (d : BitVec 4) (n : Nat) (s : State) :
    (finish k d n s).heldErrIndex = s.heldErrIndex := rfl
@[simp] theorem finish_mem (k : ErrKind) (d : BitVec 4) (n : Nat) (s : State) : (finish k d n s).mem = s.mem := rfl
@[simp] theorem finish_refusalMark (k : ErrKind) (d : BitVec 4) (n : Nat) (s : State) :
    (finish k d n s).refusalMark = s.refusalMark := rfl
@[simp] theorem finish_inputs (k : ErrKind) (d : BitVec 4) (n : Nat) (s : State) :
    (finish k d n s).inputs = s.inputs := rfl
@[simp] theorem finish_responses (k : ErrKind) (d : BitVec 4) (n : Nat) (s : State) :
    (finish k d n s).responses = s.responses := rfl
@[simp] theorem finish_patience (k : ErrKind) (d : BitVec 4) (n : Nat) (s : State) :
    (finish k d n s).patience = 0 := rfl
@[simp] theorem finish_draws (k : ErrKind) (d : BitVec 4) (n : Nat) (s : State) :
    (finish k d n s).draws = s.draws + 1 := rfl

@[simp] theorem acknowledge_ie (s : State) : (acknowledge s).ie = s.ie := rfl
@[simp] theorem acknowledge_status (s : State) : (acknowledge s).status = { s.status with done := false } := rfl
@[simp] theorem acknowledge_cmd (s : State) : (acknowledge s).cmd = s.cmd := rfl
@[simp] theorem acknowledge_cfgNsub (s : State) : (acknowledge s).cfgNsub = s.cfgNsub := rfl
@[simp] theorem acknowledge_cfgNsym (s : State) : (acknowledge s).cfgNsym = s.cfgNsym := rfl
@[simp] theorem acknowledge_cfgWavelet (s : State) : (acknowledge s).cfgWavelet = s.cfgWavelet := rfl
@[simp] theorem acknowledge_snrDb (s : State) : (acknowledge s).snrDb = s.snrDb := rfl
@[simp] theorem acknowledge_noiseSeed (s : State) : (acknowledge s).noiseSeed = s.noiseSeed := rfl
@[simp] theorem acknowledge_noiseCtr (s : State) : (acknowledge s).noiseCtr = s.noiseCtr := rfl
@[simp] theorem acknowledge_noiseVar (s : State) : (acknowledge s).noiseVar = s.noiseVar := rfl
@[simp] theorem acknowledge_paprDb (s : State) : (acknowledge s).paprDb = s.paprDb := rfl
@[simp] theorem acknowledge_peakPwr (s : State) : (acknowledge s).peakPwr = s.peakPwr := rfl
@[simp] theorem acknowledge_meanPwr (s : State) : (acknowledge s).meanPwr = s.meanPwr := rfl
@[simp] theorem acknowledge_errBits (s : State) : (acknowledge s).errBits = s.errBits := rfl
@[simp] theorem acknowledge_totalBits (s : State) : (acknowledge s).totalBits = s.totalBits := rfl
@[simp] theorem acknowledge_ber (s : State) : (acknowledge s).ber = s.ber := rfl
@[simp] theorem acknowledge_errIndex (s : State) : (acknowledge s).errIndex = s.errIndex := rfl
@[simp] theorem acknowledge_heldErrIndex (s : State) : (acknowledge s).heldErrIndex = s.heldErrIndex := rfl
@[simp] theorem acknowledge_mem (s : State) : (acknowledge s).mem = s.mem := rfl
@[simp] theorem acknowledge_refusalMark (s : State) : (acknowledge s).refusalMark = s.refusalMark := rfl
@[simp] theorem acknowledge_inputs (s : State) : (acknowledge s).inputs = s.inputs := rfl
@[simp] theorem acknowledge_responses (s : State) : (acknowledge s).responses = s.responses := rfl
@[simp] theorem acknowledge_patience (s : State) : (acknowledge s).patience = s.patience := rfl
@[simp] theorem acknowledge_draws (s : State) : (acknowledge s).draws = s.draws := rfl

@[simp] theorem clearHaz_ie (s : State) : (clearHaz s).ie = s.ie := rfl
@[simp] theorem clearHaz_status (s : State) : (clearHaz s).status = { s.status with haz := false } := rfl
@[simp] theorem clearHaz_cmd (s : State) : (clearHaz s).cmd = s.cmd := rfl
@[simp] theorem clearHaz_cfgNsub (s : State) : (clearHaz s).cfgNsub = s.cfgNsub := rfl
@[simp] theorem clearHaz_cfgNsym (s : State) : (clearHaz s).cfgNsym = s.cfgNsym := rfl
@[simp] theorem clearHaz_cfgWavelet (s : State) : (clearHaz s).cfgWavelet = s.cfgWavelet := rfl
@[simp] theorem clearHaz_snrDb (s : State) : (clearHaz s).snrDb = s.snrDb := rfl
@[simp] theorem clearHaz_noiseSeed (s : State) : (clearHaz s).noiseSeed = s.noiseSeed := rfl
@[simp] theorem clearHaz_noiseCtr (s : State) : (clearHaz s).noiseCtr = s.noiseCtr := rfl
@[simp] theorem clearHaz_noiseVar (s : State) : (clearHaz s).noiseVar = s.noiseVar := rfl
@[simp] theorem clearHaz_paprDb (s : State) : (clearHaz s).paprDb = s.paprDb := rfl
@[simp] theorem clearHaz_peakPwr (s : State) : (clearHaz s).peakPwr = s.peakPwr := rfl
@[simp] theorem clearHaz_meanPwr (s : State) : (clearHaz s).meanPwr = s.meanPwr := rfl
@[simp] theorem clearHaz_errBits (s : State) : (clearHaz s).errBits = s.errBits := rfl
@[simp] theorem clearHaz_totalBits (s : State) : (clearHaz s).totalBits = s.totalBits := rfl
@[simp] theorem clearHaz_ber (s : State) : (clearHaz s).ber = s.ber := rfl
@[simp] theorem clearHaz_errIndex (s : State) : (clearHaz s).errIndex = s.errIndex := rfl
@[simp] theorem clearHaz_heldErrIndex (s : State) : (clearHaz s).heldErrIndex = s.heldErrIndex := rfl
@[simp] theorem clearHaz_mem (s : State) : (clearHaz s).mem = s.mem := rfl
@[simp] theorem clearHaz_refusalMark (s : State) : (clearHaz s).refusalMark = s.refusalMark := rfl
@[simp] theorem clearHaz_inputs (s : State) : (clearHaz s).inputs = s.inputs := rfl
@[simp] theorem clearHaz_responses (s : State) : (clearHaz s).responses = s.responses := rfl
@[simp] theorem clearHaz_patience (s : State) : (clearHaz s).patience = s.patience := rfl
@[simp] theorem clearHaz_draws (s : State) : (clearHaz s).draws = s.draws := rfl

@[simp] theorem dropVar_ie (s : State) : (dropVar s).ie = s.ie := rfl
@[simp] theorem dropVar_status (s : State) : (dropVar s).status = { s.status with varValid := false } := rfl
@[simp] theorem dropVar_cmd (s : State) : (dropVar s).cmd = s.cmd := rfl
@[simp] theorem dropVar_cfgNsub (s : State) : (dropVar s).cfgNsub = s.cfgNsub := rfl
@[simp] theorem dropVar_cfgNsym (s : State) : (dropVar s).cfgNsym = s.cfgNsym := rfl
@[simp] theorem dropVar_cfgWavelet (s : State) : (dropVar s).cfgWavelet = s.cfgWavelet := rfl
@[simp] theorem dropVar_snrDb (s : State) : (dropVar s).snrDb = s.snrDb := rfl
@[simp] theorem dropVar_noiseSeed (s : State) : (dropVar s).noiseSeed = s.noiseSeed := rfl
@[simp] theorem dropVar_noiseCtr (s : State) : (dropVar s).noiseCtr = s.noiseCtr := rfl
@[simp] theorem dropVar_noiseVar (s : State) : (dropVar s).noiseVar = s.noiseVar := rfl
@[simp] theorem dropVar_paprDb (s : State) : (dropVar s).paprDb = s.paprDb := rfl
@[simp] theorem dropVar_peakPwr (s : State) : (dropVar s).peakPwr = s.peakPwr := rfl
@[simp] theorem dropVar_meanPwr (s : State) : (dropVar s).meanPwr = s.meanPwr := rfl
@[simp] theorem dropVar_errBits (s : State) : (dropVar s).errBits = s.errBits := rfl
@[simp] theorem dropVar_totalBits (s : State) : (dropVar s).totalBits = s.totalBits := rfl
@[simp] theorem dropVar_ber (s : State) : (dropVar s).ber = s.ber := rfl
@[simp] theorem dropVar_errIndex (s : State) : (dropVar s).errIndex = s.errIndex := rfl
@[simp] theorem dropVar_heldErrIndex (s : State) : (dropVar s).heldErrIndex = s.heldErrIndex := rfl
@[simp] theorem dropVar_mem (s : State) : (dropVar s).mem = s.mem := rfl
@[simp] theorem dropVar_refusalMark (s : State) : (dropVar s).refusalMark = s.refusalMark := rfl
@[simp] theorem dropVar_inputs (s : State) : (dropVar s).inputs = s.inputs := rfl
@[simp] theorem dropVar_responses (s : State) : (dropVar s).responses = s.responses := rfl
@[simp] theorem dropVar_patience (s : State) : (dropVar s).patience = s.patience := rfl
@[simp] theorem dropVar_draws (s : State) : (dropVar s).draws = s.draws := rfl

@[simp] theorem dropPapr_ie (s : State) : (dropPapr s).ie = s.ie := rfl
@[simp] theorem dropPapr_status (s : State) : (dropPapr s).status = { s.status with paprValid := false } := rfl
@[simp] theorem dropPapr_cmd (s : State) : (dropPapr s).cmd = s.cmd := rfl
@[simp] theorem dropPapr_cfgNsub (s : State) : (dropPapr s).cfgNsub = s.cfgNsub := rfl
@[simp] theorem dropPapr_cfgNsym (s : State) : (dropPapr s).cfgNsym = s.cfgNsym := rfl
@[simp] theorem dropPapr_cfgWavelet (s : State) : (dropPapr s).cfgWavelet = s.cfgWavelet := rfl
@[simp] theorem dropPapr_snrDb (s : State) : (dropPapr s).snrDb = s.snrDb := rfl
@[simp] theorem dropPapr_noiseSeed (s : State) : (dropPapr s).noiseSeed = s.noiseSeed := rfl
@[simp] theorem dropPapr_noiseCtr (s : State) : (dropPapr s).noiseCtr = s.noiseCtr := rfl
@[simp] theorem dropPapr_noiseVar (s : State) : (dropPapr s).noiseVar = s.noiseVar := rfl
@[simp] theorem dropPapr_paprDb (s : State) : (dropPapr s).paprDb = s.paprDb := rfl
@[simp] theorem dropPapr_peakPwr (s : State) : (dropPapr s).peakPwr = s.peakPwr := rfl
@[simp] theorem dropPapr_meanPwr (s : State) : (dropPapr s).meanPwr = s.meanPwr := rfl
@[simp] theorem dropPapr_errBits (s : State) : (dropPapr s).errBits = s.errBits := rfl
@[simp] theorem dropPapr_totalBits (s : State) : (dropPapr s).totalBits = s.totalBits := rfl
@[simp] theorem dropPapr_ber (s : State) : (dropPapr s).ber = s.ber := rfl
@[simp] theorem dropPapr_errIndex (s : State) : (dropPapr s).errIndex = s.errIndex := rfl
@[simp] theorem dropPapr_heldErrIndex (s : State) : (dropPapr s).heldErrIndex = s.heldErrIndex := rfl
@[simp] theorem dropPapr_mem (s : State) : (dropPapr s).mem = s.mem := rfl
@[simp] theorem dropPapr_refusalMark (s : State) : (dropPapr s).refusalMark = s.refusalMark := rfl
@[simp] theorem dropPapr_inputs (s : State) : (dropPapr s).inputs = s.inputs := rfl
@[simp] theorem dropPapr_responses (s : State) : (dropPapr s).responses = s.responses := rfl
@[simp] theorem dropPapr_patience (s : State) : (dropPapr s).patience = s.patience := rfl
@[simp] theorem dropPapr_draws (s : State) : (dropPapr s).draws = s.draws := rfl

@[simp] theorem dropBer_ie (s : State) : (dropBer s).ie = s.ie := rfl
@[simp] theorem dropBer_status (s : State) : (dropBer s).status = { s.status with berValid := false } := rfl
@[simp] theorem dropBer_cmd (s : State) : (dropBer s).cmd = s.cmd := rfl
@[simp] theorem dropBer_cfgNsub (s : State) : (dropBer s).cfgNsub = s.cfgNsub := rfl
@[simp] theorem dropBer_cfgNsym (s : State) : (dropBer s).cfgNsym = s.cfgNsym := rfl
@[simp] theorem dropBer_cfgWavelet (s : State) : (dropBer s).cfgWavelet = s.cfgWavelet := rfl
@[simp] theorem dropBer_snrDb (s : State) : (dropBer s).snrDb = s.snrDb := rfl
@[simp] theorem dropBer_noiseSeed (s : State) : (dropBer s).noiseSeed = s.noiseSeed := rfl
@[simp] theorem dropBer_noiseCtr (s : State) : (dropBer s).noiseCtr = s.noiseCtr := rfl
@[simp] theorem dropBer_noiseVar (s : State) : (dropBer s).noiseVar = s.noiseVar := rfl
@[simp] theorem dropBer_paprDb (s : State) : (dropBer s).paprDb = s.paprDb := rfl
@[simp] theorem dropBer_peakPwr (s : State) : (dropBer s).peakPwr = s.peakPwr := rfl
@[simp] theorem dropBer_meanPwr (s : State) : (dropBer s).meanPwr = s.meanPwr := rfl
@[simp] theorem dropBer_errBits (s : State) : (dropBer s).errBits = s.errBits := rfl
@[simp] theorem dropBer_totalBits (s : State) : (dropBer s).totalBits = s.totalBits := rfl
@[simp] theorem dropBer_ber (s : State) : (dropBer s).ber = s.ber := rfl
@[simp] theorem dropBer_errIndex (s : State) : (dropBer s).errIndex = s.errIndex := rfl
@[simp] theorem dropBer_heldErrIndex (s : State) : (dropBer s).heldErrIndex = s.heldErrIndex := rfl
@[simp] theorem dropBer_mem (s : State) : (dropBer s).mem = s.mem := rfl
@[simp] theorem dropBer_refusalMark (s : State) : (dropBer s).refusalMark = s.refusalMark := rfl
@[simp] theorem dropBer_inputs (s : State) : (dropBer s).inputs = s.inputs := rfl
@[simp] theorem dropBer_responses (s : State) : (dropBer s).responses = s.responses := rfl
@[simp] theorem dropBer_patience (s : State) : (dropBer s).patience = s.patience := rfl
@[simp] theorem dropBer_draws (s : State) : (dropBer s).draws = s.draws := rfl

@[simp] theorem commitVar_ie (v : Word) (s : State) : (commitVar v s).ie = s.ie := rfl
@[simp] theorem commitVar_status (v : Word) (s : State) :
    (commitVar v s).status = { s.status with varValid := true } := rfl
@[simp] theorem commitVar_cmd (v : Word) (s : State) : (commitVar v s).cmd = s.cmd := rfl
@[simp] theorem commitVar_cfgNsub (v : Word) (s : State) : (commitVar v s).cfgNsub = s.cfgNsub := rfl
@[simp] theorem commitVar_cfgNsym (v : Word) (s : State) : (commitVar v s).cfgNsym = s.cfgNsym := rfl
@[simp] theorem commitVar_cfgWavelet (v : Word) (s : State) : (commitVar v s).cfgWavelet = s.cfgWavelet := rfl
@[simp] theorem commitVar_snrDb (v : Word) (s : State) : (commitVar v s).snrDb = s.snrDb := rfl
@[simp] theorem commitVar_noiseSeed (v : Word) (s : State) : (commitVar v s).noiseSeed = s.noiseSeed := rfl
@[simp] theorem commitVar_noiseCtr (v : Word) (s : State) : (commitVar v s).noiseCtr = s.noiseCtr := rfl
@[simp] theorem commitVar_noiseVar (v : Word) (s : State) : (commitVar v s).noiseVar = v := rfl
@[simp] theorem commitVar_paprDb (v : Word) (s : State) : (commitVar v s).paprDb = s.paprDb := rfl
@[simp] theorem commitVar_peakPwr (v : Word) (s : State) : (commitVar v s).peakPwr = s.peakPwr := rfl
@[simp] theorem commitVar_meanPwr (v : Word) (s : State) : (commitVar v s).meanPwr = s.meanPwr := rfl
@[simp] theorem commitVar_errBits (v : Word) (s : State) : (commitVar v s).errBits = s.errBits := rfl
@[simp] theorem commitVar_totalBits (v : Word) (s : State) : (commitVar v s).totalBits = s.totalBits := rfl
@[simp] theorem commitVar_ber (v : Word) (s : State) : (commitVar v s).ber = s.ber := rfl
@[simp] theorem commitVar_errIndex (v : Word) (s : State) : (commitVar v s).errIndex = s.errIndex := rfl
@[simp] theorem commitVar_heldErrIndex (v : Word) (s : State) : (commitVar v s).heldErrIndex = s.heldErrIndex := rfl
@[simp] theorem commitVar_mem (v : Word) (s : State) : (commitVar v s).mem = s.mem := rfl
@[simp] theorem commitVar_refusalMark (v : Word) (s : State) : (commitVar v s).refusalMark = s.refusalMark := rfl
@[simp] theorem commitVar_inputs (v : Word) (s : State) : (commitVar v s).inputs = s.inputs := rfl
@[simp] theorem commitVar_responses (v : Word) (s : State) : (commitVar v s).responses = s.responses := rfl
@[simp] theorem commitVar_patience (v : Word) (s : State) : (commitVar v s).patience = s.patience := rfl
@[simp] theorem commitVar_draws (v : Word) (s : State) : (commitVar v s).draws = s.draws := rfl

@[simp] theorem commitCtr_ie (c : Word) (s : State) : (commitCtr c s).ie = s.ie := rfl
@[simp] theorem commitCtr_status (c : Word) (s : State) : (commitCtr c s).status = s.status := rfl
@[simp] theorem commitCtr_cmd (c : Word) (s : State) : (commitCtr c s).cmd = s.cmd := rfl
@[simp] theorem commitCtr_cfgNsub (c : Word) (s : State) : (commitCtr c s).cfgNsub = s.cfgNsub := rfl
@[simp] theorem commitCtr_cfgNsym (c : Word) (s : State) : (commitCtr c s).cfgNsym = s.cfgNsym := rfl
@[simp] theorem commitCtr_cfgWavelet (c : Word) (s : State) : (commitCtr c s).cfgWavelet = s.cfgWavelet := rfl
@[simp] theorem commitCtr_snrDb (c : Word) (s : State) : (commitCtr c s).snrDb = s.snrDb := rfl
@[simp] theorem commitCtr_noiseSeed (c : Word) (s : State) : (commitCtr c s).noiseSeed = s.noiseSeed := rfl
@[simp] theorem commitCtr_noiseCtr (c : Word) (s : State) : (commitCtr c s).noiseCtr = c := rfl
@[simp] theorem commitCtr_noiseVar (c : Word) (s : State) : (commitCtr c s).noiseVar = s.noiseVar := rfl
@[simp] theorem commitCtr_paprDb (c : Word) (s : State) : (commitCtr c s).paprDb = s.paprDb := rfl
@[simp] theorem commitCtr_peakPwr (c : Word) (s : State) : (commitCtr c s).peakPwr = s.peakPwr := rfl
@[simp] theorem commitCtr_meanPwr (c : Word) (s : State) : (commitCtr c s).meanPwr = s.meanPwr := rfl
@[simp] theorem commitCtr_errBits (c : Word) (s : State) : (commitCtr c s).errBits = s.errBits := rfl
@[simp] theorem commitCtr_totalBits (c : Word) (s : State) : (commitCtr c s).totalBits = s.totalBits := rfl
@[simp] theorem commitCtr_ber (c : Word) (s : State) : (commitCtr c s).ber = s.ber := rfl
@[simp] theorem commitCtr_errIndex (c : Word) (s : State) : (commitCtr c s).errIndex = s.errIndex := rfl
@[simp] theorem commitCtr_heldErrIndex (c : Word) (s : State) : (commitCtr c s).heldErrIndex = s.heldErrIndex := rfl
@[simp] theorem commitCtr_mem (c : Word) (s : State) : (commitCtr c s).mem = s.mem := rfl
@[simp] theorem commitCtr_refusalMark (c : Word) (s : State) : (commitCtr c s).refusalMark = s.refusalMark := rfl
@[simp] theorem commitCtr_inputs (c : Word) (s : State) : (commitCtr c s).inputs = s.inputs := rfl
@[simp] theorem commitCtr_responses (c : Word) (s : State) : (commitCtr c s).responses = s.responses := rfl
@[simp] theorem commitCtr_patience (c : Word) (s : State) : (commitCtr c s).patience = s.patience := rfl
@[simp] theorem commitCtr_draws (c : Word) (s : State) : (commitCtr c s).draws = s.draws := rfl

@[simp] theorem commitPapr_ie (a b c : Word) (s : State) : (commitPapr a b c s).ie = s.ie := rfl
@[simp] theorem commitPapr_status (a b c : Word) (s : State) :
    (commitPapr a b c s).status = { s.status with paprValid := true } := rfl
@[simp] theorem commitPapr_cmd (a b c : Word) (s : State) : (commitPapr a b c s).cmd = s.cmd := rfl
@[simp] theorem commitPapr_cfgNsub (a b c : Word) (s : State) : (commitPapr a b c s).cfgNsub = s.cfgNsub := rfl
@[simp] theorem commitPapr_cfgNsym (a b c : Word) (s : State) : (commitPapr a b c s).cfgNsym = s.cfgNsym := rfl
@[simp] theorem commitPapr_cfgWavelet (a b c : Word) (s : State) :
    (commitPapr a b c s).cfgWavelet = s.cfgWavelet := rfl
@[simp] theorem commitPapr_snrDb (a b c : Word) (s : State) : (commitPapr a b c s).snrDb = s.snrDb := rfl
@[simp] theorem commitPapr_noiseSeed (a b c : Word) (s : State) : (commitPapr a b c s).noiseSeed = s.noiseSeed := rfl
@[simp] theorem commitPapr_noiseCtr (a b c : Word) (s : State) : (commitPapr a b c s).noiseCtr = s.noiseCtr := rfl
@[simp] theorem commitPapr_noiseVar (a b c : Word) (s : State) : (commitPapr a b c s).noiseVar = s.noiseVar := rfl
@[simp] theorem commitPapr_paprDb (a b c : Word) (s : State) : (commitPapr a b c s).paprDb = a := rfl
@[simp] theorem commitPapr_peakPwr (a b c : Word) (s : State) : (commitPapr a b c s).peakPwr = b := rfl
@[simp] theorem commitPapr_meanPwr (a b c : Word) (s : State) : (commitPapr a b c s).meanPwr = c := rfl
@[simp] theorem commitPapr_errBits (a b c : Word) (s : State) : (commitPapr a b c s).errBits = s.errBits := rfl
@[simp] theorem commitPapr_totalBits (a b c : Word) (s : State) : (commitPapr a b c s).totalBits = s.totalBits := rfl
@[simp] theorem commitPapr_ber (a b c : Word) (s : State) : (commitPapr a b c s).ber = s.ber := rfl
@[simp] theorem commitPapr_errIndex (a b c : Word) (s : State) : (commitPapr a b c s).errIndex = s.errIndex := rfl
@[simp] theorem commitPapr_heldErrIndex (a b c : Word) (s : State) :
    (commitPapr a b c s).heldErrIndex = s.heldErrIndex := rfl
@[simp] theorem commitPapr_mem (a b c : Word) (s : State) : (commitPapr a b c s).mem = s.mem := rfl
@[simp] theorem commitPapr_refusalMark (a b c : Word) (s : State) :
    (commitPapr a b c s).refusalMark = s.refusalMark := rfl
@[simp] theorem commitPapr_inputs (a b c : Word) (s : State) : (commitPapr a b c s).inputs = s.inputs := rfl
@[simp] theorem commitPapr_responses (a b c : Word) (s : State) : (commitPapr a b c s).responses = s.responses := rfl
@[simp] theorem commitPapr_patience (a b c : Word) (s : State) : (commitPapr a b c s).patience = s.patience := rfl
@[simp] theorem commitPapr_draws (a b c : Word) (s : State) : (commitPapr a b c s).draws = s.draws := rfl

@[simp] theorem commitBer_ie (a b c : Word) (s : State) : (commitBer a b c s).ie = s.ie := rfl
@[simp] theorem commitBer_status (a b c : Word) (s : State) :
    (commitBer a b c s).status = { s.status with berValid := true } := rfl
@[simp] theorem commitBer_cmd (a b c : Word) (s : State) : (commitBer a b c s).cmd = s.cmd := rfl
@[simp] theorem commitBer_cfgNsub (a b c : Word) (s : State) : (commitBer a b c s).cfgNsub = s.cfgNsub := rfl
@[simp] theorem commitBer_cfgNsym (a b c : Word) (s : State) : (commitBer a b c s).cfgNsym = s.cfgNsym := rfl
@[simp] theorem commitBer_cfgWavelet (a b c : Word) (s : State) : (commitBer a b c s).cfgWavelet = s.cfgWavelet := rfl
@[simp] theorem commitBer_snrDb (a b c : Word) (s : State) : (commitBer a b c s).snrDb = s.snrDb := rfl
@[simp] theorem commitBer_noiseSeed (a b c : Word) (s : State) : (commitBer a b c s).noiseSeed = s.noiseSeed := rfl
@[simp] theorem commitBer_noiseCtr (a b c : Word) (s : State) : (commitBer a b c s).noiseCtr = s.noiseCtr := rfl
@[simp] theorem commitBer_noiseVar (a b c : Word) (s : State) : (commitBer a b c s).noiseVar = s.noiseVar := rfl
@[simp] theorem commitBer_paprDb (a b c : Word) (s : State) : (commitBer a b c s).paprDb = s.paprDb := rfl
@[simp] theorem commitBer_peakPwr (a b c : Word) (s : State) : (commitBer a b c s).peakPwr = s.peakPwr := rfl
@[simp] theorem commitBer_meanPwr (a b c : Word) (s : State) : (commitBer a b c s).meanPwr = s.meanPwr := rfl
@[simp] theorem commitBer_errBits (a b c : Word) (s : State) : (commitBer a b c s).errBits = a := rfl
@[simp] theorem commitBer_totalBits (a b c : Word) (s : State) : (commitBer a b c s).totalBits = b := rfl
@[simp] theorem commitBer_ber (a b c : Word) (s : State) : (commitBer a b c s).ber = c := rfl
@[simp] theorem commitBer_errIndex (a b c : Word) (s : State) : (commitBer a b c s).errIndex = s.errIndex := rfl
@[simp] theorem commitBer_heldErrIndex (a b c : Word) (s : State) :
    (commitBer a b c s).heldErrIndex = s.heldErrIndex := rfl
@[simp] theorem commitBer_mem (a b c : Word) (s : State) : (commitBer a b c s).mem = s.mem := rfl
@[simp] theorem commitBer_refusalMark (a b c : Word) (s : State) :
    (commitBer a b c s).refusalMark = s.refusalMark := rfl
@[simp] theorem commitBer_inputs (a b c : Word) (s : State) : (commitBer a b c s).inputs = s.inputs := rfl
@[simp] theorem commitBer_responses (a b c : Word) (s : State) : (commitBer a b c s).responses = s.responses := rfl
@[simp] theorem commitBer_patience (a b c : Word) (s : State) : (commitBer a b c s).patience = s.patience := rfl
@[simp] theorem commitBer_draws (a b c : Word) (s : State) : (commitBer a b c s).draws = s.draws := rfl

@[simp] theorem commitMem_ie (m : Mem) (s : State) : (commitMem m s).ie = s.ie := rfl
@[simp] theorem commitMem_status (m : Mem) (s : State) : (commitMem m s).status = s.status := rfl
@[simp] theorem commitMem_cmd (m : Mem) (s : State) : (commitMem m s).cmd = s.cmd := rfl
@[simp] theorem commitMem_cfgNsub (m : Mem) (s : State) : (commitMem m s).cfgNsub = s.cfgNsub := rfl
@[simp] theorem commitMem_cfgNsym (m : Mem) (s : State) : (commitMem m s).cfgNsym = s.cfgNsym := rfl
@[simp] theorem commitMem_cfgWavelet (m : Mem) (s : State) : (commitMem m s).cfgWavelet = s.cfgWavelet := rfl
@[simp] theorem commitMem_snrDb (m : Mem) (s : State) : (commitMem m s).snrDb = s.snrDb := rfl
@[simp] theorem commitMem_noiseSeed (m : Mem) (s : State) : (commitMem m s).noiseSeed = s.noiseSeed := rfl
@[simp] theorem commitMem_noiseCtr (m : Mem) (s : State) : (commitMem m s).noiseCtr = s.noiseCtr := rfl
@[simp] theorem commitMem_noiseVar (m : Mem) (s : State) : (commitMem m s).noiseVar = s.noiseVar := rfl
@[simp] theorem commitMem_paprDb (m : Mem) (s : State) : (commitMem m s).paprDb = s.paprDb := rfl
@[simp] theorem commitMem_peakPwr (m : Mem) (s : State) : (commitMem m s).peakPwr = s.peakPwr := rfl
@[simp] theorem commitMem_meanPwr (m : Mem) (s : State) : (commitMem m s).meanPwr = s.meanPwr := rfl
@[simp] theorem commitMem_errBits (m : Mem) (s : State) : (commitMem m s).errBits = s.errBits := rfl
@[simp] theorem commitMem_totalBits (m : Mem) (s : State) : (commitMem m s).totalBits = s.totalBits := rfl
@[simp] theorem commitMem_ber (m : Mem) (s : State) : (commitMem m s).ber = s.ber := rfl
@[simp] theorem commitMem_errIndex (m : Mem) (s : State) : (commitMem m s).errIndex = s.errIndex := rfl
@[simp] theorem commitMem_heldErrIndex (m : Mem) (s : State) : (commitMem m s).heldErrIndex = s.heldErrIndex := rfl
@[simp] theorem commitMem_mem (m : Mem) (s : State) : (commitMem m s).mem = m := rfl
@[simp] theorem commitMem_refusalMark (m : Mem) (s : State) : (commitMem m s).refusalMark = s.refusalMark := rfl
@[simp] theorem commitMem_inputs (m : Mem) (s : State) : (commitMem m s).inputs = s.inputs := rfl
@[simp] theorem commitMem_responses (m : Mem) (s : State) : (commitMem m s).responses = s.responses := rfl
@[simp] theorem commitMem_patience (m : Mem) (s : State) : (commitMem m s).patience = s.patience := rfl
@[simp] theorem commitMem_draws (m : Mem) (s : State) : (commitMem m s).draws = s.draws := rfl

@[simp] theorem issue_ie (w : Word) (s : State) : (issue w s).ie = s.ie := rfl
@[simp] theorem issue_status (w : Word) (s : State) :
    (issue w s).status = { s.status with busy := true, done := false, err := .noError, detail := 0#4 } := rfl
@[simp] theorem issue_cmd (w : Word) (s : State) : (issue w s).cmd = w := rfl
@[simp] theorem issue_cfgNsub (w : Word) (s : State) : (issue w s).cfgNsub = s.cfgNsub := rfl
@[simp] theorem issue_cfgNsym (w : Word) (s : State) : (issue w s).cfgNsym = s.cfgNsym := rfl
@[simp] theorem issue_cfgWavelet (w : Word) (s : State) : (issue w s).cfgWavelet = s.cfgWavelet := rfl
@[simp] theorem issue_snrDb (w : Word) (s : State) : (issue w s).snrDb = s.snrDb := rfl
@[simp] theorem issue_noiseSeed (w : Word) (s : State) : (issue w s).noiseSeed = s.noiseSeed := rfl
@[simp] theorem issue_noiseCtr (w : Word) (s : State) : (issue w s).noiseCtr = s.noiseCtr := rfl
@[simp] theorem issue_noiseVar (w : Word) (s : State) : (issue w s).noiseVar = s.noiseVar := rfl
@[simp] theorem issue_paprDb (w : Word) (s : State) : (issue w s).paprDb = s.paprDb := rfl
@[simp] theorem issue_peakPwr (w : Word) (s : State) : (issue w s).peakPwr = s.peakPwr := rfl
@[simp] theorem issue_meanPwr (w : Word) (s : State) : (issue w s).meanPwr = s.meanPwr := rfl
@[simp] theorem issue_errBits (w : Word) (s : State) : (issue w s).errBits = s.errBits := rfl
@[simp] theorem issue_totalBits (w : Word) (s : State) : (issue w s).totalBits = s.totalBits := rfl
@[simp] theorem issue_ber (w : Word) (s : State) : (issue w s).ber = s.ber := rfl
@[simp] theorem issue_errIndex (w : Word) (s : State) : (issue w s).errIndex = 0#64 := rfl
@[simp] theorem issue_heldErrIndex (w : Word) (s : State) : (issue w s).heldErrIndex = s.errIndex := rfl
@[simp] theorem issue_mem (w : Word) (s : State) : (issue w s).mem = s.mem := rfl
@[simp] theorem issue_refusalMark (w : Word) (s : State) : (issue w s).refusalMark = s.refusalMark := rfl
@[simp] theorem issue_inputs (w : Word) (s : State) : (issue w s).inputs = s.inputs := rfl
@[simp] theorem issue_responses (w : Word) (s : State) : (issue w s).responses = s.responses := rfl
@[simp] theorem issue_patience (w : Word) (s : State) : (issue w s).patience = Config.latency s.draws := rfl
@[simp] theorem issue_draws (w : Word) (s : State) : (issue w s).draws = s.draws + 1 := rfl

@[simp] theorem refuseWrite_ie (s : State) : (refuseWrite s).ie = s.ie := rfl
@[simp] theorem refuseWrite_status (s : State) : (refuseWrite s).status = { s.status with haz := true } := rfl
@[simp] theorem refuseWrite_cmd (s : State) : (refuseWrite s).cmd = s.cmd := rfl
@[simp] theorem refuseWrite_cfgNsub (s : State) : (refuseWrite s).cfgNsub = s.cfgNsub := rfl
@[simp] theorem refuseWrite_cfgNsym (s : State) : (refuseWrite s).cfgNsym = s.cfgNsym := rfl
@[simp] theorem refuseWrite_cfgWavelet (s : State) : (refuseWrite s).cfgWavelet = s.cfgWavelet := rfl
@[simp] theorem refuseWrite_snrDb (s : State) : (refuseWrite s).snrDb = s.snrDb := rfl
@[simp] theorem refuseWrite_noiseSeed (s : State) : (refuseWrite s).noiseSeed = s.noiseSeed := rfl
@[simp] theorem refuseWrite_noiseCtr (s : State) : (refuseWrite s).noiseCtr = s.noiseCtr := rfl
@[simp] theorem refuseWrite_noiseVar (s : State) : (refuseWrite s).noiseVar = s.noiseVar := rfl
@[simp] theorem refuseWrite_paprDb (s : State) : (refuseWrite s).paprDb = s.paprDb := rfl
@[simp] theorem refuseWrite_peakPwr (s : State) : (refuseWrite s).peakPwr = s.peakPwr := rfl
@[simp] theorem refuseWrite_meanPwr (s : State) : (refuseWrite s).meanPwr = s.meanPwr := rfl
@[simp] theorem refuseWrite_errBits (s : State) : (refuseWrite s).errBits = s.errBits := rfl
@[simp] theorem refuseWrite_totalBits (s : State) : (refuseWrite s).totalBits = s.totalBits := rfl
@[simp] theorem refuseWrite_ber (s : State) : (refuseWrite s).ber = s.ber := rfl
@[simp] theorem refuseWrite_errIndex (s : State) : (refuseWrite s).errIndex = s.errIndex := rfl
@[simp] theorem refuseWrite_heldErrIndex (s : State) : (refuseWrite s).heldErrIndex = s.heldErrIndex := rfl
@[simp] theorem refuseWrite_mem (s : State) : (refuseWrite s).mem = s.mem := rfl
@[simp] theorem refuseWrite_refusalMark (s : State) : (refuseWrite s).refusalMark = s.refusalMark := rfl
@[simp] theorem refuseWrite_inputs (s : State) : (refuseWrite s).inputs = s.inputs := rfl
@[simp] theorem refuseWrite_responses (s : State) : (refuseWrite s).responses = s.responses := rfl
@[simp] theorem refuseWrite_patience (s : State) : (refuseWrite s).patience = s.patience := rfl
@[simp] theorem refuseWrite_draws (s : State) : (refuseWrite s).draws = s.draws := rfl

@[simp] theorem resetRegisters_ie (s : State) : (resetRegisters s).ie = State.reset.ie := rfl
@[simp] theorem resetRegisters_status (s : State) : (resetRegisters s).status = State.reset.status := rfl
@[simp] theorem resetRegisters_cmd (s : State) : (resetRegisters s).cmd = State.reset.cmd := rfl
@[simp] theorem resetRegisters_cfgNsub (s : State) : (resetRegisters s).cfgNsub = State.reset.cfgNsub := rfl
@[simp] theorem resetRegisters_cfgNsym (s : State) : (resetRegisters s).cfgNsym = State.reset.cfgNsym := rfl
@[simp] theorem resetRegisters_cfgWavelet (s : State) : (resetRegisters s).cfgWavelet = State.reset.cfgWavelet := rfl
@[simp] theorem resetRegisters_snrDb (s : State) : (resetRegisters s).snrDb = State.reset.snrDb := rfl
@[simp] theorem resetRegisters_noiseSeed (s : State) : (resetRegisters s).noiseSeed = State.reset.noiseSeed := rfl
@[simp] theorem resetRegisters_noiseCtr (s : State) : (resetRegisters s).noiseCtr = State.reset.noiseCtr := rfl
@[simp] theorem resetRegisters_noiseVar (s : State) : (resetRegisters s).noiseVar = State.reset.noiseVar := rfl
@[simp] theorem resetRegisters_paprDb (s : State) : (resetRegisters s).paprDb = State.reset.paprDb := rfl
@[simp] theorem resetRegisters_peakPwr (s : State) : (resetRegisters s).peakPwr = State.reset.peakPwr := rfl
@[simp] theorem resetRegisters_meanPwr (s : State) : (resetRegisters s).meanPwr = State.reset.meanPwr := rfl
@[simp] theorem resetRegisters_errBits (s : State) : (resetRegisters s).errBits = State.reset.errBits := rfl
@[simp] theorem resetRegisters_totalBits (s : State) : (resetRegisters s).totalBits = State.reset.totalBits := rfl
@[simp] theorem resetRegisters_ber (s : State) : (resetRegisters s).ber = State.reset.ber := rfl
@[simp] theorem resetRegisters_errIndex (s : State) : (resetRegisters s).errIndex = State.reset.errIndex := rfl
@[simp] theorem resetRegisters_heldErrIndex (s : State) :
    (resetRegisters s).heldErrIndex = State.reset.heldErrIndex := rfl
@[simp] theorem resetRegisters_mem (s : State) : (resetRegisters s).mem = s.mem := rfl
@[simp] theorem resetRegisters_refusalMark (s : State) : (resetRegisters s).refusalMark = s.refusalMark := rfl
@[simp] theorem resetRegisters_inputs (s : State) : (resetRegisters s).inputs = s.inputs := rfl
@[simp] theorem resetRegisters_responses (s : State) : (resetRegisters s).responses = s.responses := rfl
@[simp] theorem resetRegisters_patience (s : State) : (resetRegisters s).patience = State.reset.patience := rfl
@[simp] theorem resetRegisters_draws (s : State) : (resetRegisters s).draws = s.draws + 1 := rfl

@[simp] theorem hardReset_ie (s : State) : (hardReset s).ie = State.reset.ie := rfl
@[simp] theorem hardReset_status (s : State) : (hardReset s).status = State.reset.status := rfl
@[simp] theorem hardReset_cmd (s : State) : (hardReset s).cmd = State.reset.cmd := rfl
@[simp] theorem hardReset_cfgNsub (s : State) : (hardReset s).cfgNsub = State.reset.cfgNsub := rfl
@[simp] theorem hardReset_cfgNsym (s : State) : (hardReset s).cfgNsym = State.reset.cfgNsym := rfl
@[simp] theorem hardReset_cfgWavelet (s : State) : (hardReset s).cfgWavelet = State.reset.cfgWavelet := rfl
@[simp] theorem hardReset_snrDb (s : State) : (hardReset s).snrDb = State.reset.snrDb := rfl
@[simp] theorem hardReset_noiseSeed (s : State) : (hardReset s).noiseSeed = State.reset.noiseSeed := rfl
@[simp] theorem hardReset_noiseCtr (s : State) : (hardReset s).noiseCtr = State.reset.noiseCtr := rfl
@[simp] theorem hardReset_noiseVar (s : State) : (hardReset s).noiseVar = State.reset.noiseVar := rfl
@[simp] theorem hardReset_paprDb (s : State) : (hardReset s).paprDb = State.reset.paprDb := rfl
@[simp] theorem hardReset_peakPwr (s : State) : (hardReset s).peakPwr = State.reset.peakPwr := rfl
@[simp] theorem hardReset_meanPwr (s : State) : (hardReset s).meanPwr = State.reset.meanPwr := rfl
@[simp] theorem hardReset_errBits (s : State) : (hardReset s).errBits = State.reset.errBits := rfl
@[simp] theorem hardReset_totalBits (s : State) : (hardReset s).totalBits = State.reset.totalBits := rfl
@[simp] theorem hardReset_ber (s : State) : (hardReset s).ber = State.reset.ber := rfl
@[simp] theorem hardReset_errIndex (s : State) : (hardReset s).errIndex = State.reset.errIndex := rfl
@[simp] theorem hardReset_heldErrIndex (s : State) : (hardReset s).heldErrIndex = State.reset.heldErrIndex := rfl
@[simp] theorem hardReset_mem (s : State) : (hardReset s).mem = State.reset.mem := rfl
@[simp] theorem hardReset_refusalMark (s : State) : (hardReset s).refusalMark = State.reset.refusalMark := rfl
@[simp] theorem hardReset_inputs (s : State) : (hardReset s).inputs = s.inputs := rfl
@[simp] theorem hardReset_responses (s : State) : (hardReset s).responses = s.responses := rfl
@[simp] theorem hardReset_patience (s : State) : (hardReset s).patience = State.reset.patience := rfl
@[simp] theorem hardReset_draws (s : State) : (hardReset s).draws = s.draws + 1 := rfl

@[simp] theorem softReset_ie (s : State) : (softReset s).ie = State.reset.ie := rfl
@[simp] theorem softReset_status (s : State) : (softReset s).status = State.reset.status := rfl
@[simp] theorem softReset_cmd (s : State) : (softReset s).cmd = State.reset.cmd := rfl
@[simp] theorem softReset_cfgNsub (s : State) : (softReset s).cfgNsub = State.reset.cfgNsub := rfl
@[simp] theorem softReset_cfgNsym (s : State) : (softReset s).cfgNsym = State.reset.cfgNsym := rfl
@[simp] theorem softReset_cfgWavelet (s : State) : (softReset s).cfgWavelet = State.reset.cfgWavelet := rfl
@[simp] theorem softReset_snrDb (s : State) : (softReset s).snrDb = State.reset.snrDb := rfl
@[simp] theorem softReset_noiseSeed (s : State) : (softReset s).noiseSeed = State.reset.noiseSeed := rfl
@[simp] theorem softReset_noiseCtr (s : State) : (softReset s).noiseCtr = State.reset.noiseCtr := rfl
@[simp] theorem softReset_noiseVar (s : State) : (softReset s).noiseVar = State.reset.noiseVar := rfl
@[simp] theorem softReset_paprDb (s : State) : (softReset s).paprDb = State.reset.paprDb := rfl
@[simp] theorem softReset_peakPwr (s : State) : (softReset s).peakPwr = State.reset.peakPwr := rfl
@[simp] theorem softReset_meanPwr (s : State) : (softReset s).meanPwr = State.reset.meanPwr := rfl
@[simp] theorem softReset_errBits (s : State) : (softReset s).errBits = State.reset.errBits := rfl
@[simp] theorem softReset_totalBits (s : State) : (softReset s).totalBits = State.reset.totalBits := rfl
@[simp] theorem softReset_ber (s : State) : (softReset s).ber = State.reset.ber := rfl
@[simp] theorem softReset_errIndex (s : State) : (softReset s).errIndex = State.reset.errIndex := rfl
@[simp] theorem softReset_heldErrIndex (s : State) : (softReset s).heldErrIndex = State.reset.heldErrIndex := rfl
@[simp] theorem softReset_mem (s : State) : (softReset s).mem = abandonedMem s := rfl
@[simp] theorem softReset_refusalMark (s : State) : (softReset s).refusalMark = s.refusalMark := rfl
@[simp] theorem softReset_inputs (s : State) : (softReset s).inputs = s.inputs := rfl
@[simp] theorem softReset_responses (s : State) : (softReset s).responses = s.responses := rfl
@[simp] theorem softReset_patience (s : State) : (softReset s).patience = State.reset.patience := rfl
@[simp] theorem softReset_draws (s : State) : (softReset s).draws = s.draws + 1 := rfl

@[simp] theorem answer_ie (r : Response) (s : State) : (answer r s).ie = s.ie := rfl
@[simp] theorem answer_status (r : Response) (s : State) : (answer r s).status = s.status := rfl
@[simp] theorem answer_cmd (r : Response) (s : State) : (answer r s).cmd = s.cmd := rfl
@[simp] theorem answer_cfgNsub (r : Response) (s : State) : (answer r s).cfgNsub = s.cfgNsub := rfl
@[simp] theorem answer_cfgNsym (r : Response) (s : State) : (answer r s).cfgNsym = s.cfgNsym := rfl
@[simp] theorem answer_cfgWavelet (r : Response) (s : State) : (answer r s).cfgWavelet = s.cfgWavelet := rfl
@[simp] theorem answer_snrDb (r : Response) (s : State) : (answer r s).snrDb = s.snrDb := rfl
@[simp] theorem answer_noiseSeed (r : Response) (s : State) : (answer r s).noiseSeed = s.noiseSeed := rfl
@[simp] theorem answer_noiseCtr (r : Response) (s : State) : (answer r s).noiseCtr = s.noiseCtr := rfl
@[simp] theorem answer_noiseVar (r : Response) (s : State) : (answer r s).noiseVar = s.noiseVar := rfl
@[simp] theorem answer_paprDb (r : Response) (s : State) : (answer r s).paprDb = s.paprDb := rfl
@[simp] theorem answer_peakPwr (r : Response) (s : State) : (answer r s).peakPwr = s.peakPwr := rfl
@[simp] theorem answer_meanPwr (r : Response) (s : State) : (answer r s).meanPwr = s.meanPwr := rfl
@[simp] theorem answer_errBits (r : Response) (s : State) : (answer r s).errBits = s.errBits := rfl
@[simp] theorem answer_totalBits (r : Response) (s : State) : (answer r s).totalBits = s.totalBits := rfl
@[simp] theorem answer_ber (r : Response) (s : State) : (answer r s).ber = s.ber := rfl
@[simp] theorem answer_errIndex (r : Response) (s : State) : (answer r s).errIndex = s.errIndex := rfl
@[simp] theorem answer_heldErrIndex (r : Response) (s : State) : (answer r s).heldErrIndex = s.heldErrIndex := rfl
@[simp] theorem answer_mem (r : Response) (s : State) : (answer r s).mem = s.mem := rfl
@[simp] theorem answer_refusalMark (r : Response) (s : State) : (answer r s).refusalMark = s.refusalMark := rfl
@[simp] theorem answer_inputs (r : Response) (s : State) : (answer r s).inputs = s.inputs := rfl
@[simp] theorem answer_responses (r : Response) (s : State) : (answer r s).responses = r :: s.responses := rfl
@[simp] theorem answer_patience (r : Response) (s : State) : (answer r s).patience = s.patience := rfl
@[simp] theorem answer_draws (r : Response) (s : State) : (answer r s).draws = s.draws := rfl

@[simp] theorem hostTick_ie (s : State) : (hostTick s).ie = s.ie := rfl
@[simp] theorem hostTick_status (s : State) : (hostTick s).status = s.status := rfl
@[simp] theorem hostTick_cmd (s : State) : (hostTick s).cmd = s.cmd := rfl
@[simp] theorem hostTick_cfgNsub (s : State) : (hostTick s).cfgNsub = s.cfgNsub := rfl
@[simp] theorem hostTick_cfgNsym (s : State) : (hostTick s).cfgNsym = s.cfgNsym := rfl
@[simp] theorem hostTick_cfgWavelet (s : State) : (hostTick s).cfgWavelet = s.cfgWavelet := rfl
@[simp] theorem hostTick_snrDb (s : State) : (hostTick s).snrDb = s.snrDb := rfl
@[simp] theorem hostTick_noiseSeed (s : State) : (hostTick s).noiseSeed = s.noiseSeed := rfl
@[simp] theorem hostTick_noiseCtr (s : State) : (hostTick s).noiseCtr = s.noiseCtr := rfl
@[simp] theorem hostTick_noiseVar (s : State) : (hostTick s).noiseVar = s.noiseVar := rfl
@[simp] theorem hostTick_paprDb (s : State) : (hostTick s).paprDb = s.paprDb := rfl
@[simp] theorem hostTick_peakPwr (s : State) : (hostTick s).peakPwr = s.peakPwr := rfl
@[simp] theorem hostTick_meanPwr (s : State) : (hostTick s).meanPwr = s.meanPwr := rfl
@[simp] theorem hostTick_errBits (s : State) : (hostTick s).errBits = s.errBits := rfl
@[simp] theorem hostTick_totalBits (s : State) : (hostTick s).totalBits = s.totalBits := rfl
@[simp] theorem hostTick_ber (s : State) : (hostTick s).ber = s.ber := rfl
@[simp] theorem hostTick_errIndex (s : State) : (hostTick s).errIndex = s.errIndex := rfl
@[simp] theorem hostTick_heldErrIndex (s : State) : (hostTick s).heldErrIndex = s.heldErrIndex := rfl
@[simp] theorem hostTick_mem (s : State) : (hostTick s).mem = s.mem := rfl
@[simp] theorem hostTick_refusalMark (s : State) : (hostTick s).refusalMark = s.refusalMark := rfl
@[simp] theorem hostTick_inputs (s : State) : (hostTick s).inputs = s.inputs := rfl
@[simp] theorem hostTick_responses (s : State) : (hostTick s).responses = s.responses := rfl
@[simp] theorem hostTick_patience (s : State) : (hostTick s).patience = s.patience - 1 := rfl
@[simp] theorem hostTick_draws (s : State) :
    (hostTick s).draws = (if s.status.busy then s.draws + 1 else s.draws) := rfl

end Sys2Proof.Machine
end

