-- ==== Sys2Proof/Laws/Operands.lean ====
section
/-!
SUPPORT. What the shared operand operations do, said once: when the configuration check passes, when a source is read,
what the scans find.
-/

namespace Sys2Proof.Machine

open Sys2Proof.Safety

/-- A positive number with n AND (n - 1) = 0 is a power of two. -/
theorem exists_pow_of_and_pred (n : Nat) (h0 : n ≠ 0) (h : n &&& (n - 1) = 0) : ∃ k, n = 2 ^ k := by
  induction n using Nat.strong_induction_on with
  | _ n ih =>
    rcases Nat.even_or_odd' n with ⟨m, rfl | rfl⟩
    · have hm : m ≠ 0 := by rintro rfl; simp at h0
      have h2 : m &&& (m - 1) = 0 := by
        apply Nat.eq_of_testBit_eq
        intro i
        have := congrArg (fun x => x.testBit (i + 1)) h
        have e1 : 2 * m / 2 = m := by omega
        have e2 : (2 * m - 1) / 2 = m - 1 := by omega
        rwa [Nat.testBit_and, Nat.testBit_succ, Nat.testBit_succ, e1, e2, ← Nat.testBit_and, Nat.zero_testBit,
          ← Nat.zero_testBit i] at this
      obtain ⟨k, hk⟩ := ih m (by omega) hm h2
      exact ⟨k + 1, by rw [pow_succ, ← hk]; omega⟩
    · rcases Nat.eq_zero_or_pos m with rfl | hm
      · exact ⟨0, rfl⟩
      · exfalso
        have e : 2 * m + 1 - 1 = 2 * m := by omega
        rw [e] at h
        have hbits : ∀ i, m.testBit i = false := fun i => by
          have := congrArg (fun x => x.testBit (i + 1)) h
          have e1 : (2 * m + 1) / 2 = m := by omega
          have e2 : 2 * m / 2 = m := by omega
          rwa [Nat.testBit_and, Nat.testBit_succ, Nat.testBit_succ, e1, e2, Bool.and_self, Nat.zero_testBit] at this
        exact absurd (Nat.eq_of_testBit_eq (by simpa using hbits) : m = 0) (by omega)

/-- The power-of-two test of the configuration check (41_control_commands R143). -/
theorem notPow2_eq_false_iff (n : Word) : notPow2 n = false ↔ ∃ k, n.toNat = 2 ^ k := by
  have hand : (n &&& (n - 1#64)) = 0#64 ∧ n ≠ 0#64 ↔ n.toNat &&& (n.toNat - 1) = 0 ∧ n.toNat ≠ 0 := by
    have hz : n = 0#64 ↔ n.toNat = 0 := by
      rw [← BitVec.toNat_inj]; simp
    rw [Ne, hz]
    refine and_congr_left fun hne => ?_
    rw [← BitVec.toNat_inj, BitVec.toNat_and, BitVec.toNat_sub_of_le]
    · simp
    · rw [BitVec.le_def]; exact Nat.pos_of_ne_zero hne
  simp only [notPow2, Bool.or_eq_false_iff, beq_eq_false_iff_ne, bne_eq_false_iff_eq]
  rw [and_comm, hand]
  constructor
  · rintro ⟨h, h0⟩; exact exists_pow_of_and_pred _ h0 h
  · rintro ⟨k, hk⟩
    rw [hk]
    exact ⟨Nat.and_two_pow_sub_one_eq_mod (2 ^ k) k ▸ Nat.mod_self _, by positivity⟩

/-- The configuration check passes exactly on the valid configurations. -/
theorem cfgFailure_eq_none_iff (s : State) : cfgFailure s = none ↔ CfgValid s := by
  have hz : s.cfgNsym = 0#64 ↔ s.cfgNsym.toNat = 0 := by rw [← BitVec.toNat_inj]; simp
  have hm : Config.maxSamples = 16384 := rfl
  rw [cfgFailure, CfgValid, ← notPow2_eq_false_iff]
  cases notPow2 s.cfgNsub
  · rw [if_neg (by simp)]
    simp only [true_and]
    split
    · simp only [reduceCtorEq, false_iff]; omega
    · split
      · next h => simp only [reduceCtorEq, false_iff]; have := hz.1 h; omega
      · next h =>
        have := mt hz.2 h
        split
        · simp only [reduceCtorEq, false_iff]; omega
        · simp only [true_iff]; omega
  · simp

theorem cfgCheck_of_valid {s : State} (h : CfgValid s) : cfgCheck s = .ok (cfgOf s) := by
  rw [cfgCheck, (cfgFailure_eq_none_iff s).2 h]

@[simp] theorem cfgLen_cfgOf (s : State) : cfgLen (cfgOf s) = streamLen s := rfl

theorem withCfg_of_valid {s : State} (h : CfgValid s) (drop : State → State)
    (perform : Cfg → Host.Outcome State Fault Refusal) : withCfg drop s perform = perform (cfgOf s) := by
  rw [withCfg, cfgCheck_of_valid h]

theorem withCfg_of_failure {s : State} {d : BitVec 4} (h : cfgFailure s = some d) (drop : State → State)
    (perform : Cfg → Host.Outcome State Fault Refusal) :
    withCfg drop s perform = .next (raised ⟨.configuration, d, 0⟩ (drop s)) := by
  rw [withCfg, cfgCheck, h]

/-- The configuration check raises only ConfigurationError, with details 1 to 4. -/
theorem cfgCheck_error {s : State} {r : Raise} (h : cfgCheck s = .error r) :
    ∃ d, r = ⟨.configuration, d, 0⟩ ∧ cfgFailure s = some d ∧ detailLegal .configuration d = true := by
  unfold cfgCheck at h
  split at h
  · next d hd =>
    refine ⟨d, (Except.error.inj h).symm, hd, ?_⟩
    unfold cfgFailure at hd
    repeat' split at hd
    all_goals simp only [Option.some.injEq, reduceCtorEq] at hd
    all_goals subst hd; rfl
  · simp at h

theorem cfgCheck_ok {s : State} {cfg : Cfg} (h : cfgCheck s = .ok cfg) : cfg = cfgOf s ∧ CfgValid s := by
  unfold cfgCheck at h
  split at h
  · simp at h
  · next hn => exact ⟨(Except.ok.inj h).symm, (cfgFailure_eq_none_iff s).1 hn⟩

/-- What a command behind the configuration check can answer. -/
theorem withCfg_cases (drop : State → State) (s : State) (perform : Cfg → Host.Outcome State Fault Refusal) :
    (∃ d, cfgFailure s = some d ∧ detailLegal .configuration d = true ∧
      withCfg drop s perform = .next (raised ⟨.configuration, d, 0⟩ (drop s))) ∨
    (CfgValid s ∧ withCfg drop s perform = perform (cfgOf s)) := by
  unfold withCfg
  cases h : cfgCheck s with
  | error r =>
    obtain ⟨d, rfl, hd, hl⟩ := cfgCheck_error h
    exact Or.inl ⟨d, hd, hl, rfl⟩
  | ok cfg =>
    obtain ⟨rfl, hv⟩ := cfgCheck_ok h
    exact Or.inr ⟨hv, rfl⟩

/-! ### Sources -/

theorem cbBase_eq (c : CIdx) : cbBase c = 0x040000 * (c.val + 1) := rfl

theorem bbBase_eq (b : BIdx) : bbBase b = 0x140000 + 0x8000 * b.val := rfl

/-- A source that is written reads as the list of its samples. -/
theorem readSamples_of_holds {s : State} {c : CIdx} {x : Nat → Cx} (h : Holds s c x) :
    readSamples s.mem c (streamLen s) = some ((List.range (streamLen s)).map x) := by
  refine (readSamples_eq_some _ _ _ _).2 ⟨by simp, fun i hi => ?_⟩
  rw [List.getElem?_map, List.getElem?_range hi]
  exact h i hi

/-- A bit source that is written reads as the list of its bytes. -/
theorem readBits_of_holds {s : State} {b : BIdx} {v : Nat → Byte} (h : HoldsBits s b v) :
    readBits s.mem b (2 * streamLen s) = some ((List.range (2 * streamLen s)).map v) := by
  refine (readBits_eq_some _ _ _ _).2 ⟨by simp, fun j hj => ?_⟩
  rw [List.getElem?_map, List.getElem?_range hj]
  exact h j hj

theorem withSamples_of_holds {s : State} {c : CIdx} {x : Nat → Cx} (h : Holds s c x)
    (perform : List Cx → Host.Outcome State Fault Refusal) :
    withSamples c (streamLen s) s perform = perform ((List.range (streamLen s)).map x) := by
  rw [withSamples, readSamples_of_holds h]

theorem withBits_of_holds {s : State} {b : BIdx} {v : Nat → Byte} (h : HoldsBits s b v)
    (perform : List Byte → Host.Outcome State Fault Refusal) :
    withBits b (2 * streamLen s) s perform = perform ((List.range (2 * streamLen s)).map v) := by
  rw [withBits, readBits_of_holds h]

/-! ### Scans -/

theorem firstNonFinite_eq_none_iff (xs : List Cx) : ∀ i, firstNonFinite xs i = none ↔ ∀ x ∈ xs, cxFinite x = true := by
  induction xs with
  | nil => intro i; simp [firstNonFinite]
  | cons x rest ih => intro i; rw [firstNonFinite]; split <;> simp_all

/-- The scan finds sample i exactly when it is the first that is not finite. -/
theorem firstNonFinite_eq_some_iff (xs : List Cx) : ∀ i j, firstNonFinite xs i = some j ↔
    ∃ k x, j = i + k ∧ xs[k]? = some x ∧ cxFinite x = false ∧ ∀ k' < k, ∀ y, xs[k']? = some y → cxFinite y = true := by
  induction xs with
  | nil => intro i j; simp [firstNonFinite]
  | cons x rest ih =>
    intro i j
    rw [firstNonFinite]
    split
    · next hx =>
      rw [ih]
      constructor
      · rintro ⟨k, y, rfl, hy, hf, hb⟩
        refine ⟨k + 1, y, by omega, by simpa using hy, hf, fun k' hk' z hz => ?_⟩
        cases k' with
        | zero => simp at hz; exact hz ▸ hx
        | succ k' => exact hb k' (by omega) z (by simpa using hz)
      · rintro ⟨k, y, rfl, hy, hf, hb⟩
        cases k with
        | zero => simp at hy; subst hy; simp [hx] at hf
        | succ k =>
          exact ⟨k, y, by omega, by simpa using hy, hf, fun k' hk' z hz => hb (k' + 1) (by omega) z (by simpa using hz)⟩
    · next hx =>
      have hx' : cxFinite x = false := by simpa using hx
      constructor
      · intro h
        obtain rfl := Option.some.inj h
        exact ⟨0, x, by omega, by simp, hx', fun k' hk' => absurd hk' (by omega)⟩
      · rintro ⟨k, y, rfl, hy, hf, hb⟩
        cases k with
        | zero => rfl
        | succ k => have := hb 0 (by omega) x (by simp); simp [hx'] at this

theorem firstBadBit_eq_none_iff (bs : List Byte) : ∀ j, firstBadBit bs j = none ↔ ∀ b ∈ bs, bitByte b = true := by
  induction bs with
  | nil => intro j; simp [firstBadBit]
  | cons b rest ih => intro j; rw [firstBadBit]; split <;> simp_all

/-- The scan finds byte j exactly when it is the first that is neither 0 nor 1. -/
theorem firstBadBit_eq_some_iff (bs : List Byte) : ∀ i j, firstBadBit bs i = some j ↔
    ∃ k b, j = i + k ∧ bs[k]? = some b ∧ bitByte b = false ∧ ∀ k' < k, ∀ y, bs[k']? = some y → bitByte y = true := by
  induction bs with
  | nil => intro i j; simp [firstBadBit]
  | cons x rest ih =>
    intro i j
    rw [firstBadBit]
    split
    · next hx =>
      rw [ih]
      constructor
      · rintro ⟨k, y, rfl, hy, hf, hb⟩
        refine ⟨k + 1, y, by omega, by simpa using hy, hf, fun k' hk' z hz => ?_⟩
        cases k' with
        | zero => simp at hz; exact hz ▸ hx
        | succ k' => exact hb k' (by omega) z (by simpa using hz)
      · rintro ⟨k, y, rfl, hy, hf, hb⟩
        cases k with
        | zero => simp at hy; subst hy; simp [hx] at hf
        | succ k =>
          exact ⟨k, y, by omega, by simpa using hy, hf, fun k' hk' z hz => hb (k' + 1) (by omega) z (by simpa using hz)⟩
    · next hx =>
      have hx' : bitByte x = false := by simpa using hx
      constructor
      · intro h
        obtain rfl := Option.some.inj h
        exact ⟨0, x, by omega, by simp, hx', fun k' hk' => absurd hk' (by omega)⟩
      · rintro ⟨k, y, rfl, hy, hf, hb⟩
        cases k with
        | zero => rfl
        | succ k => have := hb 0 (by omega) x (by simp); simp [hx'] at this

theorem scanSamples_ok_iff (xs : List Cx) : scanSamples xs = .ok () ↔ ∀ x ∈ xs, cxFinite x = true := by
  rw [← firstNonFinite_eq_none_iff xs 0, scanSamples]
  split <;> simp_all

theorem scanBits_ok_iff (bs : List Byte) : scanBits bs = .ok () ↔ ∀ b ∈ bs, bitByte b = true := by
  rw [← firstBadBit_eq_none_iff bs 0, scanBits]
  split <;> simp_all

theorem scanSamples_error {xs : List Cx} {r : Raise} (h : scanSamples xs = .error r) :
    ∃ i, r = ⟨.numerical, 4#4, i⟩ ∧ firstNonFinite xs 0 = some i := by
  unfold scanSamples at h
  split at h
  · next i hi => exact ⟨i, (Except.error.inj h).symm, hi⟩
  · simp at h

theorem scanBits_error {bs : List Byte} {r : Raise} (h : scanBits bs = .error r) :
    ∃ j, r = ⟨.bitValue, 1#4, j⟩ ∧ firstBadBit bs 0 = some j := by
  unfold scanBits at h
  split at h
  · next j hj => exact ⟨j, (Except.error.inj h).symm, hj⟩
  · simp at h

end Sys2Proof.Machine
end

