-- ==== Sys2Proof/Laws/Meanings.lean ====
section
/-!
SUPPORT. What each command can answer, said once: one inversion lemma for each result and each loop, and one for each
meaning. Later proofs cite these and do not unfold the meanings.
-/

namespace Sys2Proof.Machine

open Sys2Proof.Safety

/-! ### Reading a source -/

theorem withSamples_cases (c : CIdx) (len : Nat) (s : State)
    (perform : List Cx → Host.Outcome State Fault Refusal) :
    (readSamples s.mem c len = none ∧ withSamples c len s perform = .fault .unwrittenSource) ∨
    (∃ xs, readSamples s.mem c len = some xs ∧ withSamples c len s perform = perform xs) := by
  unfold withSamples
  cases h : readSamples s.mem c len with
  | none => exact Or.inl ⟨rfl, rfl⟩
  | some xs => exact Or.inr ⟨xs, rfl, rfl⟩

theorem withBits_cases (b : BIdx) (n : Nat) (s : State)
    (perform : List Byte → Host.Outcome State Fault Refusal) :
    (readBits s.mem b n = none ∧ withBits b n s perform = .fault .unwrittenSource) ∨
    (∃ bs, readBits s.mem b n = some bs ∧ withBits b n s perform = perform bs) := by
  unfold withBits
  cases h : readBits s.mem b n with
  | none => exact Or.inl ⟨rfl, rfl⟩
  | some bs => exact Or.inr ⟨bs, rfl, rfl⟩

theorem length_of_readSamples {m : Mem} {c : CIdx} {n : Nat} {xs : List Cx} (h : readSamples m c n = some xs) :
    xs.length = n := ((readSamples_eq_some m c n xs).1 h).1

theorem length_of_readBits {m : Mem} {b : BIdx} {n : Nat} {bs : List Byte} (h : readBits m b n = some bs) :
    bs.length = n := ((readBits_eq_some m b n bs).1 h).1

/-- A run of bytes fails to read exactly where one of them is not written. -/
theorem memReadBytes_eq_none (m : Mem) : ∀ n a : Nat,
    memReadBytes m a n = none ↔ ∃ k < n, memRead m (a + k) = none := by
  intro n
  induction n with
  | zero => intro a; simp [memReadBytes]
  | succ n ih =>
    intro a
    rw [memReadBytes]
    have hsplit : (∃ k < n + 1, memRead m (a + k) = none) ↔
        memRead m a = none ∨ ∃ k < n, memRead m (a + 1 + k) = none := by
      constructor
      · rintro ⟨k, hk, h⟩
        cases k with
        | zero => exact Or.inl h
        | succ k => exact Or.inr ⟨k, by omega, by rw [show a + 1 + k = a + (k + 1) by omega]; exact h⟩
      · rintro (h | ⟨k, hk, h⟩)
        · exact ⟨0, by omega, h⟩
        · exact ⟨k + 1, by omega, by rw [show a + (k + 1) = a + 1 + k by omega]; exact h⟩
    rw [hsplit, ← ih]
    cases hb : memRead m a with
    | none => simp
    | some b => cases memReadBytes m (a + 1) n <;> simp

theorem readBits_eq_none (m : Mem) (b : BIdx) (n : Nat) :
    readBits m b n = none ↔ ∃ j < n, memRead m (bbBase b + j) = none := memReadBytes_eq_none m n _

theorem memReadCx_eq_none (m : Mem) (a : Nat) : memReadCx m a = none ↔ ∃ k < 16, memRead m (a + k) = none := by
  have hword : ∀ a, memReadWord m a = none ↔ ∃ k < 8, memRead m (a + k) = none := fun a => by
    rw [memReadWord, Option.map_eq_none_iff, memReadBytes_eq_none]
  have hsplit : memReadCx m a = none ↔ memReadWord m a = none ∨ memReadWord m (a + 8) = none := by
    unfold memReadCx
    cases memReadWord m a with
    | none => simp
    | some re => cases memReadWord m (a + 8) <;> simp
  rw [hsplit, hword, hword]
  constructor
  · rintro (⟨k, hk, h⟩ | ⟨k, hk, h⟩)
    · exact ⟨k, by omega, h⟩
    · exact ⟨8 + k, by omega, by rw [← Nat.add_assoc]; exact h⟩
  · rintro ⟨k, hk, h⟩
    rcases Nat.lt_or_ge k 8 with hlt | hge
    · exact Or.inl ⟨k, hlt, h⟩
    · exact Or.inr ⟨k - 8, by omega, by rw [show a + 8 + (k - 8) = a + k by omega]; exact h⟩

theorem memReadSamples_eq_none (m : Mem) : ∀ n a : Nat,
    memReadSamples m a n = none ↔ ∃ i < n, memReadCx m (a + 16 * i) = none := by
  intro n
  induction n with
  | zero => intro a; simp [memReadSamples]
  | succ n ih =>
    intro a
    rw [memReadSamples]
    have hsplit : (∃ i < n + 1, memReadCx m (a + 16 * i) = none) ↔
        memReadCx m a = none ∨ ∃ i < n, memReadCx m (a + 16 + 16 * i) = none := by
      constructor
      · rintro ⟨i, hi, h⟩
        cases i with
        | zero => exact Or.inl h
        | succ i => exact Or.inr ⟨i, by omega, by rw [show a + 16 + 16 * i = a + 16 * (i + 1) by omega]; exact h⟩
      · rintro (h | ⟨i, hi, h⟩)
        · exact ⟨0, by omega, h⟩
        · exact ⟨i + 1, by omega, by rw [show a + 16 * (i + 1) = a + 16 + 16 * i by omega]; exact h⟩
    rw [hsplit, ← ih]
    cases memReadCx m a with
    | none => simp
    | some x => cases memReadSamples m (a + 16) n <;> simp

/-- Samples fail to read exactly where one of their bytes is not written (70_reset_and_hazards R281). -/
theorem readSamples_eq_none (m : Mem) (c : CIdx) (n : Nat) :
    readSamples m c n = none ↔ ∃ j < 16 * n, memRead m (cbBase c + j) = none := by
  rw [readSamples, memReadSamples_eq_none]
  constructor
  · rintro ⟨i, hi, h⟩
    obtain ⟨k, hk, h⟩ := (memReadCx_eq_none _ _).1 h
    exact ⟨16 * i + k, by omega, by rw [← Nat.add_assoc]; exact h⟩
  · rintro ⟨j, hj, h⟩
    refine ⟨j / 16, by omega, (memReadCx_eq_none _ _).2 ⟨j % 16, by omega, ?_⟩⟩
    rw [show cbBase c + 16 * (j / 16) + j % 16 = cbBase c + j by omega]
    exact h

/-! ### The loops -/

/-- A block whose shape is an error of detail 2 or a list: the three ways one block ends. -/
theorem shapeBlock_cases (shape : List Cx → Nat → Except Raise (List Cx)) (n b : Nat) (x : List Cx) :
    (∃ r, shape x b = .error r ∧ shapeBlock shape n b x = .error r) ∨
    (∃ y i, shape x b = .ok y ∧ firstNonFinite y (b * n) = some i ∧
      shapeBlock shape n b x = .error ⟨.numerical, 1#4, i⟩) ∨
    (∃ y, shape x b = .ok y ∧ (∀ z ∈ y, cxFinite z = true) ∧ shapeBlock shape n b x = .ok y) := by
  unfold shapeBlock
  cases hs : shape x b with
  | error r => exact Or.inl ⟨r, rfl, rfl⟩
  | ok y =>
    cases hf : firstNonFinite y (b * n) with
    | some i => exact Or.inr (Or.inl ⟨y, i, rfl, hf, by simp [hf]⟩)
    | none => exact Or.inr (Or.inr ⟨y, rfl, (firstNonFinite_eq_none_iff y _).1 hf, by simp [hf]⟩)

/-- The blocks succeed with the outputs of the single blocks in order, or end with the error of the first block that
raises (60_exceptions R257). -/
theorem shapeBlocks_cases (shape : List Cx → Nat → Except Raise (List Cx)) (n : Nat) : ∀ (count b : Nat) (xs : List Cx),
    (∃ y : Nat → List Cx, (∀ k < count, shapeBlock shape n (b + k) ((xs.drop (k * n)).take n) = .ok (y k)) ∧
      shapeBlocks shape n count b xs = .ok ((List.range count).flatMap y)) ∨
    (∃ k < count, ∃ r, shapeBlock shape n (b + k) ((xs.drop (k * n)).take n) = .error r ∧
      (∀ j < k, ∃ y, shapeBlock shape n (b + j) ((xs.drop (j * n)).take n) = .ok y) ∧
      shapeBlocks shape n count b xs = .error r) := by
  intro count
  induction count with
  | zero => intro b xs; exact Or.inl ⟨fun _ => [], fun k hk => absurd hk (by omega), rfl⟩
  | succ count ih =>
    intro b xs
    have hdrop : ∀ k, (xs.drop n).drop (k * n) = xs.drop ((k + 1) * n) := fun k => by
      rw [List.drop_drop]; congr 1; rw [Nat.succ_mul]; omega
    have hidx : ∀ k, b + 1 + k = b + (k + 1) := fun k => by omega
    rw [shapeBlocks]
    cases h0 : shapeBlock shape n b (xs.take n) with
    | error r =>
      exact Or.inr ⟨0, by omega, r, by simpa using h0, fun j hj => absurd hj (by omega), rfl⟩
    | ok y0 =>
      rcases ih (b + 1) (xs.drop n) with ⟨y, hy, hrest⟩ | ⟨k, hk, r, hr, hbefore, hrest⟩
      · refine Or.inl ⟨fun k => match k with | 0 => y0 | k + 1 => y k, fun k hk => ?_, ?_⟩
        · cases k with
          | zero => simpa using h0
          | succ k => rw [← hidx, ← hdrop]; exact hy k (by omega)
        · simp only [hrest, List.range_succ_eq_map, List.flatMap_cons, List.flatMap_map]
      · refine Or.inr ⟨k + 1, by omega, r, ?_, fun j hj => ?_, ?_⟩
        · rw [← hidx, ← hdrop]; exact hr
        · cases j with
          | zero => exact ⟨y0, by simpa using h0⟩
          | succ j => obtain ⟨y, hy⟩ := hbefore j (by omega); exact ⟨y, by rw [← hidx, ← hdrop]; exact hy⟩
        · simp only [hrest]

/-- The noisy samples are all finite and come out in order, or the first sum that is not finite raises
(44_channel R196). -/
theorem addNoise_cases (sigma : F64) (seed ctr : Word) (len : Nat) : ∀ (xs : List Cx) (i : Nat),
    ((∀ (k : Nat) (x : Cx), xs[k]? = some x → isFinite (noisyOf sigma x (drawOf seed ctr len (i + k))).re = true ∧
        isFinite (noisyOf sigma x (drawOf seed ctr len (i + k))).im = true) ∧
      ∃ ys, addNoise sigma seed ctr len i xs = .ok ys ∧ ys.length = xs.length ∧
        ∀ (k : Nat) (x : Cx), xs[k]? = some x → ys[k]? = some (⟨pack (noisyOf sigma x (drawOf seed ctr len (i + k))).re,
          pack (noisyOf sigma x (drawOf seed ctr len (i + k))).im⟩ : Cx)) ∨
    (∃ (k : Nat) (x : Cx), xs[k]? = some x ∧ ¬ (isFinite (noisyOf sigma x (drawOf seed ctr len (i + k))).re = true ∧
        isFinite (noisyOf sigma x (drawOf seed ctr len (i + k))).im = true) ∧
      (∀ j < k, ∀ y, xs[j]? = some y → isFinite (noisyOf sigma y (drawOf seed ctr len (i + j))).re = true ∧
        isFinite (noisyOf sigma y (drawOf seed ctr len (i + j))).im = true) ∧
      addNoise sigma seed ctr len i xs = .error ⟨.numerical, 1#4, i + k⟩) := by
  intro xs
  induction xs with
  | nil => intro i; exact Or.inl ⟨fun k x h => by simp at h, [], rfl, rfl, fun k x h => by simp at h⟩
  | cons x rest ih =>
    intro i
    have hidx : ∀ k, i + 1 + k = i + (k + 1) := fun k => by omega
    rw [addNoise]
    by_cases hx : isFinite (noisyOf sigma x (drawOf seed ctr len i)).re = true ∧
        isFinite (noisyOf sigma x (drawOf seed ctr len i)).im = true
    · have hx' : (isFinite (noisyOf sigma x (drawOf seed ctr len i)).re &&
        isFinite (noisyOf sigma x (drawOf seed ctr len i)).im) = true := by rw [Bool.and_eq_true]; exact hx
      simp only [hx', if_true]
      rcases ih (i + 1) with ⟨hall, ys, hys, hlen, hval⟩ | ⟨k, z, hz, hbad, hbefore, herr⟩
      · refine Or.inl ⟨fun k y hy => ?_, _ :: ys, by rw [hys], by simp [hlen], fun k y hy => ?_⟩
        · cases k with
          | zero => simp at hy; subst hy; exact hx
          | succ k => rw [← hidx]; exact hall k y (by simpa using hy)
        · cases k with
          | zero => simp at hy; subst hy; rfl
          | succ k => rw [← hidx, List.getElem?_cons_succ]; exact hval k y (by simpa using hy)
      · refine Or.inr ⟨k + 1, z, by simpa using hz, by rw [← hidx]; exact hbad, fun j hj y hy => ?_, ?_⟩
        · cases j with
          | zero => simp at hy; subst hy; exact hx
          | succ j => rw [← hidx]; exact hbefore j (by omega) y (by simpa using hy)
        · rw [herr, hidx]
    · have hx' : (isFinite (noisyOf sigma x (drawOf seed ctr len i)).re &&
        isFinite (noisyOf sigma x (drawOf seed ctr len i)).im) = false := by
        rw [Bool.eq_false_iff, Ne, Bool.and_eq_true]; exact hx
      simp only [hx']
      exact Or.inr ⟨0, x, rfl, hx, fun j hj => absurd hj (by omega), by simp⟩

/-- The powers are all finite and come out in order, or the first that is not finite raises (46_papr R237). -/
theorem powersFrom_cases : ∀ (xs : List Cx) (i : Nat),
    ((∀ x ∈ xs, isFinite (power x) = true) ∧ powersFrom i xs = .ok (xs.map power)) ∨
    (∃ k x, xs[k]? = some x ∧ isFinite (power x) = false ∧
      (∀ j < k, ∀ y, xs[j]? = some y → isFinite (power y) = true) ∧
      powersFrom i xs = .error ⟨.numerical, 1#4, i + k⟩) := by
  intro xs
  induction xs with
  | nil => intro i; exact Or.inl ⟨by simp, rfl⟩
  | cons x rest ih =>
    intro i
    rw [powersFrom]
    cases hx : isFinite (power x) with
    | true =>
      rcases ih (i + 1) with ⟨hall, hok⟩ | ⟨k, z, hz, hbad, hbefore, herr⟩
      · exact Or.inl ⟨by simpa [hx] using hall, by simp [hok]⟩
      · refine Or.inr ⟨k + 1, z, by simpa using hz, hbad, fun j hj y hy => ?_, ?_⟩
        · cases j with
          | zero => simp at hy; subst hy; exact hx
          | succ j => exact hbefore j (by omega) y (by simpa using hy)
        · simp only [if_true, herr]; congr 2; omega
    | false => exact Or.inr ⟨0, x, rfl, hx, fun j hj => absurd hj (by omega), by simp⟩

/-! ### The results -/

theorem qmapResult_cases (cd : CIdx) (bs : List Byte) (s : State) :
    (∃ j, firstBadBit bs 0 = some j ∧ qmapResult cd bs s = raised ⟨.bitValue, 1#4, j⟩ s) ∨
    ((∀ b ∈ bs, bitByte b = true) ∧
      qmapResult cd bs s = completed (commitMem (writeSamples s.mem cd (mapBits bs)) s)) := by
  unfold qmapResult
  cases h : scanBits bs with
  | error r => obtain ⟨j, rfl, hj⟩ := scanBits_error h; exact Or.inl ⟨j, hj, rfl⟩
  | ok u => exact Or.inr ⟨(scanBits_ok_iff bs).1 h, rfl⟩

theorem detectResult_cases (bd : BIdx) (xs : List Cx) (s : State) :
    (∃ i, firstNonFinite xs 0 = some i ∧ detectResult bd xs s = raised ⟨.numerical, 4#4, i⟩ s) ∨
    ((∀ x ∈ xs, cxFinite x = true) ∧
      detectResult bd xs s = completed (commitMem (writeBits s.mem bd (decideBits xs)) s)) := by
  unfold detectResult
  cases h : scanSamples xs with
  | error r => obtain ⟨i, rfl, hi⟩ := scanSamples_error h; exact Or.inl ⟨i, hi, rfl⟩
  | ok u => exact Or.inr ⟨(scanSamples_ok_iff xs).1 h, rfl⟩

theorem shapeResult_cases (shape : List Cx → Nat → Except Raise (List Cx)) (cfg : Cfg) (cd : CIdx) (xs : List Cx)
    (s : State) :
    (∃ i, firstNonFinite xs 0 = some i ∧ shapeResult shape cfg cd xs s = raised ⟨.numerical, 4#4, i⟩ s) ∨
    ((∀ x ∈ xs, cxFinite x = true) ∧
      ((∃ r, shapeBlocks shape cfg.nsub cfg.nsym 0 xs = .error r ∧
        shapeResult shape cfg cd xs s = raised r (commitMem (forgetSamples s.mem cd (cfgLen cfg)) s)) ∨
      ∃ ys, shapeBlocks shape cfg.nsub cfg.nsym 0 xs = .ok ys ∧
        shapeResult shape cfg cd xs s = completed (commitMem (writeSamples s.mem cd ys) s))) := by
  unfold shapeResult
  cases h : scanSamples xs with
  | error r => obtain ⟨i, rfl, hi⟩ := scanSamples_error h; exact Or.inl ⟨i, hi, rfl⟩
  | ok u =>
    refine Or.inr ⟨(scanSamples_ok_iff xs).1 h, ?_⟩
    cases hb : shapeBlocks shape cfg.nsub cfg.nsym 0 xs with
    | error r => exact Or.inl ⟨r, rfl, rfl⟩
    | ok ys => exact Or.inr ⟨ys, rfl, rfl⟩

theorem chanResult_cases (cfg : Cfg) (cd : CIdx) (var : F64) (xs : List Cx) (s : State) :
    (∃ i, firstNonFinite xs 0 = some i ∧
      chanResult cfg cd var xs s = raised ⟨.numerical, 4#4, i⟩ (dropVar s)) ∨
    ((∀ x ∈ xs, cxFinite x = true) ∧
      ((∃ r, addNoise (fsqrt var) s.noiseSeed s.noiseCtr (cfgLen cfg) 0 xs = .error r ∧
        chanResult cfg cd var xs s =
          raised r (dropVar (commitMem (forgetSamples s.mem cd (cfgLen cfg)) s))) ∨
      ∃ ys, addNoise (fsqrt var) s.noiseSeed s.noiseCtr (cfgLen cfg) 0 xs = .ok ys ∧
        chanResult cfg cd var xs s =
          completed (commitVar (pack var) (commitCtr (s.noiseCtr + BitVec.ofNat 64 (2 * cfgLen cfg))
            (commitMem (writeSamples s.mem cd ys) s))))) := by
  unfold chanResult
  cases h : scanSamples xs with
  | error r => obtain ⟨i, rfl, hi⟩ := scanSamples_error h; exact Or.inl ⟨i, hi, rfl⟩
  | ok u =>
    refine Or.inr ⟨(scanSamples_ok_iff xs).1 h, ?_⟩
    cases hb : addNoise (fsqrt var) s.noiseSeed s.noiseCtr (cfgLen cfg) 0 xs with
    | error r => exact Or.inl ⟨r, rfl, rfl⟩
    | ok ys => exact Or.inr ⟨ys, rfl, rfl⟩

theorem bercntResult_cases (original recovered : List Byte) (total : Nat) (s : State) :
    (∃ j, firstBadBit original 0 = some j ∧
      bercntResult original recovered total s = raised ⟨.bitValue, 1#4, j⟩ (dropBer s)) ∨
    ((∀ b ∈ original, bitByte b = true) ∧ ∃ j, firstBadBit recovered 0 = some j ∧
      bercntResult original recovered total s = raised ⟨.bitValue, 1#4, j⟩ (dropBer s)) ∨
    ((∀ b ∈ original, bitByte b = true) ∧ (∀ b ∈ recovered, bitByte b = true) ∧
      bercntResult original recovered total s =
        completed (commitBer (BitVec.ofNat 64 (mismatches original recovered)) (BitVec.ofNat 64 total)
          (pack (fdiv (i2f (mismatches original recovered)) (i2f total))) s)) := by
  unfold bercntResult
  cases h : scanBits original with
  | error r => obtain ⟨j, rfl, hj⟩ := scanBits_error h; exact Or.inl ⟨j, hj, rfl⟩
  | ok u =>
    refine Or.inr ?_
    cases h' : scanBits recovered with
    | error r =>
      obtain ⟨j, rfl, hj⟩ := scanBits_error h'
      exact Or.inl ⟨(scanBits_ok_iff original).1 h, j, hj, rfl⟩
    | ok u' => exact Or.inr ⟨(scanBits_ok_iff original).1 h, (scanBits_ok_iff recovered).1 h', rfl⟩

theorem paprResult_cases (xs : List Cx) (len : Nat) (s : State) :
    (∃ i, firstNonFinite xs 0 = some i ∧ paprResult xs len s = raised ⟨.numerical, 4#4, i⟩ (dropPapr s)) ∨
    ((∀ x ∈ xs, cxFinite x = true) ∧
      ((∃ r, paprOf xs len = .error r ∧ paprResult xs len s = raised r (dropPapr s)) ∨
      ∃ v, paprOf xs len = .ok v ∧
        paprResult xs len s = completed (commitPapr (pack v.papr) (pack v.peak) (pack v.mean) s))) := by
  unfold paprResult
  cases h : scanSamples xs with
  | error r => obtain ⟨i, rfl, hi⟩ := scanSamples_error h; exact Or.inl ⟨i, hi, rfl⟩
  | ok u =>
    refine Or.inr ⟨(scanSamples_ok_iff xs).1 h, ?_⟩
    cases hb : paprOf xs len with
    | error r => exact Or.inl ⟨r, rfl, rfl⟩
    | ok v => exact Or.inr ⟨v, rfl, rfl⟩

theorem noiseVariance_cases (cfg : Cfg) (s : State) :
    (isFinite (varianceOf cfg.nsub s.snrDb) = true ∧ flt fzero (varianceOf cfg.nsub s.snrDb) = true ∧
      noiseVariance cfg s = .ok (varianceOf cfg.nsub s.snrDb)) ∨
    (¬ (isFinite (varianceOf cfg.nsub s.snrDb) = true ∧ flt fzero (varianceOf cfg.nsub s.snrDb) = true) ∧
      noiseVariance cfg s = .error ⟨.parameterRange, 1#4, 0⟩) := by
  unfold noiseVariance
  by_cases h : isFinite (varianceOf cfg.nsub s.snrDb) = true ∧ flt fzero (varianceOf cfg.nsub s.snrDb) = true
  · exact Or.inl ⟨h.1, h.2, by simp [h.1, h.2]⟩
  · refine Or.inr ⟨h, ?_⟩
    rw [if_neg (by rwa [Bool.and_eq_true])]

@[simp] theorem varianceOf_eq (s : State) : varianceOf s.cfgNsub.toNat s.snrDb = snrVariance s := rfl

/-! ### The meanings -/

theorem execCheck_cases (s : State) :
    (∃ d, cfgFailure s = some d ∧ detailLegal .configuration d = true ∧
      execCheck s = .next (raised ⟨.configuration, d, 0⟩ (dropVar s))) ∨
    (CfgValid s ∧
      ((VarianceOk s ∧ execCheck s = .next (completed (commitVar (pack (snrVariance s)) s))) ∨
      (¬ VarianceOk s ∧ execCheck s = .next (raised ⟨.parameterRange, 1#4, 0⟩ (dropVar s))))) := by
  rcases withCfg_cases dropVar s (fun cfg => .next (checkResult cfg s)) with h | ⟨hv, h⟩
  · exact Or.inl h
  · refine Or.inr ⟨hv, ?_⟩
    rcases noiseVariance_cases (cfgOf s) s with ⟨h1, h2, h3⟩ | ⟨h1, h3⟩
    · exact Or.inl ⟨⟨h1, h2⟩, by rw [execCheck, h, checkResult, h3]; rfl⟩
    · exact Or.inr ⟨h1, by rw [execCheck, h, checkResult, h3]⟩

theorem execQmap_cases (cd : CIdx) (bs : BIdx) (s : State) :
    (∃ d, cfgFailure s = some d ∧ detailLegal .configuration d = true ∧
      execQmap cd bs s = .next (raised ⟨.configuration, d, 0⟩ s)) ∨
    (CfgValid s ∧
      ((readBits s.mem bs (2 * streamLen s) = none ∧ execQmap cd bs s = .fault .unwrittenSource) ∨
      ∃ bytes, readBits s.mem bs (2 * streamLen s) = some bytes ∧
        execQmap cd bs s = .next (qmapResult cd bytes s))) := by
  unfold execQmap
  rcases withCfg_cases id s (fun cfg => withBits bs (2 * cfgLen cfg) s fun b => .next (qmapResult cd b s)) with h | ⟨hv, h⟩
  · exact Or.inl h
  · rw [h, cfgLen_cfgOf]; exact Or.inr ⟨hv, withBits_cases bs _ s _⟩

theorem execMod_cases (cd cs : CIdx) (s : State) :
    (∃ d, cfgFailure s = some d ∧ detailLegal .configuration d = true ∧
      execMod cd cs s = .next (raised ⟨.configuration, d, 0⟩ s)) ∨
    (CfgValid s ∧
      ((readSamples s.mem cs (streamLen s) = none ∧ execMod cd cs s = .fault .unwrittenSource) ∨
      ∃ xs, readSamples s.mem cs (streamLen s) = some xs ∧
        execMod cd cs s = .next (shapeResult (shapeMod (cfgOf s)) (cfgOf s) cd xs s))) := by
  unfold execMod
  rcases withCfg_cases id s
    (fun cfg => withSamples cs (cfgLen cfg) s fun xs => .next (shapeResult (shapeMod cfg) cfg cd xs s)) with h | ⟨hv, h⟩
  · exact Or.inl h
  · rw [h, cfgLen_cfgOf]; exact Or.inr ⟨hv, withSamples_cases cs _ s _⟩

theorem execDemod_cases (cd cs : CIdx) (s : State) :
    (∃ d, cfgFailure s = some d ∧ detailLegal .configuration d = true ∧
      execDemod cd cs s = .next (raised ⟨.configuration, d, 0⟩ s)) ∨
    (CfgValid s ∧
      ((readSamples s.mem cs (streamLen s) = none ∧ execDemod cd cs s = .fault .unwrittenSource) ∨
      ∃ xs, readSamples s.mem cs (streamLen s) = some xs ∧
        execDemod cd cs s = .next (shapeResult (shapeDemod (cfgOf s)) (cfgOf s) cd xs s))) := by
  unfold execDemod
  rcases withCfg_cases id s
    (fun cfg => withSamples cs (cfgLen cfg) s fun xs => .next (shapeResult (shapeDemod cfg) cfg cd xs s))
    with h | ⟨hv, h⟩
  · exact Or.inl h
  · rw [h, cfgLen_cfgOf]; exact Or.inr ⟨hv, withSamples_cases cs _ s _⟩

theorem execChan_cases (cd cs : CIdx) (s : State) :
    (∃ d, cfgFailure s = some d ∧ detailLegal .configuration d = true ∧
      execChan cd cs s = .next (raised ⟨.configuration, d, 0⟩ (dropVar s))) ∨
    (CfgValid s ∧ ¬ VarianceOk s ∧ execChan cd cs s = .next (raised ⟨.parameterRange, 1#4, 0⟩ (dropVar s))) ∨
    (CfgValid s ∧ VarianceOk s ∧
      ((readSamples s.mem cs (streamLen s) = none ∧ execChan cd cs s = .fault .unwrittenSource) ∨
      ∃ xs, readSamples s.mem cs (streamLen s) = some xs ∧
        execChan cd cs s = .next (chanResult (cfgOf s) cd (snrVariance s) xs s))) := by
  unfold execChan
  rcases withCfg_cases dropVar s (chanPerform cd cs s) with h | ⟨hv, h⟩
  · exact Or.inl h
  · rw [h, chanPerform]
    rcases noiseVariance_cases (cfgOf s) s with ⟨h1, h2, h3⟩ | ⟨h1, h3⟩
    · refine Or.inr (Or.inr ⟨hv, ⟨h1, h2⟩, ?_⟩)
      simp only [h3, cfgLen_cfgOf]
      exact withSamples_cases cs _ s _
    · exact Or.inr (Or.inl ⟨hv, h1, by simp only [h3]⟩)

theorem execDetect_cases (bd : BIdx) (cs : CIdx) (s : State) :
    (∃ d, cfgFailure s = some d ∧ detailLegal .configuration d = true ∧
      execDetect bd cs s = .next (raised ⟨.configuration, d, 0⟩ s)) ∨
    (CfgValid s ∧
      ((readSamples s.mem cs (streamLen s) = none ∧ execDetect bd cs s = .fault .unwrittenSource) ∨
      ∃ xs, readSamples s.mem cs (streamLen s) = some xs ∧
        execDetect bd cs s = .next (detectResult bd xs s))) := by
  unfold execDetect
  rcases withCfg_cases id s
    (fun cfg => withSamples cs (cfgLen cfg) s fun xs => .next (detectResult bd xs s)) with h | ⟨hv, h⟩
  · exact Or.inl h
  · rw [h, cfgLen_cfgOf]; exact Or.inr ⟨hv, withSamples_cases cs _ s _⟩

theorem execBercnt_cases (s : State) :
    (∃ d, cfgFailure s = some d ∧ detailLegal .configuration d = true ∧
      execBercnt s = .next (raised ⟨.configuration, d, 0⟩ (dropBer s))) ∨
    (CfgValid s ∧
      (((readBits s.mem 0 (2 * streamLen s) = none ∨ readBits s.mem 1 (2 * streamLen s) = none) ∧
        execBercnt s = .fault .unwrittenSource) ∨
      ∃ v u, readBits s.mem 0 (2 * streamLen s) = some v ∧ readBits s.mem 1 (2 * streamLen s) = some u ∧
        execBercnt s = .next (bercntResult v u (2 * streamLen s) s))) := by
  unfold execBercnt
  rcases withCfg_cases dropBer s
    (fun cfg => withBits 0 (2 * cfgLen cfg) s fun original => withBits 1 (2 * cfgLen cfg) s fun recovered =>
      .next (bercntResult original recovered (2 * cfgLen cfg) s)) with h | ⟨hv, h⟩
  · exact Or.inl h
  · rw [h, cfgLen_cfgOf]
    refine Or.inr ⟨hv, ?_⟩
    rcases withBits_cases 0 (2 * streamLen s) s
      (fun original => withBits 1 (2 * streamLen s) s fun recovered =>
        .next (bercntResult original recovered (2 * streamLen s) s)) with ⟨h0, hf⟩ | ⟨v, h0, hf⟩
    · exact Or.inl ⟨Or.inl h0, hf⟩
    · rw [hf]
      rcases withBits_cases 1 (2 * streamLen s) s
        (fun recovered => .next (bercntResult v recovered (2 * streamLen s) s)) with ⟨h1, hf1⟩ | ⟨u, h1, hf1⟩
      · exact Or.inl ⟨Or.inr h1, hf1⟩
      · exact Or.inr ⟨v, u, h0, h1, hf1⟩

theorem execPapr_cases (cs : CIdx) (s : State) :
    (∃ d, cfgFailure s = some d ∧ detailLegal .configuration d = true ∧
      execPapr cs s = .next (raised ⟨.configuration, d, 0⟩ (dropPapr s))) ∨
    (CfgValid s ∧
      ((readSamples s.mem cs (streamLen s) = none ∧ execPapr cs s = .fault .unwrittenSource) ∨
      ∃ xs, readSamples s.mem cs (streamLen s) = some xs ∧
        execPapr cs s = .next (paprResult xs (streamLen s) s))) := by
  unfold execPapr
  rcases withCfg_cases dropPapr s
    (fun cfg => withSamples cs (cfgLen cfg) s fun xs => .next (paprResult xs (cfgLen cfg) s)) with h | ⟨hv, h⟩
  · exact Or.inl h
  · rw [h, cfgLen_cfgOf]; exact Or.inr ⟨hv, withSamples_cases cs _ s _⟩

end Sys2Proof.Machine
end

