-- ==== Sys2Proof/Laws/Effects.lean ====
section
/-!
SUPPORT. What any command that answers a next state did, said once for all of them: it raised one of its errors, or it
committed its result (`exec_cases`).
-/

namespace Sys2Proof.Machine

open Sys2Proof.Safety

/-! ### The errors and the lengths of the loops -/

theorem shapeWavelet_error {cfg : Cfg} {x : List Cx} {b : Nat} {r : Raise} (h : shapeWavelet cfg x b = .error r) :
    r = ⟨.numerical, 2#4, b⟩ := by
  unfold shapeWavelet at h; dsimp only at h; split at h
  · exact (Except.error.inj h).symm
  · cases h

theorem shapeWavelet_length {cfg : Cfg} {x y : List Cx} {b : Nat} (h : shapeWavelet cfg x b = .ok y) :
    y.length = cfg.nsub := by
  unfold shapeWavelet at h; dsimp only at h; split at h
  · cases h
  · cases h; rw [List.length_take]; omega

theorem shapeMod_error {cfg : Cfg} {x : List Cx} {b : Nat} {r : Raise} (h : shapeMod cfg x b = .error r) :
    r = ⟨.numerical, 2#4, b⟩ := by
  unfold shapeMod at h; split at h
  · cases h
  all_goals exact shapeWavelet_error h

theorem shapeMod_length {cfg : Cfg} {x y : List Cx} {b : Nat} (h : shapeMod cfg x b = .ok y) :
    y.length = cfg.nsub := by
  unfold shapeMod at h; split at h
  · cases h; simp [idft]
  all_goals exact shapeWavelet_length h

theorem shapeDemod_error {cfg : Cfg} {x : List Cx} {b : Nat} {r : Raise} (h : shapeDemod cfg x b = .error r) :
    r = ⟨.numerical, 2#4, b⟩ := by
  unfold shapeDemod at h; split at h
  · cases h
  all_goals exact shapeWavelet_error h

theorem shapeDemod_length {cfg : Cfg} {x y : List Cx} {b : Nat} (h : shapeDemod cfg x b = .ok y) :
    y.length = cfg.nsub := by
  unfold shapeDemod at h; split at h
  · cases h; simp [dft]
  all_goals exact shapeWavelet_length h

/-- A shape raises nothing but NumericalError(2, b), and gives N samples. -/
def ShapeOk (shape : List Cx → Nat → Except Raise (List Cx)) (n : Nat) : Prop :=
  (∀ x b r, shape x b = .error r → r = ⟨.numerical, 2#4, b⟩) ∧ ∀ x b y, shape x b = .ok y → y.length = n

theorem shapeOk_mod (cfg : Cfg) : ShapeOk (shapeMod cfg) cfg.nsub :=
  ⟨fun _ _ _ h => shapeMod_error h, fun _ _ _ h => shapeMod_length h⟩

theorem shapeOk_demod (cfg : Cfg) : ShapeOk (shapeDemod cfg) cfg.nsub :=
  ⟨fun _ _ _ h => shapeDemod_error h, fun _ _ _ h => shapeDemod_length h⟩

theorem shapeBlock_error {shape : List Cx → Nat → Except Raise (List Cx)} {m n b : Nat} {x : List Cx} {r : Raise}
    (hs : ShapeOk shape m) (h : shapeBlock shape n b x = .error r) :
    r.kind = .numerical ∧ (r.detail = 1#4 ∨ r.detail = 2#4) := by
  rcases shapeBlock_cases shape n b x with ⟨r', h1, h2⟩ | ⟨y, i, _, _, h2⟩ | ⟨y, _, _, h2⟩ <;> rw [h2] at h <;> cases h
  · rw [hs.1 _ _ _ h1]; exact ⟨rfl, Or.inr rfl⟩
  · exact ⟨rfl, Or.inl rfl⟩

theorem shapeBlock_length {shape : List Cx → Nat → Except Raise (List Cx)} {m n b : Nat} {x y : List Cx}
    (hs : ShapeOk shape m) (h : shapeBlock shape n b x = .ok y) : y.length = m := by
  rcases shapeBlock_cases shape n b x with ⟨r', h1, h2⟩ | ⟨y', i, _, _, h2⟩ | ⟨y', h1, _, h2⟩ <;>
    rw [h2] at h <;> cases h
  exact hs.2 _ _ _ h1

theorem shapeBlocks_error {shape : List Cx → Nat → Except Raise (List Cx)} {m n count b : Nat} {x : List Cx}
    {r : Raise} (hs : ShapeOk shape m) (h : shapeBlocks shape n count b x = .error r) :
    r.kind = .numerical ∧ (r.detail = 1#4 ∨ r.detail = 2#4) := by
  rcases shapeBlocks_cases shape n count b x with ⟨y, _, h2⟩ | ⟨k, _, r', h1, _, h2⟩ <;> rw [h2] at h <;> cases h
  exact shapeBlock_error hs h1

theorem shapeBlocks_length {shape : List Cx → Nat → Except Raise (List Cx)} {m n count b : Nat} {x ys : List Cx}
    (hs : ShapeOk shape m) (h : shapeBlocks shape n count b x = .ok ys) : ys.length = m * count := by
  rcases shapeBlocks_cases shape n count b x with ⟨y, h1, h2⟩ | ⟨k, _, r', _, _, h2⟩ <;> rw [h2] at h <;> cases h
  rw [List.length_flatMap, List.map_congr_left (g := fun _ => m)]
  · simp [Nat.mul_comm]
  · intro k hk; exact shapeBlock_length hs (h1 k (List.mem_range.1 hk))

theorem addNoise_error {sigma : F64} {seed ctr : Word} {len i : Nat} {xs : List Cx} {r : Raise}
    (h : addNoise sigma seed ctr len i xs = .error r) : r.kind = .numerical ∧ r.detail = 1#4 := by
  rcases addNoise_cases sigma seed ctr len xs i with ⟨_, ys, h2, _⟩ | ⟨k, x, _, _, _, h2⟩ <;> rw [h2] at h <;> cases h
  exact ⟨rfl, rfl⟩

theorem addNoise_length {sigma : F64} {seed ctr : Word} {len i : Nat} {xs ys : List Cx}
    (h : addNoise sigma seed ctr len i xs = .ok ys) : ys.length = xs.length := by
  rcases addNoise_cases sigma seed ctr len xs i with ⟨_, ys', h2, h3, _⟩ | ⟨k, x, _, _, _, h2⟩ <;>
    rw [h2] at h <;> cases h
  exact h3

theorem paprOf_error {xs : List Cx} {len : Nat} {r : Raise} (h : paprOf xs len = .error r) :
    r.kind = .numerical ∧ (r.detail = 1#4 ∨ r.detail = 3#4) := by
  unfold paprOf at h
  rcases powersFrom_cases xs 0 with ⟨_, h2⟩ | ⟨k, x, _, _, _, h2⟩ <;> rw [h2] at h <;> dsimp only at h
  · split at h
    · cases h; exact ⟨rfl, Or.inl rfl⟩
    · split at h
      · cases h; exact ⟨rfl, Or.inr rfl⟩
      · split at h
        · cases h; exact ⟨rfl, Or.inl rfl⟩
        · split at h
          · cases h; exact ⟨rfl, Or.inl rfl⟩
          · cases h
  · cases h; exact ⟨rfl, Or.inl rfl⟩

/-- What PAPR found of a signal it measured: all its quantities, and that each passed its test. -/
theorem paprOf_ok {xs : List Cx} {len : Nat} {v : PaprValues} (h : paprOf xs len = .ok v) :
    (∀ x ∈ xs, isFinite (power x) = true) ∧ v.peak = peakOf (xs.map power) ∧
      isFinite (sumOf (xs.map power)) = true ∧ v.mean = fdiv (sumOf (xs.map power)) (i2f len) ∧
      isZero v.mean = false ∧ isFinite (fdiv v.peak v.mean) = true ∧
      v.papr = paprDbOf (clampRatio (fdiv v.peak v.mean)) ∧ isFinite v.papr = true := by
  unfold paprOf at h
  rcases powersFrom_cases xs 0 with ⟨h1, h2⟩ | ⟨k, x, _, _, _, h2⟩ <;> rw [h2] at h <;> dsimp only at h
  · split at h
    · cases h
    · rename_i hsum
      split at h
      · cases h
      · rename_i hmean
        split at h
        · cases h
        · rename_i hratio
          split at h
          · cases h
          · rename_i hpapr
            cases h
            simp only [Bool.not_eq_true', Bool.not_eq_false, Bool.not_eq_true] at hsum hmean hratio hpapr
            exact ⟨h1, rfl, hsum, rfl, hmean, hratio, rfl, hpapr⟩
  · cases h

theorem length_mapBits : ∀ (n : Nat) (bs : List Byte), bs.length = 2 * n → (mapBits bs).length = n
  | 0, [], _ => rfl
  | n + 1, b0 :: b1 :: rest, h => by
    rw [mapBits, List.length_cons, length_mapBits n rest (by simp at h; omega)]
  | n + 1, [_], h => by simp at h; omega
  | n + 1, [], h => by simp at h
  | 0, _ :: _, h => by simp at h

theorem length_decideBits (xs : List Cx) : (decideBits xs).length = 2 * xs.length := by
  simp [decideBits, List.length_flatMap, Nat.mul_comm]

theorem mismatches_le : ∀ as bs : List Byte, mismatches as bs ≤ as.length
  | a :: as, b :: bs => by
    have := mismatches_le as bs
    rw [mismatches, List.length_cons]; split <;> omega
  | [], _ => by simp [mismatches]
  | _ :: _, [] => by simp [mismatches]

/-! ### What a command that answers a next state did -/

/-- What an instruction's raise does to its VALID bit (60_exceptions R254). -/
def dropOf : Instr → State → State
  | .nop => id
  | .check => dropVar
  | .qmap _ _ => id
  | .mod _ _ => id
  | .demod _ _ => id
  | .chan _ _ => dropVar
  | .detect _ _ => id
  | .bercnt => dropBer
  | .papr _ => dropPapr

/-- The state u that an instruction commits when it succeeds from s, the completion writes aside, with what it found. -/
def Commits (s u : State) : Instr → Prop
  | .nop => u = s
  | .check => CfgValid s ∧ VarianceOk s ∧ u = commitVar (pack (snrVariance s)) s
  | .qmap cd bs => CfgValid s ∧ ∃ bytes, readBits s.mem bs (2 * streamLen s) = some bytes ∧
      (∀ b ∈ bytes, bitByte b = true) ∧ u = commitMem (writeSamples s.mem cd (mapBits bytes)) s
  | .mod cd cs => CfgValid s ∧ ∃ xs ys, readSamples s.mem cs (streamLen s) = some xs ∧
      (∀ x ∈ xs, cxFinite x = true) ∧ shapeBlocks (shapeMod (cfgOf s)) (cfgOf s).nsub (cfgOf s).nsym 0 xs = .ok ys ∧
      u = commitMem (writeSamples s.mem cd ys) s
  | .demod cd cs => CfgValid s ∧ ∃ xs ys, readSamples s.mem cs (streamLen s) = some xs ∧
      (∀ x ∈ xs, cxFinite x = true) ∧
      shapeBlocks (shapeDemod (cfgOf s)) (cfgOf s).nsub (cfgOf s).nsym 0 xs = .ok ys ∧
      u = commitMem (writeSamples s.mem cd ys) s
  | .chan cd cs => CfgValid s ∧ VarianceOk s ∧ ∃ xs ys, readSamples s.mem cs (streamLen s) = some xs ∧
      (∀ x ∈ xs, cxFinite x = true) ∧
      addNoise (fsqrt (snrVariance s)) s.noiseSeed s.noiseCtr (streamLen s) 0 xs = .ok ys ∧
      u = commitVar (pack (snrVariance s)) (commitCtr (s.noiseCtr + BitVec.ofNat 64 (2 * streamLen s))
        (commitMem (writeSamples s.mem cd ys) s))
  | .detect bd cs => CfgValid s ∧ ∃ xs, readSamples s.mem cs (streamLen s) = some xs ∧
      (∀ x ∈ xs, cxFinite x = true) ∧ u = commitMem (writeBits s.mem bd (decideBits xs)) s
  | .bercnt => CfgValid s ∧ ∃ v w, readBits s.mem 0 (2 * streamLen s) = some v ∧
      readBits s.mem 1 (2 * streamLen s) = some w ∧ (∀ b ∈ v, bitByte b = true) ∧ (∀ b ∈ w, bitByte b = true) ∧
      u = commitBer (BitVec.ofNat 64 (mismatches v w)) (BitVec.ofNat 64 (2 * streamLen s))
        (pack (fdiv (i2f (mismatches v w)) (i2f (2 * streamLen s)))) s
  | .papr cs => CfgValid s ∧ ∃ xs v, readSamples s.mem cs (streamLen s) = some xs ∧
      (∀ x ∈ xs, cxFinite x = true) ∧ paprOf xs (streamLen s) = .ok v ∧
      u = commitPapr (pack v.papr) (pack v.peak) (pack v.mean) s

/-- The state an instruction raises r in: its VALID bit dropped, and for a compute-phase error its destination
unspecified (60_exceptions R254). -/
def Raises (i : Instr) (s : State) (r : Raise) (t : State) : Prop :=
  r.kind ≠ .noError ∧ canReport i r.kind r.detail = true ∧
    ((t = raised r (dropOf i s) ∧ (r.kind = .numerical → r.detail = 1#4 ∨ r.detail = 2#4 → destSize s i = 0)) ∨
      (t = raised r (dropOf i (commitMem (forgetDestination i (streamLen s) s.mem) s)) ∧ r.kind = .numerical ∧
        (r.detail = 1#4 ∨ r.detail = 2#4)))

theorem raises_cfg {i : Instr} {s : State} {d : BitVec 4} (hi : i ≠ .nop) (hd : detailLegal .configuration d = true) :
    Raises i s ⟨.configuration, d, 0⟩ (raised ⟨.configuration, d, 0⟩ (dropOf i s)) := by
  refine ⟨by simp, ?_, Or.inl ⟨rfl, fun h => by cases h⟩⟩
  cases i with
  | nop => exact absurd rfl hi
  | _ => exact hd

/-- Every next state of a command is a raise of one of its errors or the commit of its success. -/
theorem exec_cases {i : Instr} {s t : State} (h : exec i s = .next t) :
    (∃ r, Raises i s r t) ∨ ∃ u, Commits s u i ∧ t = completed u := by
  cases i with
  | nop => cases h; exact Or.inr ⟨s, rfl, rfl⟩
  | check =>
    rcases execCheck_cases s with ⟨d, _, hd, he⟩ | ⟨hv, ⟨h1, he⟩ | ⟨h1, he⟩⟩ <;>
      simp only [exec, he, Host.Outcome.next.injEq] at h <;> subst h
    · exact Or.inl ⟨_, raises_cfg (by simp) hd⟩
    · exact Or.inr ⟨_, ⟨hv, h1, rfl⟩, rfl⟩
    · exact Or.inl ⟨_, by simp, rfl, Or.inl ⟨rfl, fun h => by cases h⟩⟩
  | qmap cd bs =>
    rcases execQmap_cases cd bs s with ⟨d, _, hd, he⟩ | ⟨hv, ⟨_, he⟩ | ⟨bytes, h1, he⟩⟩ <;>
      simp only [exec, he, Host.Outcome.next.injEq, reduceCtorEq] at h <;> subst h
    · exact Or.inl ⟨_, raises_cfg (i := .qmap cd bs) (by simp) hd⟩
    · rcases qmapResult_cases cd bytes s with ⟨j, _, hr⟩ | ⟨h2, hr⟩ <;> rw [hr]
      · exact Or.inl ⟨_, by simp, rfl, Or.inl ⟨rfl, fun h => by cases h⟩⟩
      · exact Or.inr ⟨_, ⟨hv, bytes, h1, h2, rfl⟩, rfl⟩
  | mod cd cs =>
    rcases execMod_cases cd cs s with ⟨d, _, hd, he⟩ | ⟨hv, ⟨_, he⟩ | ⟨xs, h1, he⟩⟩ <;>
      simp only [exec, he, Host.Outcome.next.injEq, reduceCtorEq] at h <;> subst h
    · exact Or.inl ⟨_, raises_cfg (i := .mod cd cs) (by simp) hd⟩
    · rcases shapeResult_cases (shapeMod (cfgOf s)) (cfgOf s) cd xs s with ⟨j, _, hr⟩ | ⟨h2, ⟨r, h3, hr⟩ | ⟨ys, h3, hr⟩⟩ <;>
        rw [hr]
      · exact Or.inl ⟨_, by simp, rfl, Or.inl ⟨rfl, fun _ h => by rcases h with h | h <;> cases h⟩⟩
      · obtain ⟨hk, hd⟩ := shapeBlocks_error (shapeOk_mod (cfgOf s)) h3
        exact Or.inl ⟨r, by rw [hk]; simp, by rw [hk]; rcases hd with hd | hd <;> rw [hd] <;> rfl, Or.inr ⟨rfl, hk, hd⟩⟩
      · exact Or.inr ⟨_, ⟨hv, xs, ys, h1, h2, h3, rfl⟩, rfl⟩
  | demod cd cs =>
    rcases execDemod_cases cd cs s with ⟨d, _, hd, he⟩ | ⟨hv, ⟨_, he⟩ | ⟨xs, h1, he⟩⟩ <;>
      simp only [exec, he, Host.Outcome.next.injEq, reduceCtorEq] at h <;> subst h
    · exact Or.inl ⟨_, raises_cfg (i := .demod cd cs) (by simp) hd⟩
    · rcases shapeResult_cases (shapeDemod (cfgOf s)) (cfgOf s) cd xs s with
        ⟨j, _, hr⟩ | ⟨h2, ⟨r, h3, hr⟩ | ⟨ys, h3, hr⟩⟩ <;> rw [hr]
      · exact Or.inl ⟨_, by simp, rfl, Or.inl ⟨rfl, fun _ h => by rcases h with h | h <;> cases h⟩⟩
      · obtain ⟨hk, hd⟩ := shapeBlocks_error (shapeOk_demod (cfgOf s)) h3
        exact Or.inl ⟨r, by rw [hk]; simp, by rw [hk]; rcases hd with hd | hd <;> rw [hd] <;> rfl, Or.inr ⟨rfl, hk, hd⟩⟩
      · exact Or.inr ⟨_, ⟨hv, xs, ys, h1, h2, h3, rfl⟩, rfl⟩
  | chan cd cs =>
    rcases execChan_cases cd cs s with ⟨d, _, hd, he⟩ | ⟨_, _, he⟩ | ⟨hv, hk, ⟨_, he⟩ | ⟨xs, h1, he⟩⟩ <;>
      simp only [exec, he, Host.Outcome.next.injEq, reduceCtorEq] at h <;> subst h
    · exact Or.inl ⟨_, raises_cfg (i := .chan cd cs) (by simp) hd⟩
    · exact Or.inl ⟨_, by simp, rfl, Or.inl ⟨rfl, fun h => by cases h⟩⟩
    · rcases chanResult_cases (cfgOf s) cd (snrVariance s) xs s with
        ⟨j, _, hr⟩ | ⟨h2, ⟨r, h3, hr⟩ | ⟨ys, h3, hr⟩⟩ <;> rw [hr]
      · exact Or.inl ⟨_, by simp, rfl, Or.inl ⟨rfl, fun _ h => by rcases h with h | h <;> cases h⟩⟩
      · obtain ⟨hr, hd⟩ := addNoise_error h3
        exact Or.inl ⟨r, by rw [hr]; simp, by rw [hr, hd]; rfl, Or.inr ⟨rfl, hr, Or.inl hd⟩⟩
      · exact Or.inr ⟨_, ⟨hv, hk, xs, ys, h1, h2, h3, rfl⟩, rfl⟩
  | detect bd cs =>
    rcases execDetect_cases bd cs s with ⟨d, _, hd, he⟩ | ⟨hv, ⟨_, he⟩ | ⟨xs, h1, he⟩⟩ <;>
      simp only [exec, he, Host.Outcome.next.injEq, reduceCtorEq] at h <;> subst h
    · exact Or.inl ⟨_, raises_cfg (i := .detect bd cs) (by simp) hd⟩
    · rcases detectResult_cases bd xs s with ⟨j, _, hr⟩ | ⟨h2, hr⟩ <;> rw [hr]
      · exact Or.inl ⟨_, by simp, rfl, Or.inl ⟨rfl, fun _ h => by rcases h with h | h <;> cases h⟩⟩
      · exact Or.inr ⟨_, ⟨hv, xs, h1, h2, rfl⟩, rfl⟩
  | bercnt =>
    rcases execBercnt_cases s with ⟨d, _, hd, he⟩ | ⟨hv, ⟨_, he⟩ | ⟨v, w, h1, h2, he⟩⟩ <;>
      simp only [exec, he, Host.Outcome.next.injEq, reduceCtorEq] at h <;> subst h
    · exact Or.inl ⟨_, raises_cfg (by simp) hd⟩
    · rcases bercntResult_cases v w (2 * streamLen s) s with ⟨j, _, hr⟩ | ⟨_, j, _, hr⟩ | ⟨h3, h4, hr⟩ <;> rw [hr]
      · exact Or.inl ⟨_, by simp, rfl, Or.inl ⟨rfl, fun h => by cases h⟩⟩
      · exact Or.inl ⟨_, by simp, rfl, Or.inl ⟨rfl, fun h => by cases h⟩⟩
      · exact Or.inr ⟨_, ⟨hv, v, w, h1, h2, h3, h4, rfl⟩, rfl⟩
  | papr cs =>
    rcases execPapr_cases cs s with ⟨d, _, hd, he⟩ | ⟨hv, ⟨_, he⟩ | ⟨xs, h1, he⟩⟩ <;>
      simp only [exec, he, Host.Outcome.next.injEq, reduceCtorEq] at h <;> subst h
    · exact Or.inl ⟨_, raises_cfg (i := .papr cs) (by simp) hd⟩
    · rcases paprResult_cases xs (streamLen s) s with ⟨j, _, hr⟩ | ⟨h2, ⟨r, h3, hr⟩ | ⟨v, h3, hr⟩⟩ <;> rw [hr]
      · exact Or.inl ⟨_, by simp, rfl, Or.inl ⟨rfl, fun _ h => by rcases h with h | h <;> cases h⟩⟩
      · obtain ⟨hk, hd⟩ := paprOf_error h3
        exact Or.inl ⟨r, by rw [hk]; simp, by rw [hk]; rcases hd with hd | hd <;> rw [hd] <;> rfl,
          Or.inl ⟨rfl, fun _ _ => rfl⟩⟩
      · exact Or.inr ⟨_, ⟨hv, xs, v, h1, h2, h3, rfl⟩, rfl⟩

end Sys2Proof.Machine
end

