-- ==== Sys2Proof/Laws/HostAccess.lean ====
section
/-!
SUPPORT. The bus side: which bytes are mapped, and what a transaction at a register of the map comes to.
-/

namespace Sys2Proof.Machine

theorem byteMapped_iff (a : Nat) : byteMapped a = true ↔ a < 0x1000 ∨ (0x040000 ≤ a ∧ a < 0x150000) := by
  simp [byteMapped, mappedRanges]; omega

theorem mapped_iff (a n : Nat) : mapped a n = true ↔
    ∀ k < n, a + k < 0x1000 ∨ (0x040000 ≤ a + k ∧ a + k < 0x150000) := by
  simp [mapped, byteMapped_iff]

theorem inRegisters_iff (a : Nat) : inRegisters a = true ↔ a < 0x1000 := by simp [inRegisters]; omega

/-- Eight bytes at an aligned offset of the register file are admitted (20_memory R66). -/
theorem admits_offset {k : Nat} (hk : k < 512) : admits (8 * k) 8 = true := by
  have h : mapped (8 * k) 8 = true := (mapped_iff _ _).2 fun j hj => by omega
  simp [admits, sizeWf, h, Config.addrSpace]
  omega

theorem inRegisters_offset {k : Nat} (hk : k < 512) : inRegisters (8 * k) = true := (inRegisters_iff _).2 (by omega)

theorem regAt_offset (k : Nat) : regAt (8 * k) = regList[k]? := by
  unfold regAt; congr 1; omega

/-- A write at register number k of the map is that register's write. -/
theorem busWrite_offset {k : Nat} {r : Reg} (hk : k < 512) (hr : regList[k]? = some r) (v : Word) (s : State) :
    busWrite (8 * k) 8 v s = regWrite r v s := by
  simp only [busWrite, admits_offset hk, inRegisters_offset hk, if_true, regWriteAt, regAt_offset, hr]

/-- A write at a reserved offset has no effect. -/
theorem busWrite_reserved {k : Nat} (hk : k < 512) (hr : regList[k]? = none) (v : Word) (s : State) :
    busWrite (8 * k) 8 v s = s := by
  simp only [busWrite, admits_offset hk, inRegisters_offset hk, if_true, regWriteAt, regAt_offset, hr]

/-- A read at register number k of the map is that register's value. -/
theorem busRead_offset {k : Nat} {r : Reg} (hk : k < 512) (hr : regList[k]? = some r) (s : State) :
    busRead (8 * k) 8 s = .data (regValue r s) := by
  simp only [busRead, admits_offset hk, inRegisters_offset hk, if_true, regRead, regAt_offset, hr]

/-- A read at a reserved offset is 0. -/
theorem busRead_reserved {k : Nat} (hk : k < 512) (hr : regList[k]? = none) (s : State) :
    busRead (8 * k) 8 s = .data 0#64 := by
  simp only [busRead, admits_offset hk, inRegisters_offset hk, if_true, regRead, regAt_offset, hr]

/-- Only the registers of 10_state R20 have a number: past the eighteenth every offset is reserved. -/
theorem regList_reserved {k : Nat} (hk : 18 ≤ k) : regList[k]? = none := List.getElem?_eq_none (by simpa [regList])

/-! ### ERR_INDEX as it is read -/

theorem errIndexRead_idle {s : State} (h : s.status.busy = false) : errIndexRead s = s.errIndex := by
  simp [errIndexRead, h]

theorem errIndexRead_busy {s : State} (h : s.status.busy = true) : errIndexRead s = s.heldErrIndex := by
  simp [errIndexRead, h]

/-- An issue is not seen in ERR_INDEX before the completion step (70_reset_and_hazards R291). -/
theorem errIndexRead_issue {s : State} (w : Word) (h : s.status.busy = false) :
    errIndexRead (issue w s) = errIndexRead s := by
  rw [errIndexRead_idle h, errIndexRead_busy rfl, issue_heldErrIndex]

/-! ### Answers -/

theorem regValue_answer (g : Reg) (r : Response) (s : State) : regValue g (answer r s) = regValue g s := by
  cases g <;> rfl

theorem hostBytes_answer (r : Response) (s : State) (a n : Nat) : hostBytes (answer r s) a n = hostBytes s a n := by
  induction n generalizing a with
  | zero => rfl
  | succ n ih => rw [hostBytes, hostBytes, ih]; rfl

/-- What has been answered has no part in the next answer. -/
@[simp] theorem busRead_answer (r : Response) (s : State) (a n : Nat) : busRead a n (answer r s) = busRead a n s := by
  simp only [busRead, regRead, regValue_answer, hostBytes_answer]

/-- No register write changes what has been answered. -/
@[simp] theorem regWrite_responses (g : Reg) (v : Word) (s : State) : (regWrite g v s).responses = s.responses := by
  cases g <;> simp only [regWrite, unlessBusy, writeCtrl, writeStatus] <;> (repeat' split) <;> simp

/-- No bus write changes what has been answered. -/
@[simp] theorem busWrite_responses (a n : Nat) (v : Word) (s : State) :
    (busWrite a n v s).responses = s.responses := by
  simp only [busWrite, regWriteAt, bufWrite, unlessBusy]
  repeat' split
  all_goals simp

/-! ### Runs -/

/-- A run of any machine goes on from the next state of its first step. -/
theorem run_next {M : Host.Core} {s t : M.State} (k : Nat) (h : M.step s = .next t) : M.run (k + 1) s = M.run k t := by
  simp only [Host.Core.run, h]

theorem core_run_next {s t : State} (k : Nat) (h : step s = .next t) :
    Host.Core.run Sys2Proof.core (k + 1) s = Host.Core.run Sys2Proof.core k t :=
  run_next (M := Sys2Proof.core) k h

end Sys2Proof.Machine
end

