-- ==== Sys2Proof/Laws/PerInstr.lean ====
section
/-!
SUPPORT. The statements made of every instruction by itself. `RowSelects`: of the rows of 30_encoding R93, exactly the
instruction's own matches its word, whatever its operands are.
-/

namespace Sys2Proof.Laws

/-- The mnemonic of an instruction, as 30_encoding R92 spells it. -/
def mnemonicOf : Instr → String
  | .nop => "NOP"
  | .check => "CHECK"
  | .qmap _ _ => "QMAP"
  | .mod _ _ => "MOD"
  | .demod _ _ => "DEMOD"
  | .chan _ _ => "CHAN"
  | .detect _ _ => "DETECT"
  | .bercnt => "BERCNT"
  | .papr _ => "PAPR"

/-- The mnemonics of the rows whose mask and match accept a word (30_encoding R93). -/
def rowsMatching (w : Word) : List String := (opRows.filter fun r => w &&& r.mask == r.value).map (·.mnemonic)

/-- Exactly the instruction's own row matches its word (30_encoding R93, R98). -/
def RowSelects.Statement (i : Instr) : Prop := rowsMatching (encode i) = [mnemonicOf i]

theorem RowSelects.nop : RowSelects.Statement .nop := by
  unfold RowSelects.Statement; decide

theorem RowSelects.check : RowSelects.Statement .check := by
  unfold RowSelects.Statement; decide

theorem RowSelects.qmap (cd : CIdx) (bs : BIdx) : RowSelects.Statement (.qmap cd bs) := by
  unfold RowSelects.Statement; revert cd bs; decide

theorem RowSelects.mod (cd cs : CIdx) : RowSelects.Statement (.mod cd cs) := by
  unfold RowSelects.Statement; revert cd cs; decide

theorem RowSelects.demod (cd cs : CIdx) : RowSelects.Statement (.demod cd cs) := by
  unfold RowSelects.Statement; revert cd cs; decide

theorem RowSelects.chan (cd cs : CIdx) : RowSelects.Statement (.chan cd cs) := by
  unfold RowSelects.Statement; revert cd cs; decide

theorem RowSelects.detect (bd : BIdx) (cs : CIdx) : RowSelects.Statement (.detect bd cs) := by
  unfold RowSelects.Statement; revert bd cs; decide

theorem RowSelects.bercnt : RowSelects.Statement .bercnt := by
  unfold RowSelects.Statement; decide

theorem RowSelects.papr (cs : CIdx) : RowSelects.Statement (.papr cs) := by
  unfold RowSelects.Statement; revert cs; decide

end Sys2Proof.Laws
end

