-- ==== Sys2Proof/Tests/Slice0.lean ====
section
/-!
SUPPORT. Tests: what the well-formedness checks refuse, words written out from 30_encoding R98, one-step vectors of
95_test_vectors, and for every statement that has hypotheses a witness that meets them (`test_witness_…`). An expected
value stands in 95_test_vectors under the vector's name, or follows from the rule named. Where a hypothesis is about a
parameter without a body, the witness shows that some parameter meets it.
-/

namespace Sys2Proof.Tests

open Sys2Proof Sys2Proof.Machine Sys2Proof.Safety

set_option Elab.async false

/-- The next state of an outcome, if it is one. -/
def after (o : Host.Outcome State Fault Refusal) : Option State :=
  match o with
  | .next t => some t
  | .fault _ => none
  | .refused _ => none

/-- STATUS after an outcome. -/
def statusAfter (o : Host.Outcome State Fault Refusal) : Option Word := (after o).map fun t => statusWord t.status

/-- 1.0, -1.0, +infinity and a NaN, as patterns. -/
def one : Word := 0x3FF0000000000000#64
def minusOne : Word := 0xBFF0000000000000#64
def infinite : Word := 0x7FF0000000000000#64
def someNan : Word := 0x7FF8000000000000#64

/-- After reset with N = n, S = m, wavelet code w and a buffer memory. -/
def small (n m w : Nat) (mem : Mem) : State :=
  { State.reset with
    cfgNsub := BitVec.ofNat 64 n
    cfgNsym := BitVec.ofNat 64 m
    cfgWavelet := BitVec.ofNat 64 w
    mem := mem }

/-- Samples in CB0. -/
def inCb0 (xs : List Cx) : Mem := writeSamples [] 0 xs

/-- Bytes in BB0 and in BB1. -/
def inBb (v u : List Byte) : Mem := writeBits (writeBits [] 0 v) 1 u

/-! ### Well-formedness (30_encoding R100) -/

theorem test_wellformed_accepts : inputWf (.write 0x040006 2 0xC000#64) = true := by decide
theorem test_wellformed_refuses_a_size : inputWf (.read 0 3) = false := by decide
theorem test_wellformed_refuses_an_address : inputWf (.read 0x1000000 1) = false := by decide
theorem test_wellformed_refuses_data : inputWf (.write 0x140000 1 0x100#64) = false := by decide

/-! ### Decoding: the words of 30_encoding R98, field by field: RSV, BSEL, CD, CS, OPC -/

theorem test_decode_nop : decode (0#51 ++ 0b0#1 ++ 0b00#2 ++ 0b00#2 ++ 0x00#8) = .ok .nop := by decide
theorem test_decode_check : decode (0#51 ++ 0b0#1 ++ 0b00#2 ++ 0b00#2 ++ 0x01#8) = .ok .check := by decide
theorem test_decode_qmap : decode (0#51 ++ 0b1#1 ++ 0b11#2 ++ 0b00#2 ++ 0x10#8) = .ok (.qmap 3 1) := by decide
theorem test_decode_mod : decode (0#51 ++ 0b0#1 ++ 0b01#2 ++ 0b00#2 ++ 0x20#8) = .ok (.mod 1 0) := by decide
theorem test_decode_demod : decode (0#51 ++ 0b0#1 ++ 0b11#2 ++ 0b10#2 ++ 0x21#8) = .ok (.demod 3 2) := by decide
theorem test_decode_chan : decode (0#51 ++ 0b0#1 ++ 0b10#2 ++ 0b01#2 ++ 0x30#8) = .ok (.chan 2 1) := by decide
theorem test_decode_detect : decode (0#51 ++ 0b1#1 ++ 0b00#2 ++ 0b11#2 ++ 0x40#8) = .ok (.detect 1 3) := by decide
theorem test_decode_bercnt : decode (0#51 ++ 0b0#1 ++ 0b00#2 ++ 0b00#2 ++ 0x41#8) = .ok .bercnt := by decide
theorem test_decode_papr : decode (0#51 ++ 0b0#1 ++ 0b00#2 ++ 0b11#2 ++ 0x50#8) = .ok (.papr 3) := by decide

/-- ENC-3, ENC-9, ENC-11, ENC-13, ENC-14. -/
theorem test_decode_illegal :
    decode 0xFF#64 = .error .unknownOpcode ∧ decode 0x110#64 = .error .reservedField ∧
    decode 0x450#64 = .error .reservedField ∧ decode 0xC40#64 = .error .reservedField ∧
    decode 0x141#64 = .error .reservedField := by decide

theorem test_decode_table_word : decodeTableWord 64 0x1C10 = some (.qmap 3 1) := by decide

/-! ### The step of the first command after reset -/

/-- ENC-1, ENC-2, ENC-4. -/
theorem test_step_first_command :
    statusAfter (step (State.reset.withFetchWord 64 0x0)) = some 0x2#64 ∧
    statusAfter (step (State.reset.withFetchWord 64 0x2)) = some 0x10402#64 ∧
    statusAfter (step (State.reset.withFetchWord 64 0x2000)) = some 0x20402#64 := by decide +kernel

/-! ### Bus transactions -/

/-- BUS-1 to BUS-7. -/
theorem test_bus_registers :
    busRead 0x000 8 State.reset = .data 0x00000001574F464D#64 ∧ busRead 0x000 4 State.reset = .busError ∧
    busRead 0x004 8 State.reset = .busError ∧ busRead 0x001000 8 State.reset = .busError ∧
    busRead 0x150000 1 State.reset = .busError ∧ busRead 0x090 8 State.reset = .data 0#64 ∧
    busWrite 0x090 8 0xFFFFFFFFFFFFFFFF#64 State.reset = State.reset := by decide +kernel

/-- BUS-8, BUS-9. -/
theorem test_bus_buffers :
    let s := busWrite 0x040000 8 one State.reset
    let t := busWrite 0x040006 2 0xC000#64 s
    busRead 0x040004 4 s = .data 0x3FF00000#64 ∧ busRead 0x040000 4 s = .data 0#64 ∧
    busRead 0x040007 1 s = .data 0x3F#64 ∧ busRead 0x040000 8 t = .data 0xC000000000000000#64 := by decide +kernel

/-! ### Commands -/

/-- CTL-5, CTL-7, CTL-8, CTL-9, CTL-11. -/
theorem test_check_configuration :
    statusAfter (exec .check (small 60 1 1 [])) = some 0x10102#64 ∧
    statusAfter (exec .check (small 60 0 6 [])) = some 0x10102#64 ∧
    statusAfter (exec .check (small 64 0 6 [])) = some 0x20102#64 ∧
    statusAfter (exec .check (small 64 0 1 [])) = some 0x30102#64 ∧
    statusAfter (exec .check (small 16384 2 1 [])) = some 0x40102#64 := by decide +kernel

/-- CTL-16. -/
theorem test_check_infinite_snr :
    statusAfter (exec .check { State.reset with snrDb := infinite }) = some 0x10302#64 := by decide +kernel

/-- CTL-14: NOP does not check. -/
theorem test_nop_does_not_check : statusAfter (exec .nop (small 60 0 6 [])) = some 0x2#64 := by decide +kernel

/-- QM-3. -/
theorem test_qmap_maps :
    (after (exec (.qmap 0 0) (small 2 1 1 (inBb [0, 0, 1, 1] [])))).map (fun t => (sampleAt t 0 0, sampleAt t 0 1)) =
      some (some ⟨minusOne, minusOne⟩, some ⟨one, one⟩) := by decide +kernel

/-- QM-4. -/
theorem test_qmap_bad_byte :
    (after (exec (.qmap 0 0) (small 2 1 1 (inBb [1, 0, 0, 2] [])))).map
      (fun t => (statusWord t.status, t.errIndex, sampleAt t 0 0)) = some (0x10502#64, 3#64, none) := by decide +kernel

/-- MOD-10. -/
theorem test_mod_refuses_non_finite :
    (after (exec (.mod 1 0)
        (small 2 2 1 (inCb0 [⟨one, one⟩, ⟨infinite, one⟩, ⟨one, one⟩, ⟨one, someNan⟩])))).map
      (fun t => (statusWord t.status, t.errIndex)) = some (0x40202#64, 1#64) := by decide +kernel

/-- RS-3 for DEMOD: a source that was never written (70_reset_and_hazards R281). -/
theorem test_demod_unwritten : exec (.demod 1 0) (small 2 1 1 []) = .fault .unwrittenSource := rfl

/-- CH-7. -/
theorem test_chan_nan_snr :
    (after (exec (.chan 1 0) { small 2 1 1 [] with snrDb := someNan, noiseCtr := 8#64 })).map
      (fun t => (statusWord t.status, t.noiseCtr)) = some (0x10302#64, 8#64) := by decide +kernel

/-- CH-2, sample 1: 1 + (-0.7), and L1-2: the roots of 0.32 and of 32. -/
theorem test_chan_arithmetic :
    pack (fadd (unpack one) (fmul (i2f 1) (unpack 0xBFE6666666666666#64))) = 0x3FD3333333333334#64 ∧
    pack (fsqrt (fdiv (i2f 64) (i2f 200))) = 0x3FE21A1851FF630A#64 ∧
    pack (fsqrt (i2f 32)) = 0x4016A09E667F3BCD#64 := by decide +kernel

/-- DET-1. -/
theorem test_detect_decides :
    (after (exec (.detect 1 0)
        (small 2 1 1 (inCb0 [⟨0x3FE0000000000000#64, 0xBFF8000000000000#64⟩,
          ⟨0xC000000000000000#64, 0x4008000000000000#64⟩])))).map
      (fun t => (bitAt t 1 0, bitAt t 1 1, bitAt t 1 2, bitAt t 1 3)) = some (some 1, some 0, some 0, some 1) := by
  decide +kernel

/-- DET-2, DET-3: signed zeros and the smallest subnormals. -/
theorem test_detect_threshold :
    decideBit 0x0000000000000000#64 = 0#8 ∧ decideBit 0x8000000000000000#64 = 0#8 ∧
    decideBit 0x0000000000000001#64 = 1#8 ∧ decideBit 0x8000000000000001#64 = 0#8 := by decide +kernel

/-- BER-1. -/
theorem test_bercnt_counts :
    (after (exec .bercnt (small 4 1 1 (inBb [1, 1, 0, 1, 1, 0, 0, 0] [1, 1, 1, 1, 1, 1, 0, 0])))).map
      (fun t => (t.errBits, t.totalBits, t.ber)) = some (2#64, 8#64, 0x3FD0000000000000#64) := by decide +kernel

/-- BER-6: BB0 is scanned before BB1. -/
theorem test_bercnt_scans_bb0_first :
    (after (exec .bercnt (small 4 1 1 (inBb [0, 0, 0, 0, 0, 0, 0x10, 0] [0, 3, 0, 0, 0, 0, 0, 0])))).map
      (fun t => (statusWord t.status, t.errIndex)) = some (0x10502#64, 6#64) := by decide +kernel

/-- PA-1: peak 2.0, mean 0.5, ratio 4.0. -/
theorem test_papr_quantities :
    let ps := [⟨one, one⟩, ⟨0, 0⟩, ⟨0, 0⟩, ⟨0, 0⟩].map power
    pack (peakOf ps) = 0x4000000000000000#64 ∧ pack (fdiv (sumOf ps) (i2f 4)) = 0x3FE0000000000000#64 ∧
    pack (fdiv (peakOf ps) (fdiv (sumOf ps) (i2f 4))) = 0x4010000000000000#64 := by decide +kernel

/-- PA-8: the sum overflows, ERR_INDEX = L (both powers are finite: 1e154 squared). -/
theorem test_papr_sum_overflows :
    (after (exec (.papr 0) (small 2 1 1 (inCb0 [⟨0x5FE7DDDF6B095FF1#64, 0⟩, ⟨0x5FE7DDDF6B095FF1#64, 0⟩])))).map
      (fun t => (statusWord t.status, t.errIndex)) = some (0x10202#64, 2#64) := by decide +kernel

/-! ### Witnesses: encoding and the step -/

/-- A command in flight whose completion is next: word w, one sample and two bits written in each buffer 0. -/
def inFlight (w : Word) : State :=
  { small 1 1 1 (writeBits (inCb0 [⟨one, minusOne⟩]) 0 [1, 0]) with
    cmd := w
    status := { Status.reset with busy := true } }

/-- One input to come, and a command in flight with Host steps before its completion. -/
def hostNext (w : Word) (i : Input) : State := { inFlight w with inputs := [i], patience := 2 }

theorem test_witness_LegalWordsAreTheEncodings : decode 0x420#64 = .ok (.mod 1 0) := by decide

theorem test_witness_NoWordMatchesTwoRows :
    (⟨"NOP", 0xFFFFFFFFFFFFFFFF#64, 0x00#64, fun _ _ _ => .nop⟩ : OpRow) ∈ opRows ∧
      0#64 &&& 0xFFFFFFFFFFFFFFFF#64 = 0x00#64 := ⟨List.mem_cons_self .., by decide⟩

theorem test_witness_IllegalWordsCompleteWithTheError :
    State.reset.status.busy = false ∧
    ((inFlight 0x2#64).status.busy = true ∧ (inFlight 0x2#64).patience = 0 ∧
      opcOf (inFlight 0x2#64).cmd ∉ [0x00#8, 0x01#8, 0x10#8, 0x20#8, 0x21#8, 0x30#8, 0x40#8, 0x41#8, 0x50#8]) ∧
    (opcOf (inFlight 0x2000#64).cmd ∈ [0x00#8, 0x01#8, 0x10#8, 0x20#8, 0x21#8, 0x30#8, 0x40#8, 0x41#8, 0x50#8] ∧
      (inFlight 0x2000#64).inputs = [] ∧ ∀ i, encode i ≠ (inFlight 0x2000#64).cmd) := by
  refine ⟨rfl, ⟨rfl, rfl, by decide⟩, by decide, rfl, fun i => ?_⟩
  show encode i ≠ 0x2000#64
  cases i with
  | nop => decide
  | check => decide
  | qmap a b => revert a b; decide
  | mod a b => revert a b; decide
  | demod a b => revert a b; decide
  | chan a b => revert a b; decide
  | detect a b => revert a b; decide
  | bercnt => decide
  | papr a => revert a; decide

theorem test_witness_StepRunsTheDecodedCommand :
    (inFlight 0x50#64).status.busy = true ∧ (inFlight 0x50#64).patience = 0 ∧
      decode (inFlight 0x50#64).cmd = .ok (.papr 0) := by decide

theorem test_witness_OtherwiseTheHostMoves :
    ((hostNext 0x50#64 .wait).inputs = [.wait] ∧ (hostNext 0x50#64 .wait).patience ≠ 0) ∧
    ((hostNext 0x50#64 (.write 0x018 8 1#64)).inputs = [.write 0x018 8 1#64] ∧
      (hostNext 0x50#64 (.write 0x018 8 1#64)).patience ≠ 0) ∧
    ((hostNext 0x50#64 (.read 0x041 2)).inputs = [.read 0x041 2] ∧ (hostNext 0x50#64 (.read 0x041 2)).patience ≠ 0) ∧
    ((hostNext 0x50#64 .hardReset).inputs = [.hardReset] ∧ (hostNext 0x50#64 .hardReset).patience ≠ 0) ∧
    (State.reset.inputs = [] ∧ State.reset.status.busy = false) := by decide

theorem test_witness_CompletionComesWithinThePatience : (hostNext 0x50#64 .wait).status.busy = true := rfl

theorem test_witness_EveryCompletionEndsTheCommand :
    ∃ t, exec .nop (inFlight 0#64) = .next t ∧ t.status.err = .noError := ⟨_, rfl, rfl⟩

/-! ### Witnesses: control commands -/

theorem cfgValid_of (s : State) (k : Nat) (h1 : s.cfgNsub.toNat = 2 ^ k) (h2 : s.cfgWavelet.toNat ≤ 5)
    (h3 : 1 ≤ s.cfgNsym.toNat) (h4 : s.cfgNsub.toNat * s.cfgNsym.toNat ≤ 16384) : CfgValid s :=
  ⟨⟨k, h1⟩, h2, h3, h4⟩

theorem test_witness_NopCompletes :
    (inFlight 0x100#64).status.busy = true ∧ (inFlight 0x100#64).patience = 0 ∧
      opcOf (inFlight 0x100#64).cmd = 0x00#8 ∧ (inFlight 0x100#64).cmd ≠ 0#64 := by decide

/-- N = 60, N = 0, W = 6, S = 0 and L = 32768, and the largest valid N (CTL-4, CTL-5, CTL-6, CTL-9, CTL-10, CTL-11). -/
theorem test_witness_ConfigurationErrors :
    (∀ k, (small 60 1 1 []).cfgNsub.toNat ≠ 2 ^ k) ∧ (∀ k, (small 0 1 1 []).cfgNsub.toNat ≠ 2 ^ k) ∧
    ((small 64 0 6 []).cfgNsub.toNat = 2 ^ 6 ∧ 5 < (small 64 0 6 []).cfgWavelet.toNat) ∧
    ((small 64 0 5 []).cfgWavelet.toNat ≤ 5 ∧ (small 64 0 5 []).cfgNsym.toNat = 0) ∧
    ((small 16384 2 5 []).cfgNsub.toNat = 2 ^ 14 ∧ (small 16384 2 5 []).cfgNsym.toNat ≠ 0 ∧
      16384 < (small 16384 2 5 []).cfgNsub.toNat * (small 16384 2 5 []).cfgNsym.toNat) ∧
    CfgValid (small 16384 1 0 []) ∧ ∃ t, exec .check (small 16384 1 0 []) = .next t := by
  refine ⟨fun k => ?_, fun k => ?_, by decide, by decide, by decide, cfgValid_of _ 14 rfl (by decide) (by decide)
    (by decide), ?_⟩
  · show 60 ≠ 2 ^ k
    intro h
    rcases Nat.lt_or_ge k 6 with hk | hk
    · interval_cases k <;> omega
    · have : 2 ^ 6 ≤ 2 ^ k := Nat.pow_le_pow_right (by norm_num) hk
      omega
  · show 0 ≠ 2 ^ k
    have : 0 < 2 ^ k := by positivity
    omega
  · rcases execCheck_cases (small 16384 1 0 []) with ⟨d, _, _, h⟩ | ⟨_, ⟨_, h⟩ | ⟨_, h⟩⟩ <;> exact ⟨_, h⟩

/-- A power of ten by the integer a pattern holds. -/
def tenTo (w : Word) : Word :=
  match unpack w with
  | .fin _ m e => pack (i2f (10 ^ (m * 2 ^ e / 2 ^ 1074)))
  | .inf _ => 0#64
  | .nan => 0#64

theorem test_pow10_exact_is_met : ∃ f, Pow10Exact f := ⟨tenTo, by unfold Pow10Exact; decide +kernel⟩

/-- Right after reset the noise variance is in range, given POW10_EXACT; with an infinite SNR it is not. -/
theorem test_witness_CheckComputesTheVariance :
    CfgValid State.reset ∧ (Pow10Exact Config.pow10 → VarianceOk State.reset) ∧
      ¬ VarianceOk { State.reset with snrDb := infinite } := by
  refine ⟨cfgValid_of _ 6 rfl (by decide) (by decide) (by decide), fun h => ?_, ?_⟩
  · have h0 : Config.pow10 0#64 = one := h 0 (by norm_num)
    have hs : snrVariance State.reset = fdiv (i2f 64) (fmul (i2f 2) (unpack (Config.pow10 0#64))) := rfl
    rw [VarianceOk, hs, h0]
    decide +kernel
  · unfold VarianceOk; decide +kernel

theorem test_witness_CheckAfterReset : ∃ f, Pow10Exact f := test_pow10_exact_is_met

theorem test_witness_NonFiniteSnrIsOutOfRange :
    CfgValid { State.reset with snrDb := infinite } ∧ isFinite (unpack infinite) = false ∧
      isFinite (unpack someNan) = false :=
  ⟨cfgValid_of _ 6 rfl (by decide) (by decide) (by decide), by decide, by decide⟩

/-! ### Witnesses: bits and samples -/

/-- Two samples' worth of bits in BB0 and BB1, and two samples in CB0, under N = 2, S = 1 and wavelet code w. -/
def stocked (w : Nat) (xs : List Cx) (v u : List Byte) : State :=
  small 2 1 w (writeBits (writeBits (inCb0 xs) 0 v) 1 u)

/-- The elements of a list, and a default past its end. -/
def nthCx (xs : List Cx) (i : Nat) : Cx := xs.getD i ⟨0, 0⟩
def nthBit (v : List Byte) (j : Nat) : Byte := v.getD j 0

theorem valid_stocked (w : Nat) (hw : (BitVec.ofNat 64 w).toNat ≤ 5) (xs : List Cx) (v u : List Byte) :
    CfgValid (stocked w xs v u) := cfgValid_of _ 1 rfl hw (le_refl 1) (by show 2 * 1 ≤ 16384; omega)

/-- Two finite samples, two with a NaN, two of zeros, two whose powers overflow. -/
def good : List Cx := [⟨one, minusOne⟩, ⟨minusOne, one⟩]
def bad : List Cx := [⟨one, minusOne⟩, ⟨minusOne, someNan⟩]
def zeros : List Cx := [⟨0#64, 0x8000000000000000#64⟩, ⟨0x8000000000000000#64, 0#64⟩]
def huge : List Cx := [⟨0x601DD55745CBB7ED#64, 0#64⟩, ⟨one, 0#64⟩]

theorem test_witness_QmapMapsTheBits :
    CfgValid (stocked 1 [] [1, 0, 0, 1] []) ∧ HoldsBits (stocked 1 [] [1, 0, 0, 1] []) 0 (nthBit [1, 0, 0, 1]) ∧
      ∀ j < 2 * streamLen (stocked 1 [] [1, 0, 0, 1] []), nthBit [1, 0, 0, 1] j = 0#8 ∨ nthBit [1, 0, 0, 1] j = 1#8 := by
  refine ⟨valid_stocked 1 (by decide) _ _ _, ?_, by decide +kernel⟩
  unfold HoldsBits; decide +kernel

/-- A first bad byte at the last index, in BB0 with anything in BB1, and in BB1 behind a good BB0. -/
theorem test_witness_BadBitBytesAreRefused :
    let v : List Byte := [1, 0, 0, 2]
    let u : List Byte := [1, 1, 0, 0]
    CfgValid (stocked 1 [] v u) ∧ 3 < 2 * streamLen (stocked 1 [] v u) ∧ nthBit v 3 ≠ 0#8 ∧ nthBit v 3 ≠ 1#8 ∧
      (∀ k < 3, nthBit v k = 0#8 ∨ nthBit v k = 1#8) ∧ HoldsBits (stocked 1 [] v u) 0 (nthBit v) ∧
      HoldsBits (stocked 1 [] v u) 1 (nthBit u) ∧
      (HoldsBits (stocked 1 [] u v) 0 (nthBit u) ∧ HoldsBits (stocked 1 [] u v) 1 (nthBit v) ∧
        ∀ k < 2 * streamLen (stocked 1 [] u v), nthBit u k = 0#8 ∨ nthBit u k = 1#8) := by
  refine ⟨valid_stocked 1 (by decide) _ _ _, ?_⟩
  unfold HoldsBits; decide +kernel

theorem test_witness_DetectInvertsQmap :
    CfgValid (stocked 1 [] [1, 0, 0, 1] []) ∧ HoldsBits (stocked 1 [] [1, 0, 0, 1] []) 0 (nthBit [1, 0, 0, 1]) ∧
      ∀ j < 2 * streamLen (stocked 1 [] [1, 0, 0, 1] []), nthBit [1, 0, 0, 1] j = 0#8 ∨ nthBit [1, 0, 0, 1] j = 1#8 :=
  test_witness_QmapMapsTheBits

/-- A written, finite source under a real wavelet; and a block result of each kind the clauses speak of. -/
theorem test_witness_WaveletShaping :
    CfgValid (stocked 5 good [] []) ∧ (stocked 5 good [] []).cfgWavelet.toNat ≠ 0 ∧
      Holds (stocked 5 good [] []) 0 (nthCx good) ∧ AllFinite (stocked 5 good [] []) (nthCx good) ∧
      GoodTrip 2 (good ++ bad) ∧ ([] : List Cx).length < 2 ∧
      (2 ≤ bad.length ∧ bad[1]? = some ⟨minusOne, someNan⟩ ∧ cxFinite ⟨minusOne, someNan⟩ = false ∧
        ∀ n' < 1, ∀ y', bad[n']? = some y' → cxFinite y' = true) := by
  refine ⟨valid_stocked 5 (by decide) _ _ _, by decide, ?_, ?_, ⟨by decide, fun k hk y hy => ?_⟩, by decide, by decide,
    rfl, by decide +kernel, fun n' hn y' hy => ?_⟩
  · unfold Holds; decide +kernel
  · unfold AllFinite; decide +kernel
  · interval_cases k <;> (simp [good, bad] at hy; subst hy; decide +kernel)
  · interval_cases n'; simp [bad] at hy; subst hy; decide +kernel

theorem test_witness_BaselineShaping :
    CfgValid (stocked 0 good [] []) ∧ (stocked 0 good [] []).cfgWavelet.toNat = 0 ∧
      Holds (stocked 0 good [] []) 0 (nthCx good) ∧ AllFinite (stocked 0 good [] []) (nthCx good) := by
  refine ⟨valid_stocked 0 (by decide) _ _ _, by decide, ?_, ?_⟩
  · unfold Holds; decide +kernel
  · unfold AllFinite; decide +kernel

/-- A library that hands the block through meets WT_ID and WT_CLOSE(tol) for every tol. -/
theorem test_wt_premises_are_met :
    WtId (C := List Cx) (fun x _ _ => x) (fun c _ => c) ∧
      ∀ tol : ℚ, 0 ≤ tol → WtClose tol (C := List Cx) (fun x _ _ => x) (fun c _ => c) := by
  refine ⟨fun w k x _ n _ => rfl, fun tol _ w k x h => ⟨h.2.2.1.ge, fun n hn => ?_⟩⟩
  have hx : n < x.length := by rw [h.2.2.1]; exact hn
  refine ⟨x[n], x[n], List.getElem?_eq_getElem hx, List.getElem?_eq_getElem hx, h.2.2.2 _ (List.getElem_mem hx), x[n],
    List.getElem_mem hx, ?_⟩
  have h0 : distSq x[n] x[n] = 0 := by simp [distSq]
  rw [h0]
  unfold normSq
  positivity

theorem test_witness_IdentityTransformCopies :
    (WtId (C := List Cx) (fun x _ _ => x) (fun c _ => c)) ∧ CfgValid (stocked 5 good [] []) ∧
      (stocked 5 good [] []).cfgWavelet.toNat ≠ 0 ∧ Holds (stocked 5 good [] []) 0 (nthCx good) ∧
      AllFinite (stocked 5 good [] []) (nthCx good) :=
  ⟨test_wt_premises_are_met.1, test_witness_WaveletShaping.1, test_witness_WaveletShaping.2.1,
    test_witness_WaveletShaping.2.2.1, test_witness_WaveletShaping.2.2.2.1⟩

theorem test_witness_LosslessRoundTrip :
    (∀ tol : ℚ, 0 ≤ tol → WtClose tol (C := List Cx) (fun x _ _ => x) (fun c _ => c)) ∧
      CfgValid (stocked 5 good [] []) ∧ Holds (stocked 5 good [] []) 0 (nthCx good) :=
  ⟨test_wt_premises_are_met.2, test_witness_WaveletShaping.1, test_witness_WaveletShaping.2.2.1⟩

theorem test_witness_NonFiniteSourceIsRefused :
    CfgValid (stocked 1 bad [] []) ∧ Holds (stocked 1 bad [] []) 0 (nthCx bad) ∧
      1 < streamLen (stocked 1 bad [] []) ∧ cxFinite (nthCx bad 1) = false ∧
      (∀ k < 1, cxFinite (nthCx bad k) = true) ∧ (Pow10Exact Config.pow10 → VarianceOk (stocked 1 bad [] [])) := by
  refine ⟨valid_stocked 1 (by decide) _ _ _, ?_, by decide, by decide +kernel, by decide +kernel, fun h => ?_⟩
  · unfold Holds; decide +kernel
  · have h0 : Config.pow10 0#64 = one := h 0 (by norm_num)
    have hs : snrVariance (stocked 1 bad [] []) = fdiv (i2f 2) (fmul (i2f 2) (unpack (Config.pow10 0#64))) := rfl
    rw [VarianceOk, hs, h0]
    decide +kernel

/-- The hypotheses; the variance in range and out of range; a draw that keeps a sum finite and one that does not. -/
theorem test_witness_ChanAddsTheDraws :
    CfgValid (stocked 1 good [] []) ∧ Holds (stocked 1 good [] []) 0 (nthCx good) ∧
      AllFinite (stocked 1 good [] []) (nthCx good) ∧
      (Pow10Exact Config.pow10 → VarianceOk (stocked 1 good [] [])) ∧
      ¬ VarianceOk { stocked 1 good [] [] with snrDb := someNan } ∧
      isFinite (fadd (unpack one) (fmul (i2f 1) (unpack minusOne))) = true ∧
      isFinite (fadd (unpack one) (fmul (i2f 1) (unpack infinite))) = false := by
  refine ⟨valid_stocked 1 (by decide) _ _ _, ?_, ?_, fun h => ?_, ?_, by decide +kernel, by decide +kernel⟩
  · unfold Holds; decide +kernel
  · unfold AllFinite; decide +kernel
  · have h0 : Config.pow10 0#64 = one := h 0 (by norm_num)
    have hs : snrVariance (stocked 1 good [] []) = fdiv (i2f 2) (fmul (i2f 2) (unpack (Config.pow10 0#64))) := rfl
    rw [VarianceOk, hs, h0]
    decide +kernel
  · unfold VarianceOk; decide +kernel

/-- With POW10_EXACT and a noise source of zeros, CHAN of two symbols succeeds. -/
theorem test_chan_succeeds_without_noise (hp : Pow10Exact Config.pow10) (hg : ∀ a b, Config.gauss a b = 0#64) :
    ∃ t, exec (.chan 1 0) (stocked 1 good [] []) = .next t ∧ t.status.err = .noError := by
  have h0 : Config.pow10 0#64 = one := hp 0 (by norm_num)
  have hs : snrVariance (stocked 1 good [] []) = i2f 1 := by
    have : snrVariance (stocked 1 good [] []) = fdiv (i2f 2) (fmul (i2f 2) (unpack (Config.pow10 0#64))) := rfl
    rw [this, h0]; decide +kernel
  have hread : readSamples (stocked 1 good [] []).mem 0 2 = some good := by decide +kernel
  have hfin : ∀ x ∈ good, isFinite (noisyOf (fsqrt (i2f 1)) x ⟨unpack 0#64, unpack 0#64⟩).re = true ∧
      isFinite (noisyOf (fsqrt (i2f 1)) x ⟨unpack 0#64, unpack 0#64⟩).im = true := by decide +kernel
  rcases execChan_cases 1 0 (stocked 1 good [] []) with ⟨d, hd, _⟩ | ⟨_, hn, _⟩ | ⟨_, _, ⟨hn, _⟩ | ⟨xs, hx, he⟩⟩
  · rw [(cfgFailure_eq_none_iff _).2 (valid_stocked 1 (by decide) _ _ _)] at hd; cases hd
  · exact absurd (test_witness_ChanAddsTheDraws.2.2.2.1 hp) hn
  · exact absurd (hn.symm.trans hread) (by simp)
  · have hxs : xs = good := Option.some.inj (hx.symm.trans hread)
    rw [hxs, hs] at he
    rcases chanResult_cases (cfgOf (stocked 1 good [] [])) 1 (i2f 1) good (stocked 1 good [] []) with
      ⟨i, hi, _⟩ | ⟨_, ⟨r, hr, _⟩ | ⟨ys, _, hy⟩⟩
    · exact absurd hi (by rw [(firstNonFinite_eq_none_iff good 0).2 (by decide +kernel)]; simp)
    · rcases addNoise_cases (fsqrt (i2f 1)) (stocked 1 good [] []).noiseSeed (stocked 1 good [] []).noiseCtr
        (cfgLen (cfgOf (stocked 1 good [] []))) good 0 with ⟨_, ys, hok, _⟩ | ⟨k, x, hk, hbad, _⟩
      · rw [hok] at hr; cases hr
      · rw [drawOf, hg, hg] at hbad
        exact absurd (hfin x (List.mem_of_getElem? hk)) hbad
    · exact ⟨_, by rw [exec, he, hy], rfl⟩

/-- A command that is no CHAN, and a CHAN that raises. -/
theorem test_witness_OnlyChanMovesTheCounter :
    (∃ t, exec .nop State.reset = .next t) ∧
      ∃ t, exec (.chan 1 0) { stocked 1 good [] [] with snrDb := someNan } = .next t ∧ t.status.err ≠ .noError :=
  ⟨⟨_, rfl⟩, by
    have hv : cfgFailure { stocked 1 good [] [] with snrDb := someNan } = none := by decide +kernel
    rcases execChan_cases 1 0 { stocked 1 good [] [] with snrDb := someNan } with
      ⟨d, h, _⟩ | ⟨_, _, h⟩ | ⟨_, h, _⟩
    · rw [hv] at h; cases h
    · exact ⟨_, h, by simp⟩
    · exact absurd h test_witness_ChanAddsTheDraws.2.2.2.2.1⟩

theorem test_witness_DetectDecidesTheBits :
    CfgValid (stocked 1 good [] []) ∧ Holds (stocked 1 good [] []) 0 (nthCx good) ∧
      AllFinite (stocked 1 good [] []) (nthCx good) :=
  ⟨test_witness_ChanAddsTheDraws.1, test_witness_ChanAddsTheDraws.2.1, test_witness_ChanAddsTheDraws.2.2.1⟩

theorem test_witness_SignedZerosDecideZero :
    CfgValid (stocked 1 zeros [] []) ∧ Holds (stocked 1 zeros [] []) 0 (nthCx zeros) ∧
      AllFinite (stocked 1 zeros [] []) (nthCx zeros) := by
  refine ⟨valid_stocked 1 (by decide) _ _ _, ?_, ?_⟩
  · unfold Holds; decide +kernel
  · unfold AllFinite; decide +kernel

theorem test_witness_BercntCountsTheErrors :
    let v : List Byte := [1, 0, 0, 1]
    let u : List Byte := [1, 1, 0, 0]
    CfgValid (stocked 1 [] v u) ∧ HoldsBits (stocked 1 [] v u) 0 (nthBit v) ∧
      HoldsBits (stocked 1 [] v u) 1 (nthBit u) ∧
      ∀ j < 2 * streamLen (stocked 1 [] v u),
        (nthBit v j = 0#8 ∨ nthBit v j = 1#8) ∧ (nthBit u j = 0#8 ∨ nthBit u j = 1#8) := by
  refine ⟨valid_stocked 1 (by decide) _ _ _, ?_⟩
  unfold HoldsBits; decide +kernel

theorem test_witness_EqualBlocksHaveNoErrors :
    let v : List Byte := [1, 0, 0, 1]
    CfgValid (stocked 1 [] v v) ∧ HoldsBits (stocked 1 [] v v) 0 (nthBit v) ∧
      HoldsBits (stocked 1 [] v v) 1 (nthBit v) ∧
      ∀ j < 2 * streamLen (stocked 1 [] v v), nthBit v j = 0#8 ∨ nthBit v j = 1#8 := by
  refine ⟨valid_stocked 1 (by decide) _ _ _, ?_⟩
  unfold HoldsBits; decide +kernel

/-! ### Witnesses: the PAPR meter -/

/-- The hypotheses with every power finite, and with a first power that is not (PA-7). -/
theorem test_witness_PaprMeasures :
    (CfgValid (stocked 1 good [] []) ∧ Holds (stocked 1 good [] []) 0 (nthCx good) ∧
      AllFinite (stocked 1 good [] []) (nthCx good) ∧ ∀ i < 2, isFinite (power (nthCx good i)) = true) ∧
    (CfgValid (stocked 1 huge [] []) ∧ Holds (stocked 1 huge [] []) 0 (nthCx huge) ∧
      AllFinite (stocked 1 huge [] []) (nthCx huge) ∧ isFinite (power (nthCx huge 0)) = false) := by
  refine ⟨⟨valid_stocked 1 (by decide) _ _ _, ?_, ?_, by decide +kernel⟩, valid_stocked 1 (by decide) _ _ _, ?_, ?_,
    by decide +kernel⟩
  · unfold Holds; decide +kernel
  · unfold AllFinite; decide +kernel
  · unfold Holds; decide +kernel
  · unfold AllFinite; decide +kernel

theorem test_witness_PeakIsTheMaximum : good ≠ [] ∧ ∀ x ∈ good, isFinite (power x) = true := by
  refine ⟨by simp [good], ?_⟩
  decide +kernel

/-- The function that is 0 everywhere meets LOG10_EXACT1 and is monotone. -/
theorem test_log10_premises_are_met : Log10Exact1 (fun _ => 0#64) ∧ Log10Monotone (fun _ => 0#64) :=
  ⟨rfl, fun _ _ _ _ _ => flt_irrefl _⟩

theorem test_witness_PaprOfSymbolsIsZeroDb :
    Log10Exact1 (fun _ => 0#64) ∧ CfgValid (stocked 1 good [] []) ∧ Holds (stocked 1 good [] []) 0 (nthCx good) ∧
      ∀ i < streamLen (stocked 1 good [] []), IsSymbol (nthCx good i) := by
  refine ⟨test_log10_premises_are_met.1, test_witness_ChanAddsTheDraws.1, test_witness_ChanAddsTheDraws.2.1,
    fun i hi => ?_⟩
  have h2 : i < 2 := hi
  interval_cases i
  · exact ⟨1, 0, rfl⟩
  · exact ⟨0, 1, rfl⟩

theorem test_witness_ZeroEnergyIsRefused :
    CfgValid (stocked 1 zeros [] []) ∧ Holds (stocked 1 zeros [] []) 0 (nthCx zeros) ∧
      ∀ i < streamLen (stocked 1 zeros [] []),
        ((nthCx zeros i).re = 0#64 ∨ (nthCx zeros i).re = 0x8000000000000000#64) ∧
          ((nthCx zeros i).im = 0#64 ∨ (nthCx zeros i).im = 0x8000000000000000#64) :=
  ⟨test_witness_SignedZerosDecideZero.1, test_witness_SignedZerosDecideZero.2.1, by decide +kernel⟩

/-- With LOG10(1) = +0, PAPR of a symbol succeeds. -/
theorem test_witness_PaprIsNotNegative :
    (Log10Exact1 (fun _ => 0#64) ∧ Log10Monotone (fun _ => 0#64)) ∧
      (Log10Exact1 Config.log10 → ∃ t, exec (.papr 0) (stocked 1 good [] []) = .next t ∧ t.status.err = .noError) := by
  refine ⟨test_log10_premises_are_met, fun h => ?_⟩
  have hlog : Config.log10 one = 0#64 := h
  have hp : powersFrom 0 good = .ok [i2f 2, i2f 2] := by decide +kernel
  have hr : clampRatio (fdiv (peakOf [i2f 2, i2f 2]) (fdiv (sumOf [i2f 2, i2f 2]) (i2f 2))) = i2f 1 := by
    decide +kernel
  have hone : pack (i2f 1) = one := by decide +kernel
  have h1 : isFinite (sumOf [i2f 2, i2f 2]) = true := by decide +kernel
  have h2 : isZero (fdiv (sumOf [i2f 2, i2f 2]) (i2f 2)) = false := by decide +kernel
  have h3 : isFinite (fdiv (peakOf [i2f 2, i2f 2]) (fdiv (sumOf [i2f 2, i2f 2]) (i2f 2))) = true := by decide +kernel
  have h4 : isFinite (fmul ften (unpack 0#64)) = true := by decide +kernel
  have hok : ∃ v, paprOf good 2 = .ok v := by
    simp only [paprOf, hp, h1, h2, h3, hr, paprDbOf, log10, hone, hlog, h4, Bool.not_true, Bool.false_eq_true, if_false]
    exact ⟨_, rfl⟩
  obtain ⟨v, hv⟩ := hok
  have hscan : scanSamples good = .ok () := (scanSamples_ok_iff good).2 (by decide +kernel)
  have hread : readSamples (stocked 1 good [] []).mem 0 2 = some good := by decide +kernel
  refine ⟨paprResult good 2 (stocked 1 good [] []), ?_, ?_⟩
  · rcases execPapr_cases 0 (stocked 1 good [] []) with ⟨d, hd, _⟩ | ⟨_, ⟨hn, _⟩ | ⟨xs, hx, he⟩⟩
    · rw [(cfgFailure_eq_none_iff _).2 (valid_stocked 1 (by decide) _ _ _)] at hd; cases hd
    · exact absurd (hn.symm.trans hread) (by simp)
    · have : xs = good := Option.some.inj (hx.symm.trans hread)
      rw [this] at he; exact he
  · simp only [paprResult, hscan, hv, completed_eq, finish_status]

/-! ### Witnesses: errors, over all commands -/

/-- A command that raises with its buffers kept, and PAPR with NumericalError(1). -/
theorem test_witness_ErrorsLeaveTheResultsAlone :
    (∃ t, exec .bercnt (small 60 1 1 []) = .next t ∧ t.status.err = .configuration) ∧
      (after (exec (.papr 0) (stocked 1 huge [] []))).map (fun t => (t.status.err, t.status.detail)) =
        some (.numerical, 1#4) :=
  ⟨⟨_, rfl, rfl⟩, by decide +kernel⟩

theorem test_witness_ErrorsEachCommandReports :
    ∃ t, exec .bercnt (small 60 1 1 []) = .next t ∧ t.status.err = .configuration := ⟨_, rfl, rfl⟩

theorem test_witness_ValidBitsFollowTheirCommands :
    ∃ t, exec .bercnt (small 60 1 1 []) = .next t ∧ t.status.err = .configuration := ⟨_, rfl, rfl⟩

theorem test_witness_OnlyTheDestinationChanges :
    (after (exec (.qmap 0 0) (stocked 1 [] [1, 0, 0, 1] []))).map (fun t => (t.status.err, bitAt t 0 3)) =
      some (.noError, some 1#8) := by decide +kernel

/-! ### Witnesses: the bus -/

/-- Admitted and refused transactions where the clauses meet: the last register, a size and an alignment it refuses, and
the last byte of the buffers. -/
theorem test_witness_AdmittedTransactions :
    (0xFF8 % 8 = 0 ∧ 0xFF8 < 0x001000) ∧ 0x00C % 8 ≠ 0 ∧ ¬ (0x040000 ≤ 0x008 ∧ 0x008 < 0x150000) ∧
      (0x14FFFF % 1 = 0 ∧ 0x040000 ≤ 0x14FFFF ∧ 0x14FFFF < 0x150000) ∧ ¬ 0x150000 < 0x150000 := by decide

theorem test_witness_UnmappedIsBusError :
    sizeWf 8 = true ∧ 0 < 8 ∧ (0x001000 ≤ 0x001000 + 0 ∧ 0x001000 + 0 < 0x040000) ∧ 0x150000 ≤ 0x150000 + 7 := by
  decide

theorem test_witness_ReadsHaveNoSideEffect :
    (hostNext 0x50#64 (.read 0x040000 8)).inputs = [.read 0x040000 8] ∧
      engineNext (hostNext 0x50#64 (.read 0x040000 8)) = false := by decide

theorem test_witness_RegisterReads :
    (0x090 ≤ 0x090 ∧ 0x090 ≤ 0xFF8 ∧ 0x090 % 8 = 0) ∧ (0x090 ≤ 0xFF8 ∧ 0xFF8 ≤ 0xFF8 ∧ 0xFF8 % 8 = 0) ∧
      State.reset.status.busy = false ∧ (inFlight 0x50#64).status.busy = true := by decide

theorem test_witness_BusyWritesAreRefused :
    (inFlight 0x50#64).status.busy = true ∧ admits 0x018 8 = true ∧ admits 0x020 8 = true ∧ admits 0x028 8 = true ∧
      admits 0x030 8 = true ∧ admits 0x038 8 = true ∧ admits 0x040 8 = true ∧
      (admits 0x14FFFF 1 = true ∧ 0x001000 ≤ 0x14FFFF) ∧ (1#64).getLsbD 1 = false := by decide +kernel

theorem test_witness_ReadOnlyWritesAreIgnored :
    (0x048 ≤ 0x048 ∧ 0x048 ≤ 0xFF8 ∧ 0x048 % 8 = 0) ∧ (0x048 ≤ 0xFF8 ∧ 0xFF8 ≤ 0xFF8 ∧ 0xFF8 % 8 = 0) := by decide

theorem test_witness_ConfigurationWrites : State.reset.status.busy = false := rfl

/-- R291: while BUSY = 1 ERR_INDEX reads the value held before the command, and the register is 0 (R116). -/
theorem test_err_index_while_busy :
    let t := busWrite 0x018 8 0x41#64 { State.reset with errIndex := 5#64 }
    busRead 0x088 8 t = .data 5#64 ∧ t.errIndex = 0#64 := by decide +kernel

theorem test_witness_CmdWriteIssues :
    State.reset.status.busy = false ∧ (inFlight 0x50#64).status.busy = true := ⟨rfl, rfl⟩

theorem test_witness_CtrlWriteSetsIe : (1#64).getLsbD 1 = false := by decide

/-- A legal command under a valid configuration, an illegal word, and an invalid configuration. -/
theorem test_witness_SoftResetAbandonsTheCommand :
    (2#64).getLsbD 1 = true ∧ State.reset.status.busy = false ∧
      ((inFlight 0x420#64).status.busy = true ∧ decode (inFlight 0x420#64).cmd = .ok (.mod 1 0) ∧
        CfgValid (inFlight 0x420#64)) ∧
      ((inFlight 0x2000#64).status.busy = true ∧ ∀ i, decode (inFlight 0x2000#64).cmd ≠ .ok i) ∧
      ({ inFlight 0x420#64 with cfgNsym := 0#64 }.status.busy = true ∧
        ¬ CfgValid { inFlight 0x420#64 with cfgNsym := 0#64 }) :=
  ⟨by decide, rfl, ⟨rfl, by decide, cfgValid_of _ 0 rfl (by decide) (by decide) (by decide)⟩,
    ⟨rfl, fun i h => by
      have h0 : decode (inFlight 0x2000#64).cmd = .error .reservedField := by decide
      rw [h0] at h; cases h⟩,
    rfl, fun h => absurd h.2.2.1 (by decide)⟩

theorem test_witness_BufferWriteThenRead :
    ((stocked 1 good [] []).status.busy = false ∧ admits 0x040008 8 = true ∧ 0x001000 ≤ 0x040008 ∧
      ∀ k < 8, memRead (stocked 1 good [] []).mem (0x040008 + k) = some ((minusOne).extractLsb' (8 * k) 8)) ∧
    State.reset.status.busy = false ∧ (admits 0x040006 2 = true ∧ 0x001000 ≤ 0x040006) ∧
      (admits 0x14FFF8 8 = true ∧ 0x001000 ≤ 0x14FFF8) := by decide +kernel

theorem test_witness_IrqIsDoneAndIe :
    (∃ t, exec .nop State.reset = .next t) ∧ (2#64).getLsbD 1 = true ∧ State.reset.status.busy = false :=
  ⟨⟨_, rfl⟩, by decide, rfl⟩

/-! ### Witnesses: the invariants and the arithmetic -/

/-- A state with written buffers and a command in flight meets the shape invariant, and its next step is a next state. -/
theorem test_witness_EveryStepKeepsTheShape : ShapeInv (inFlight 0#64) ∧ ∃ t, step (inFlight 0#64) = .next t := by
  refine ⟨⟨⟨by decide +kernel, ?_⟩, ⟨rfl, fun _ => rfl, fun _ => ⟨rfl, rfl⟩⟩, rfl⟩, _, rfl⟩
  decide +kernel

/-- A state in which every VALID bit is 1, and one in which PAPR_VALID is 0. -/
def measured : State :=
  { inFlight 0#64 with
    status := { Status.reset with busy := true, varValid := true, paprValid := true, berValid := true }
    noiseVar := one, paprDb := 0#64, peakPwr := one, meanPwr := one, errBits := 2#64, totalBits := 2#64, ber := one }
def unmeasured : State := { measured with status := { measured.status with paprValid := false } }

theorem test_witness_EveryStepKeepsTheValidResults :
    (ValidInv unmeasured ∧ ∃ t, step unmeasured = .next t) ∧
      (Log10Exact1 Config.log10 → ValidInv measured ∧ ∃ t, step measured = .next t) := by
  have hvar : isFinite (unpack one) = true ∧ flt fzero (unpack one) = true := by decide +kernel
  have hber : (2#64).toNat ≤ (2#64).toNat ∧ 2 ≤ (2#64).toNat ∧ (2#64).toNat ≤ 32768 ∧
      one = pack (fdiv (i2f (2#64).toNat) (i2f (2#64).toNat)) := by decide +kernel
  refine ⟨⟨⟨fun _ => hvar, fun h => absurd h (by decide), fun _ => hber⟩, _, rfl⟩, fun hlog => ?_⟩
  refine ⟨⟨fun _ => hvar, fun _ => ?_, fun _ => hber⟩, _, rfl⟩
  have h1 : Config.log10 one = 0#64 := hlog
  have hr : pack (clampRatio (fdiv (unpack one) (unpack one))) = one := by decide +kernel
  refine ⟨by decide +kernel, hvar.1, hvar.1, by decide +kernel, ?_⟩
  show 0#64 = pack (fmul (i2f 10) (unpack (Config.log10 (pack (clampRatio (fdiv (unpack one) (unpack one)))))))
  rw [hr, h1]
  decide +kernel

theorem test_witness_PatternsAndNumbersAgree :
    unpack 0x8000000000000001#64 ≠ .nan ∧ f64Canonical (.fin true (2 ^ 53 - 1) 2045) ∧
      F64.fin true (2 ^ 53 - 1) 2045 ≠ .nan := by
  refine ⟨by decide +kernel, ⟨by norm_num, by norm_num, Or.inl (by norm_num)⟩, by decide⟩

theorem test_witness_RoundingIsToNearestEven :
    ∃ a : ℝ, 2 ^ 54 ≤ 2 ^ 54 ∧ ((2 ^ 54 : Nat) : ℝ) * 2 ^ (0 : Int) / 2 ^ 1074 < a ∧
      a < (((2 ^ 54 : Nat) : ℝ) + 1) * 2 ^ (0 : Int) / 2 ^ 1074 := by
  obtain ⟨a, h1, h2⟩ := exists_between (show ((2 ^ 54 : Nat) : ℝ) * 2 ^ (0 : Int) / 2 ^ 1074 <
    (((2 ^ 54 : Nat) : ℝ) + 1) * 2 ^ (0 : Int) / 2 ^ 1074 from
      div_lt_div_of_pos_right (mul_lt_mul_of_pos_right (lt_add_one _) (by positivity)) (by positivity))
  exact ⟨a, le_refl _, h1, h2⟩

/-- A tie that goes to the even neighbour, a tie the exact value lies just above, and the two sides of the overflow
threshold (IEEE 754, 00_scope R8). -/
theorem test_rounding_at_the_edges :
    roundF64 false (2 ^ 53 + 1) 0 false = .fin false (2 ^ 52) 1 ∧
    roundF64 false (2 ^ 60 + 2 ^ 7) 0 false = .fin false (2 ^ 52) 8 ∧
    roundF64 false (2 ^ 60 + 2 ^ 7) 0 true = .fin false (2 ^ 52 + 1) 8 ∧
    roundF64 true (2 ^ 54 - 2) 2044 false = .fin true (2 ^ 53 - 1) 2045 ∧
    roundF64 true (2 ^ 54 - 1) 2044 false = .inf true := by decide +kernel

theorem test_witness_ArithmeticIsRoundedExactly :
    f64Canonical (.fin true (2 ^ 53 - 1) 2045) ∧ f64Canonical (.fin false 1 0) ∧ f64Canonical (.fin true 0 0) :=
  ⟨⟨by norm_num, by norm_num, Or.inl (by norm_num)⟩, ⟨by norm_num, by norm_num, Or.inr rfl⟩, canonical_zero true⟩

/-! ### Witnesses: the baseline round trip -/

/-- The transform that gives zeros. -/
def zeroTransform (_ : DftNorm) (_ : List Cx) (_ : Nat) : Cx := ⟨0#64, 0#64⟩

theorem zero_isCxValue : IsCxValue ⟨0#64, 0#64⟩ 0 := by
  have h : patternValue 0#64 = 0 := by decide +kernel
  exact ⟨by decide, by simp [h], by simp [h]⟩

/-- A scaled sum of the samples of a block, each turned by a phase, is at most the block's length times its bound. -/
theorem norm_transform_le {x : List Cx} {k : Nat} {bound c : ℝ} {v e : Nat → ℂ} (hb : 0 ≤ bound) (hx : DftBlock k x)
    (hx' : BlockBound bound x) (hc : 0 ≤ c) (hc1 : c ≤ 1) (hv : ∀ n y, x[n]? = some y → IsCxValue y (v n))
    (he : ∀ n, ‖e n‖ = 1) : ‖(c : ℂ) * ∑ n ∈ Finset.range x.length, v n * e n‖ ≤ 16384 * bound := by
  have hn : ∀ n ∈ Finset.range x.length, ‖v n * e n‖ ≤ bound := fun n hn => by
    have hlt := Finset.mem_range.1 hn
    rw [norm_mul, he, mul_one]
    exact hx' x[n] (List.getElem_mem hlt) _ (hv n _ (List.getElem?_eq_getElem hlt))
  have hsum : ‖∑ n ∈ Finset.range x.length, v n * e n‖ ≤ x.length * bound := by
    simpa using norm_sum_le_of_le (Finset.range x.length) hn
  have hlen : (x.length : ℝ) ≤ 16384 := by
    have : x.length ≤ 16384 := by rw [hx.2.1]; exact hx.1
    exact_mod_cast this
  rw [norm_mul, Complex.norm_real, Real.norm_of_nonneg hc]
  calc c * ‖∑ n ∈ Finset.range x.length, v n * e n‖ ≤ 1 * (x.length * bound) :=
        mul_le_mul hc1 hsum (norm_nonneg _) zero_le_one
    _ ≤ 16384 * bound := by rw [one_mul]; exact mul_le_mul_of_nonneg_right hlen hb

theorem scale_inverse {norm : DftNorm} {n : Nat} {c : ℝ} (hn : 1 ≤ n) (h : IsInverseScale norm n c) : 0 ≤ c ∧ c ≤ 1 := by
  have h1 : (1 : ℝ) ≤ n := by exact_mod_cast hn
  have h2 : (1 : ℝ) ≤ Real.sqrt n := Real.one_le_sqrt.2 h1
  cases norm <;> (simp only [IsInverseScale] at h; subst h; exact ⟨by positivity, by rw [div_le_one] <;> linarith⟩)

theorem scale_forward {norm : DftNorm} {n : Nat} {c : ℝ} (hn : 1 ≤ n) (h : IsForwardScale norm n c) : 0 ≤ c ∧ c ≤ 1 := by
  have h1 : (1 : ℝ) ≤ n := by exact_mod_cast hn
  have h2 : (1 : ℝ) ≤ Real.sqrt n := Real.one_le_sqrt.2 h1
  cases norm
  · simp only [IsForwardScale] at h; subst h; exact ⟨zero_le_one, le_refl 1⟩
  · simp only [IsForwardScale] at h; subst h; exact ⟨by positivity, by rw [div_le_one] <;> linarith⟩

/-- On every class of bounded blocks some transform meets DFT_CLOSE, in both directions: the zeros meet it with 16384
times the bound. -/
theorem test_dft_close_is_met (norm : DftNorm) (bound : ℝ) (hb : 0 ≤ bound) :
    DftClose (16384 * bound) bound norm zeroTransform IsIdftExact ∧
      DftClose (16384 * bound) bound norm zeroTransform IsDftExact := by
  have hlen : ∀ {k : Nat} {x : List Cx}, DftBlock k x → 1 ≤ x.length := fun h => by
    rw [h.2.1]; exact Nat.one_le_two_pow
  have hphase : ∀ r : ℝ, ‖Complex.exp (r * Complex.I)‖ = 1 := fun r => Complex.norm_exp_ofReal_mul_I r
  constructor
  · rintro k x hx hx' n _ z ⟨c, v, hc, hv, rfl⟩
    refine ⟨0, zero_isCxValue, ?_⟩
    rw [zero_sub, norm_neg]
    obtain ⟨h0, h1⟩ := scale_inverse (hlen hx) hc
    refine norm_transform_le hb hx hx' h0 h1 hv fun j => ?_
    rw [show 2 * Real.pi * Complex.I * j * n / x.length = ((2 * Real.pi * j * n / x.length : ℝ) : ℂ) * Complex.I by
      push_cast; ring]
    exact hphase _
  · rintro k x hx hx' n _ z ⟨c, v, hc, hv, rfl⟩
    refine ⟨0, zero_isCxValue, ?_⟩
    rw [zero_sub, norm_neg]
    obtain ⟨h0, h1⟩ := scale_forward (hlen hx) hc
    refine norm_transform_le hb hx hx' h0 h1 hv fun j => ?_
    rw [show -(2 * Real.pi * Complex.I * n * j / x.length) = ((-(2 * Real.pi * n * j / x.length) : ℝ) : ℂ) * Complex.I by
      push_cast; ring]
    exact hphase _

/-- A stream of symbols under w = none has magnitudes at most 2; both scales exist; and some transforms meet the two
premises together, under either normalization. -/
theorem test_witness_BaselineRoundTrip :
    CfgValid (stocked 0 good [] []) ∧ (stocked 0 good [] []).cfgWavelet.toNat = 0 ∧
      Holds (stocked 0 good [] []) 0 (nthCx good) ∧ AllFinite (stocked 0 good [] []) (nthCx good) ∧
      (∀ i < streamLen (stocked 0 good [] []), ∀ u, IsCxValue (nthCx good i) u → ‖u‖ ≤ 2) ∧
      ∀ norm, ∃ tolInv tolFwd cInv cFwd : ℝ, IsInverseScale norm 2 cInv ∧ IsForwardScale norm 2 cFwd ∧
        DftClose tolInv 2 norm zeroTransform IsIdftExact ∧
        DftClose tolFwd (cInv * (2 : Nat) * 2 + tolInv) norm zeroTransform IsDftExact := by
  obtain ⟨h1, h2, h3, h4⟩ := test_witness_BaselineShaping
  have hone : patternValue one = 1 := by decide +kernel
  have hminus : patternValue minusOne = -1 := by decide +kernel
  refine ⟨h1, h2, h3, h4, fun i hi u hu => ?_, fun norm => ?_⟩
  · have hlt : i < 2 := hi
    have hparts : |u.re| = 1 ∧ |u.im| = 1 := by
      obtain ⟨_, hre, him⟩ := hu
      interval_cases i <;> simp [nthCx, good, hone, hminus] at hre him <;> simp [hre, him]
    calc ‖u‖ ≤ |u.re| + |u.im| := Complex.norm_le_abs_re_add_abs_im u
      _ ≤ 2 := by rw [hparts.1, hparts.2]; norm_num
  · have hscales : ∃ cInv cFwd : ℝ, IsInverseScale norm 2 cInv ∧ IsForwardScale norm 2 cFwd := by
      cases norm
      · exact ⟨_, _, rfl, rfl⟩
      · exact ⟨_, _, rfl, rfl⟩
    obtain ⟨cInv, cFwd, hi, hf⟩ := hscales
    obtain ⟨h0, _⟩ := scale_inverse (by norm_num) hi
    exact ⟨16384 * 2, 16384 * (cInv * (2 : Nat) * 2 + 16384 * 2), cInv, cFwd, hi, hf,
      (test_dft_close_is_met norm 2 (by norm_num)).1, (test_dft_close_is_met norm _ (by positivity)).2⟩

end Sys2Proof.Tests
end

section
/-!
PROOF. The Host's step by the kind of its next input (00_scope R15, 60_exceptions R270).
-/

namespace Sys2Proof.Machine

/-- Where the Engine is not next, the step is the Host's. -/
theorem step_eq_hostStep {s : State} (h : s.status.busy = false ∨ (s.patience ≠ 0 ∧ s.inputs ≠ [])) :
    step s = .next (hostStep s) := by
  have hnext : engineNext s = false := by
    rcases h with hidle | ⟨hpatience, hinputs⟩
    · simp [engineNext, hidle]
    · simp [engineNext, hpatience, hinputs]
  simp [step, hnext]

/-- With an input to come, the Host's step performs it on the state its bookkeeping leaves. -/
theorem hostStep_cons {s : State} {i : Input} {rest : List Input} (h : s.inputs = i :: rest) :
    hostStep s = performInput i (hostTick { s with inputs := rest }) := by
  simp only [hostStep, h]

/-- A read of the STATUS register is answered with its word. -/
theorem busRead_status (s : State) : busRead 0x010 8 s = .data (statusWord s.status) :=
  busRead_offset (k := 2) (r := .status) (by omega) rfl s

/-- WAIT is answered with STATUS and stays next while BUSY = 1 (30_encoding R99). -/
theorem performInput_wait (s : State) :
    performInput .wait s = { s with
      inputs := if s.status.busy then .wait :: s.inputs else s.inputs
      responses := .data (statusWord s.status) :: s.responses } := by
  simp only [performInput, busRead_status, answer]
  split <;> rfl

/-- Settles O7: the kinds of input one by one; that no bus write touches the earlier answers is `busWrite_responses`. -/
theorem otherwiseTheHostMoves : Obligations.OtherwiseTheHostMoves := by
  refine ⟨fun s i rest hinputs hnext => ?_, fun s hinputs hidle => ?_⟩
  · have hstep : step s = .next (performInput i (hostTick { s with inputs := rest })) := by
      rw [step_eq_hostStep (hnext.imp_right fun hp => ⟨hp, by simp [hinputs]⟩), hostStep_cons hinputs]
    refine ⟨?_, ?_, ?_, ?_⟩
    · rintro a n v rfl
      rw [hstep, performInput, answer, busWrite_responses]
      rfl
    · rintro a n rfl
      exact hstep
    · rintro rfl
      rw [hstep, performInput_wait]
      rfl
    · rintro rfl
      exact hstep
  · rw [step_eq_hostStep (.inl hidle), hostStep, hinputs]

end Sys2Proof.Machine
end

section
/-!
PROOF. Patterns and numbers agree (00_scope R8): a pattern is its sign, exponent and fraction fields, and `pack` puts
together what `unpack` takes apart.
-/

namespace Sys2Proof.Machine

open Sys2Proof.Safety

theorem pack_inf (neg : Bool) : pack (.inf neg) = BitVec.ofNat 64 (signBit neg + 2047 * 2 ^ 52) := rfl

theorem pack_fin (neg : Bool) (m e : Nat) : pack (.fin neg m e) = BitVec.ofNat 64 (signBit neg + e * 2 ^ 52 + m) := rfl

theorem signBit_eq_mul (neg : Bool) : signBit neg = neg.toNat * 2 ^ 63 := by cases neg <;> rfl

theorem toNat_msb (w : Word) : w.msb.toNat = w.toNat / 2 ^ 63 := by
  have hlt := w.isLt
  by_cases hsign : 2 ^ 63 ≤ w.toNat
  · rw [BitVec.msb_eq_true_iff_two_mul_ge.2 (by omega), Bool.toNat_true]; omega
  · rw [BitVec.msb_eq_false_iff_two_mul_lt.2 (by omega), Bool.toNat_false]; omega

theorem toNat_exponentField (w : Word) : (w.extractLsb' 52 11).toNat = w.toNat / 2 ^ 52 % 2 ^ 11 := by
  rw [BitVec.extractLsb'_toNat, Nat.shiftRight_eq_div_pow]

theorem toNat_fractionField (w : Word) : (w.extractLsb' 0 52).toNat = w.toNat % 2 ^ 52 := by
  rw [BitVec.extractLsb'_toNat, Nat.shiftRight_zero]

/-- A pattern is put together from its three fields. -/
theorem ofNat_fields (w : Word) :
    BitVec.ofNat 64 (signBit w.msb + (w.extractLsb' 52 11).toNat * 2 ^ 52 + (w.extractLsb' 0 52).toNat) = w := by
  have hsum : w.toNat / 2 ^ 63 * 2 ^ 63 + w.toNat / 2 ^ 52 % 2 ^ 11 * 2 ^ 52 + w.toNat % 2 ^ 52 = w.toNat := by omega
  rw [signBit_eq_mul, toNat_msb, toNat_exponentField, toNat_fractionField, hsum, BitVec.ofNat_toNat,
    BitVec.setWidth_eq]

/-- The fields of a pattern put together from fields in range are those fields. -/
theorem fields_ofNat (neg : Bool) {ex frac : Nat} (hex : ex < 2 ^ 11) (hfrac : frac < 2 ^ 52) :
    (BitVec.ofNat 64 (signBit neg + ex * 2 ^ 52 + frac)).msb = neg ∧
      ((BitVec.ofNat 64 (signBit neg + ex * 2 ^ 52 + frac)).extractLsb' 52 11).toNat = ex ∧
      ((BitVec.ofNat 64 (signBit neg + ex * 2 ^ 52 + frac)).extractLsb' 0 52).toNat = frac := by
  have hneg := Bool.toNat_le neg
  rw [signBit_eq_mul]
  have hw : (BitVec.ofNat 64 (neg.toNat * 2 ^ 63 + ex * 2 ^ 52 + frac)).toNat =
      neg.toNat * 2 ^ 63 + ex * 2 ^ 52 + frac := by
    rw [BitVec.toNat_ofNat, Nat.mod_eq_of_lt (by omega)]
  rw [BitVec.msb_eq_decide, toNat_exponentField, toNat_fractionField, hw]
  refine ⟨?_, by omega, by omega⟩
  cases neg
  · exact decide_eq_false (by rw [Bool.toNat_false]; omega)
  · exact decide_eq_true (by rw [Bool.toNat_true]; omega)

/-- A pattern that is no NaN is the pattern of its number. -/
theorem pack_unpack {w : Word} (h : unpack w ≠ .nan) : pack (unpack w) = w := by
  have hfields := ofNat_fields w
  unfold unpack at h ⊢
  generalize (w.extractLsb' 52 11).toNat = ex at *
  generalize (w.extractLsb' 0 52).toNat = frac at *
  dsimp only at h ⊢
  by_cases hmax : ex = 2047
  · rw [if_pos hmax] at h ⊢
    by_cases hzero : frac = 0
    · rw [if_pos hzero, pack_inf, ← hmax]
      rwa [hzero, Nat.add_zero] at hfields
    · exact absurd (if_neg hzero) h
  · rw [if_neg hmax]
    by_cases hsub : ex = 0
    · rw [if_pos hsub, pack_fin]
      rwa [hsub] at hfields
    · have hsum : (ex - 1) * 2 ^ 52 + (2 ^ 52 + frac) = ex * 2 ^ 52 + frac := by omega
      rw [if_neg hsub, pack_fin, Nat.add_assoc, hsum, ← Nat.add_assoc, hfields]

/-- The number of a pattern is canonical. -/
theorem canonical_unpack (w : Word) : f64Canonical (unpack w) := by
  have hex := (w.extractLsb' 52 11).isLt
  have hfrac := (w.extractLsb' 0 52).isLt
  unfold unpack
  dsimp only
  split
  · split <;> trivial
  · split
    · exact ⟨by omega, by omega, .inr rfl⟩
    · exact ⟨by omega, by omega, .inl (by omega)⟩

/-- A canonical finite number is the number of its pattern. -/
theorem unpack_pack_fin {neg : Bool} {m e : Nat} (h : f64Canonical (.fin neg m e)) :
    unpack (pack (.fin neg m e)) = .fin neg m e := by
  obtain ⟨hm, he, hnorm⟩ := h
  by_cases hlow : m < 2 ^ 52
  · obtain rfl : e = 0 := hnorm.resolve_left (by omega)
    obtain ⟨hmsb, hexp, hfrac⟩ := fields_ofNat neg (ex := 0) (by omega) hlow
    rw [pack_fin, unpack, hmsb, hexp, hfrac, if_neg (by omega), if_pos rfl]
  · have hsum : e * 2 ^ 52 + m = (e + 1) * 2 ^ 52 + (m - 2 ^ 52) := by omega
    obtain ⟨hmsb, hexp, hfrac⟩ := fields_ofNat neg (ex := e + 1) (frac := m - 2 ^ 52) (by omega) (by omega)
    have hm' : 2 ^ 52 + (m - 2 ^ 52) = m := by omega
    rw [pack_fin, Nat.add_assoc, hsum, ← Nat.add_assoc, unpack, hmsb, hexp, hfrac, if_neg (by omega), if_neg (by omega),
      hm', Nat.add_sub_cancel]

/-- An infinity is the number of its pattern. -/
theorem unpack_pack_inf (neg : Bool) : unpack (pack (.inf neg)) = .inf neg := by
  obtain ⟨hmsb, hexp, hfrac⟩ := fields_ofNat neg (ex := 2047) (frac := 0) (by omega) (by omega)
  rw [Nat.add_zero] at hmsb hexp hfrac
  rw [pack_inf, unpack, hmsb, hexp, hfrac, if_pos rfl, if_pos rfl]

/-- Settles O57: the two directions field by field. -/
theorem patternsAndNumbersAgree : Obligations.PatternsAndNumbersAgree := by
  refine ⟨fun w h => ⟨pack_unpack h, canonical_unpack w⟩, fun v hv hnan => ?_⟩
  cases v with
  | nan => exact absurd rfl hnan
  | inf neg => exact unpack_pack_inf neg
  | fin neg m e => exact unpack_pack_fin hv

end Sys2Proof.Machine
end

section
/-!
PROOF. Rounding is to nearest, ties to even (00_scope R8). `roundF64` rounds its argument, measured in units of
2^(e - 1074), to an integer significand, and `carry` makes a number of it. Every canonical number is an integer number of
those units or lies below all arguments of the exponent, so the nearest integer gives the nearest number.
-/

namespace Sys2Proof.Machine

open Sys2Proof.Safety

/-! ### The parts of `roundF64` -/

/-- The exponent at which a magnitude m * 2^(x - 1074) has 53 significant bits, or the subnormal one. -/
def roundExponent (m : Nat) (x : Int) : Nat := (x + (m.log2 : Int) - 52).toNat

/-- The significand of the rounded magnitude at that exponent, before a carry out of 53 bits. -/
def roundSignificand (m : Nat) (x : Int) (sticky : Bool) : Nat :=
  if (roundExponent m x : Int) ≤ x then m * 2 ^ (x - roundExponent m x).toNat
  else
    let shift := ((roundExponent m x : Int) - x).toNat
    m / 2 ^ shift + (if roundsUp m shift sticky then 1 else 0)

/-- The number of a significand of at most 2^53, normalized, or infinity beyond the largest exponent. -/
def carry (neg : Bool) (q e : Nat) : F64 :=
  let r := if q = 2 ^ 53 then (2 ^ 52, e + 1) else (q, e)
  if r.2 ≤ 2045 then .fin neg r.1 r.2 else .inf neg

theorem carry_of_ne {neg : Bool} {q e : Nat} (hq : q ≠ 2 ^ 53) :
    carry neg q e = if e ≤ 2045 then .fin neg q e else .inf neg := by
  simp only [carry, if_neg hq]

theorem carry_out (neg : Bool) (e : Nat) :
    carry neg (2 ^ 53) e = if e + 1 ≤ 2045 then .fin neg (2 ^ 52) (e + 1) else .inf neg := by
  simp only [carry, if_true]

/-- Where the unit of the argument is a multiple of the result's, the argument has at most 53 bits of the result. -/
theorem shifted_lt {m : Nat} {x : Int} (he : (roundExponent m x : Int) ≤ x) :
    m * 2 ^ (x - roundExponent m x).toNat < 2 ^ 53 := by
  have hbits : m.log2 + 1 + (x - roundExponent m x).toNat ≤ 53 := by
    unfold roundExponent at he ⊢
    omega
  calc m * 2 ^ (x - roundExponent m x).toNat
      < 2 ^ (m.log2 + 1) * 2 ^ (x - roundExponent m x).toNat :=
        Nat.mul_lt_mul_of_pos_right Nat.lt_log2_self (by positivity)
    _ = 2 ^ (m.log2 + 1 + (x - roundExponent m x).toNat) := (pow_add 2 _ _).symm
    _ ≤ 2 ^ 53 := Nat.pow_le_pow_right (by norm_num) hbits

/-- `roundF64` gives the rounded significand at its exponent. -/
theorem roundF64_eq_carry (neg : Bool) {m : Nat} (x : Int) (sticky : Bool) (hm : m ≠ 0) :
    roundF64 neg m x sticky = carry neg (roundSignificand m x sticky) (roundExponent m x) := by
  rw [roundF64, if_neg hm]
  change (if (roundExponent m x : Int) ≤ x then _ else _) = _
  by_cases he : (roundExponent m x : Int) ≤ x
  · rw [if_pos he, roundSignificand, if_pos he, carry_of_ne (shifted_lt he).ne, Nat.shiftLeft_eq]
    rfl
  · rw [if_neg he, roundSignificand, if_neg he]
    rfl

/-! ### Rounding to an integer -/

/-- The integer q is nearest to t, and even where t lies half way between two integers. -/
def RoundsTo (t : ℝ) (q : Nat) : Prop := |q - t| ≤ 1 / 2 ∧ (|q - t| = 1 / 2 → q % 2 = 0)

/-- The magnitude that m and `sticky` stand for, in units of the argument: m itself, or a real above it and below
m + 1. -/
def StandsFor (m : Nat) (sticky : Bool) (M : ℝ) : Prop :=
  (sticky = false → M = m) ∧ (sticky = true → m < M ∧ M < m + 1)

theorem StandsFor.le {m : Nat} {sticky : Bool} {M : ℝ} (h : StandsFor m sticky M) : m ≤ M := by
  cases sticky
  · exact (h.1 rfl).ge
  · exact (h.2 rfl).1.le

theorem StandsFor.lt {m : Nat} {sticky : Bool} {M : ℝ} (h : StandsFor m sticky M) : M < m + 1 := by
  cases sticky
  · exact (h.1 rfl).trans_lt (lt_add_one _)
  · exact (h.2 rfl).2

theorem roundsTo_natCast (q : Nat) : RoundsTo q q := by norm_num [RoundsTo]

theorem roundsTo_div_iff {M D : ℝ} (hD : 0 < D) (q : Nat) :
    RoundsTo (M / D) q ↔ |q * D - M| ≤ D / 2 ∧ (|q * D - M| = D / 2 → q % 2 = 0) := by
  have hscale : |q - M / D| = |q * D - M| / D := by
    rw [← abs_of_pos hD, ← abs_div, abs_of_pos hD, sub_div, mul_div_cancel_right₀ _ hD.ne']
  rw [RoundsTo, hscale, div_le_iff₀ hD, div_eq_iff hD.ne', one_div_mul_eq_div]

/-- What lies less than half of D from q * D rounds to q. -/
theorem roundsTo_of_lt {M D : ℝ} {q : Nat} (hD : 0 < D) (h : |q * D - M| < D / 2) : RoundsTo (M / D) q :=
  (roundsTo_div_iff hD q).2 ⟨h.le, fun heq => absurd heq h.ne⟩

/-- What lies half of D from q * D rounds to an even q. -/
theorem roundsTo_of_tie {M D : ℝ} {q : Nat} (hD : 0 < D) (h : |q * D - M| = D / 2) (hq : q % 2 = 0) :
    RoundsTo (M / D) q :=
  (roundsTo_div_iff hD q).2 ⟨h.le, fun _ => hq⟩

theorem roundsUp_iff (m k : Nat) (sticky : Bool) :
    roundsUp m (k + 1) sticky = true ↔
      2 ^ k < m % 2 ^ (k + 1) ∨ m % 2 ^ (k + 1) = 2 ^ k ∧ (sticky = true ∨ m / 2 ^ (k + 1) % 2 = 1) := by
  simp [roundsUp]

/-- Dropping the low bits of m with `roundsUp` is rounding to the nearest integer, ties to even. -/
theorem roundsTo_shift {m : Nat} {sticky : Bool} {M : ℝ} (h : StandsFor m sticky M) (k : Nat) :
    RoundsTo (M / 2 ^ (k + 1)) (m / 2 ^ (k + 1) + (if roundsUp m (k + 1) sticky then 1 else 0)) := by
  have hD : (0 : ℝ) < 2 ^ (k + 1) := by positivity
  have hhalf : (2 : ℝ) ^ (k + 1) = 2 * (2 ^ k : Nat) := by push_cast; exact pow_succ' 2 k
  have hrem : m % 2 ^ (k + 1) < 2 * 2 ^ k := (pow_succ' 2 k) ▸ Nat.mod_lt m (by positivity)
  have hdiv : (2 : ℝ) ^ (k + 1) * (m / 2 ^ (k + 1) : Nat) + (m % 2 ^ (k + 1) : Nat) = m := by
    exact_mod_cast Nat.div_add_mod m (2 ^ (k + 1))
  have hup := roundsUp_iff m k sticky
  have hle := h.le
  have hlt := h.lt
  generalize m / 2 ^ (k + 1) = q at *
  generalize m % 2 ^ (k + 1) = r at *
  generalize (2 : ℝ) ^ (k + 1) = D at *
  generalize 2 ^ k = half at *
  have hrem' : (r : ℝ) + 1 ≤ 2 * half := by exact_mod_cast hrem
  rcases lt_trichotomy r half with hr | rfl | hr
  · have hr' : (r : ℝ) + 1 ≤ half := by exact_mod_cast hr
    rw [if_neg fun hc => by have := hup.1 hc; omega, Nat.add_zero]
    exact roundsTo_of_lt hD (by rw [abs_lt]; constructor <;> linarith)
  · by_cases hround : sticky = true ∨ q % 2 = 1
    · rw [if_pos (hup.2 (.inr ⟨rfl, hround⟩))]
      cases hs : sticky with
      | true =>
        obtain ⟨hgt, -⟩ := h.2 hs
        exact roundsTo_of_lt hD (by rw [abs_lt]; push_cast; constructor <;> linarith)
      | false =>
        have hodd : q % 2 = 1 := hround.resolve_left (by simp [hs])
        have hM := h.1 hs
        exact roundsTo_of_tie hD (by rw [abs_of_nonneg] <;> push_cast <;> linarith) (by omega)
    · obtain ⟨hs, heven⟩ := not_or.1 hround
      have hM := h.1 (Bool.eq_false_of_not_eq_true hs)
      rw [if_neg fun hc => (hup.1 hc).elim (lt_irrefl _) fun hc => hround hc.2, Nat.add_zero]
      exact roundsTo_of_tie hD (by rw [abs_of_nonpos] <;> linarith) (by omega)
  · have hr' : (half : ℝ) + 1 ≤ r := by exact_mod_cast hr
    rw [if_pos (hup.2 (.inl hr))]
    exact roundsTo_of_lt hD (by rw [abs_lt]; push_cast; constructor <;> linarith)

/-! ### The argument in units of the result -/

/-- The unit of exponent e, 2^(e - 1074). -/
noncomputable def unitOf (e : Nat) : ℝ := 2 ^ e / 2 ^ 1074

theorem unitOf_pos (e : Nat) : 0 < unitOf e := by unfold unitOf; positivity

theorem unitOf_add (e k : Nat) : unitOf (e + k) = 2 ^ k * unitOf e := by
  rw [unitOf, unitOf, pow_add, mul_comm, mul_div_assoc]

theorem magnitude_eq (m e : Nat) : magnitude m e = m * unitOf e := mul_div_assoc _ _ _

theorem zpow_eq_units_mul (x : Int) (e : Nat) : (2 : ℝ) ^ x = 2 ^ (x - e) * 2 ^ e := by
  rw [← zpow_natCast, ← zpow_add₀ two_ne_zero, sub_add_cancel]

/-- The significand of `roundF64` is the argument in units of the result, rounded to an integer. An argument `sticky`
speaks of has more than 53 bits, so that bits are dropped. -/
theorem roundsTo_roundSignificand {m : Nat} {x : Int} {sticky : Bool} {M : ℝ} (h : StandsFor m sticky M)
    (hbits : sticky = true → 2 ^ 54 ≤ m) :
    RoundsTo (M * 2 ^ (x - roundExponent m x)) (roundSignificand m x sticky) := by
  rw [roundSignificand]
  by_cases he : (roundExponent m x : Int) ≤ x
  · have hexact : sticky = false := by
      by_contra hs
      have hlarge : 2 ^ 54 ≤ m := hbits (by simpa using hs)
      have hlog : 54 ≤ m.log2 := (Nat.le_log2 (by omega)).2 hlarge
      unfold roundExponent at he
      omega
    obtain ⟨k, hk⟩ := Int.eq_ofNat_of_zero_le (sub_nonneg.2 he)
    rw [if_pos he, h.1 hexact, hk, Int.toNat_natCast, zpow_natCast]
    exact_mod_cast roundsTo_natCast (m * 2 ^ k)
  · obtain ⟨k, hk⟩ : ∃ k : Nat, (roundExponent m x : Int) - x = (k + 1 : Nat) :=
      ⟨((roundExponent m x : Int) - x).toNat - 1, by omega⟩
    have hdiv : M * (2 : ℝ) ^ (x - roundExponent m x) = M / 2 ^ (k + 1) := by
      rw [← neg_sub, hk, zpow_neg, zpow_natCast, div_eq_mul_inv]
    rw [if_neg he, hdiv]
    dsimp only
    rw [hk, Int.toNat_natCast]
    exact roundsTo_shift h k

/-- The argument has 53 bits before the point in units of the result, or fewer at the subnormal exponent. -/
theorem units_bounds {m : Nat} (hm : m ≠ 0) (x : Int) {sticky : Bool} {M : ℝ} (h : StandsFor m sticky M) :
    (2 ^ 52 ≤ M * 2 ^ (x - roundExponent m x) ∨ roundExponent m x = 0) ∧ M * 2 ^ (x - roundExponent m x) < 2 ^ 53 := by
  have hlo : (2 : ℝ) ^ m.log2 ≤ M := le_trans (by exact_mod_cast Nat.log2_self_le hm) h.le
  have hhi : M < (2 : ℝ) ^ (m.log2 + 1) := h.lt.trans_le (by exact_mod_cast Nat.lt_log2_self)
  have hu : (0 : ℝ) < 2 ^ (x - roundExponent m x) := by positivity
  have hexp : roundExponent m x = (x + (m.log2 : Int) - 52).toNat := rfl
  refine ⟨?_, ?_⟩
  · by_cases hz : roundExponent m x = 0
    · exact .inr hz
    · left
      calc (2 : ℝ) ^ 52 = 2 ^ m.log2 * 2 ^ (x - roundExponent m x) := by
            rw [← zpow_natCast, ← zpow_natCast, ← zpow_add₀ two_ne_zero]
            congr 1
            push_cast
            omega
        _ ≤ M * 2 ^ (x - roundExponent m x) := mul_le_mul_of_nonneg_right hlo hu.le
  · calc M * 2 ^ (x - roundExponent m x) < 2 ^ (m.log2 + 1) * 2 ^ (x - roundExponent m x) :=
          mul_lt_mul_of_pos_right hhi hu
      _ = 2 ^ ((m.log2 + 1 : Nat) + (x - roundExponent m x)) := by rw [zpow_add₀ two_ne_zero, zpow_natCast]
      _ ≤ 2 ^ (53 : Int) := zpow_le_zpow_right₀ one_le_two (by push_cast; omega)
      _ = 2 ^ 53 := by norm_cast

/-! ### The nearest canonical number -/

/-- Every canonical magnitude is an integer number of the units of exponent e, or lies below 2^52 of them and e is not
the subnormal exponent. -/
theorem canonical_units {neg : Bool} {m' e' : Nat} (h : f64Canonical (.fin neg m' e')) (e : Nat) :
    ∃ z : ℝ, magnitude m' e' = z * unitOf e ∧ ((∃ n : Nat, z = n) ∨ z < 2 ^ 52 ∧ e ≠ 0) := by
  obtain ⟨hm, -, -⟩ := h
  rcases le_or_gt e e' with he | he
  · obtain ⟨k, rfl⟩ := Nat.exists_eq_add_of_le he
    refine ⟨(m' * 2 ^ k : Nat), ?_, .inl ⟨_, rfl⟩⟩
    rw [magnitude_eq, unitOf_add, ← mul_assoc]
    push_cast
    rfl
  · obtain ⟨k, rfl⟩ := Nat.exists_eq_add_of_lt he
    refine ⟨m' / 2 ^ (k + 1), ?_, .inr ⟨?_, by omega⟩⟩
    · rw [magnitude_eq, add_assoc, unitOf_add, ← mul_assoc, div_mul_cancel₀ _ (by positivity)]
    · rw [div_lt_iff₀ (by positivity)]
      calc (m' : ℝ) < 2 ^ 53 := by exact_mod_cast hm
        _ = 2 ^ 52 * 2 ^ 1 := by norm_num
        _ ≤ 2 ^ 52 * 2 ^ (k + 1) :=
          mul_le_mul_of_nonneg_left (pow_le_pow_right₀ one_le_two (by omega)) (by positivity)

/-- The nearest integer is at least as near as any z that is an integer or below 2^52 where 2^52 is below t; where
another z is as near, it is even. -/
theorem RoundsTo.nearest {t : ℝ} {q : Nat} (h : RoundsTo t q) {z : ℝ}
    (hz : (∃ n : Nat, z = n) ∨ z < 2 ^ 52 ∧ 2 ^ 52 ≤ t) :
    |q - t| ≤ |z - t| ∧ (|q - t| = |z - t| → q ≠ z → q % 2 = 0) := by
  obtain ⟨hhalf, heven⟩ := h
  have hint : ∀ n : Nat, n ≠ q → 1 / 2 ≤ |(n : ℝ) - t| := fun n hn => by
    have hone : (1 : ℝ) ≤ |(n : ℝ) - q| := by
      exact_mod_cast Int.one_le_abs (sub_ne_zero.2 (by exact_mod_cast hn : (n : Int) ≠ q))
    have htri := abs_sub_le (n : ℝ) t q
    rw [abs_sub_comm t q] at htri
    linarith
  rcases hz with ⟨n, rfl⟩ | ⟨hz, ht⟩
  · by_cases hn : n = q
    · subst hn
      exact ⟨le_refl _, fun _ hne => absurd rfl hne⟩
    · have hfar := hint n hn
      exact ⟨hhalf.trans hfar, fun heq _ => heven (le_antisymm hhalf (heq ▸ hfar))⟩
  · have hfar : |(q : ℝ) - t| ≤ t - 2 ^ 52 := by
      by_cases hq : q = 2 ^ 52
      · subst hq
        rw [abs_of_nonpos] <;> push_cast <;> linarith
      · have hpow := hint (2 ^ 52) (Ne.symm hq)
        rw [abs_of_nonpos (by push_cast; linarith)] at hpow
        push_cast at hpow
        linarith
    have hlt : |(q : ℝ) - t| < |z - t| := by
      rw [abs_of_neg (by linarith : z - t < 0)]
      linarith
    exact ⟨hlt.le, fun heq _ => absurd heq hlt.ne⟩

/-- The threshold of overflow in units of the largest exponent. -/
theorem overflow_threshold : (2 : ℝ) ^ 1024 - 2 ^ 970 = (2 ^ 53 - 1 / 2) * unitOf 2045 := by
  have hunit : unitOf 2045 = 2 ^ 970 * 2 := by
    rw [unitOf, div_eq_iff (by positivity), ← pow_succ, ← pow_add]
  have hlarge : (2 : ℝ) ^ 1024 = 2 ^ 970 * 2 ^ 54 := by rw [← pow_add]
  rw [hunit, hlarge]
  generalize (2 : ℝ) ^ 970 = u
  ring

/-- A magnitude is at the threshold of overflow or above it exactly when its exponent is too large or it rounds to 2^53
units of the largest one. -/
theorem overflow_iff {t : ℝ} {q e : Nat} (h : RoundsTo t q) (hlo : 2 ^ 52 ≤ t ∨ e = 0) (hhi : t < 2 ^ 53) :
    2 ^ 1024 - 2 ^ 970 ≤ t * unitOf e ↔ 2045 < e ∨ e = 2045 ∧ q = 2 ^ 53 := by
  rw [overflow_threshold]
  rcases lt_trichotomy e 2045 with he | rfl | he
  · obtain ⟨k, hk⟩ := Nat.exists_eq_add_of_lt he
    have hpos := unitOf_pos e
    have hpow : (2 : ℝ) ^ 1 ≤ 2 ^ (k + 1) := pow_le_pow_right₀ one_le_two (by omega)
    refine iff_of_false (not_le.2 ?_) (by omega)
    rw [hk, add_assoc, unitOf_add]
    calc t * unitOf e < 2 ^ 53 * unitOf e := mul_lt_mul_of_pos_right hhi hpos
      _ ≤ (2 ^ 53 - 1 / 2) * (2 ^ 1 * unitOf e) := by linarith
      _ ≤ (2 ^ 53 - 1 / 2) * (2 ^ (k + 1) * unitOf e) := by
          exact mul_le_mul_of_nonneg_left (mul_le_mul_of_nonneg_right hpow hpos.le) (by norm_num)
  · rw [mul_le_mul_iff_left₀ (unitOf_pos 2045)]
    obtain ⟨hhalf, heven⟩ := h
    obtain ⟨hleft, hright⟩ := abs_le.1 hhalf
    constructor
    · intro ht
      have hle : q < 2 ^ 53 + 1 := by exact_mod_cast (by linarith : (q : ℝ) < 2 ^ 53 + 1)
      have hge : 2 ^ 53 ≤ q + 1 := by exact_mod_cast (by linarith : (2 : ℝ) ^ 53 ≤ q + 1)
      by_contra hne
      obtain rfl : q = 2 ^ 53 - 1 := by omega
      have htie : |((2 ^ 53 - 1 : Nat) : ℝ) - t| = 1 / 2 := by
        refine le_antisymm hhalf ?_
        rw [abs_of_nonpos] <;> norm_num <;> linarith
      exact absurd (heven htie) (by norm_num)
    · rintro (hlt | ⟨-, rfl⟩)
      · omega
      · push_cast at hright
        linarith
  · obtain ⟨k, rfl⟩ := Nat.exists_eq_add_of_lt he
    have hpos := unitOf_pos 2045
    have ht := hlo.resolve_right (by omega)
    have hpow : (2 : ℝ) ^ 1 ≤ 2 ^ (k + 1) := pow_le_pow_right₀ one_le_two (by omega)
    refine iff_of_true ?_ (.inl he)
    rw [add_assoc, unitOf_add]
    calc (2 ^ 53 - 1 / 2) * unitOf 2045 ≤ 2 ^ 52 * (2 ^ 1 * unitOf 2045) := by linarith
      _ ≤ t * (2 ^ (k + 1) * unitOf 2045) :=
          mul_le_mul ht (mul_le_mul_of_nonneg_right hpow hpos.le) (mul_nonneg (by norm_num) hpos.le) (by linarith)

/-- Beyond the largest exponent the significand becomes infinity. -/
theorem carry_eq_inf (neg : Bool) {q e : Nat} (h : 2045 < e ∨ e = 2045 ∧ q = 2 ^ 53) : carry neg q e = .inf neg := by
  by_cases hq : q = 2 ^ 53
  · rw [hq, carry_out, if_neg (by omega)]
  · rw [carry_of_ne hq, if_neg (by omega)]

/-- Else it becomes a number of q units, with an even significand where q is even. -/
theorem carry_eq_fin (neg : Bool) {q e : Nat} (h : ¬(2045 < e ∨ e = 2045 ∧ q = 2 ^ 53)) :
    ∃ m e', carry neg q e = .fin neg m e' ∧ magnitude m e' = q * unitOf e ∧ (q % 2 = 0 → m % 2 = 0) := by
  by_cases hq : q = 2 ^ 53
  · refine ⟨2 ^ 52, e + 1, by rw [hq, carry_out, if_pos (by omega)], ?_, fun _ => by norm_num⟩
    rw [magnitude_eq, hq, unitOf_add, ← mul_assoc]
    norm_num
  · exact ⟨q, e, by rw [carry_of_ne hq, if_pos (by omega)], magnitude_eq q e, id⟩

/-- The number of the nearest integer significand is the rounding of the magnitude. -/
theorem isRounded_carry {neg : Bool} {t : ℝ} {q e : Nat} (hcan : f64Canonical (carry neg q e)) (h : RoundsTo t q)
    (hlo : 2 ^ 52 ≤ t ∨ e = 0) (hhi : t < 2 ^ 53) : IsRounded neg (t * unitOf e) (carry neg q e) := by
  have hover := overflow_iff h hlo hhi
  refine ⟨hcan, fun ha => carry_eq_inf neg (hover.1 ha), fun ha => ?_⟩
  obtain ⟨m, e₁, hcarry, hvalue, heven⟩ := carry_eq_fin neg (fun hc => not_le.2 ha (hover.2 hc))
  refine ⟨m, e₁, hcarry, fun m' e' hcan' => ?_⟩
  obtain ⟨z, hz, hgrid⟩ := canonical_units hcan' e
  have hunit := unitOf_pos e
  obtain ⟨hle, htie⟩ := h.nearest (hgrid.imp_right fun ⟨hlt, he⟩ => ⟨hlt, hlo.resolve_right he⟩)
  rw [hvalue, hz, ← sub_mul, ← sub_mul, abs_mul, abs_mul]
  rw [mul_le_mul_iff_left₀ (abs_pos.2 hunit.ne'), mul_left_inj' (abs_pos.2 hunit.ne').ne', Ne, mul_left_inj' hunit.ne']
  exact ⟨hle, fun heq hne => heven (htie heq hne)⟩

/-- Zero is its own rounding. -/
theorem isRounded_zero (neg : Bool) : IsRounded neg 0 (.fin neg 0 0) := by
  have hzero : magnitude 0 0 = 0 := by simp [magnitude]
  have hpos : (0 : ℝ) < 2 ^ 1024 - 2 ^ 970 := sub_pos.2 (pow_lt_pow_right₀ one_lt_two (by norm_num))
  refine ⟨canonical_zero neg, fun ha => absurd ha (not_le.2 hpos), fun _ => ⟨0, 0, rfl, fun m' e' _ => ?_⟩⟩
  rw [hzero, sub_zero, sub_zero, abs_zero]
  exact ⟨abs_nonneg _, fun _ _ => rfl⟩

/-- `roundF64` rounds the magnitude its argument stands for. -/
theorem isRounded_roundF64 (neg : Bool) {m : Nat} (x : Int) {sticky : Bool} {M : ℝ} (h : StandsFor m sticky M)
    (hbits : sticky = true → 2 ^ 54 ≤ m) : IsRounded neg (M * 2 ^ x / 2 ^ 1074) (roundF64 neg m x sticky) := by
  by_cases hm : m = 0
  · have hexact : sticky = false := Bool.eq_false_of_not_eq_true fun hs => by have := hbits hs; omega
    rw [h.1 hexact, hm, Nat.cast_zero, zero_mul, zero_div, roundF64, if_pos rfl]
    exact isRounded_zero neg
  · have hcan := canonical_roundF64 neg m x sticky
    obtain ⟨hlo, hhi⟩ := units_bounds hm x h
    rw [roundF64_eq_carry neg x sticky hm] at hcan ⊢
    rw [zpow_eq_units_mul x (roundExponent m x), ← mul_assoc, mul_div_assoc]
    exact isRounded_carry hcan (roundsTo_roundSignificand h hbits) hlo hhi

/-- Settles O58: the argument a is M * 2^(x - 1074) for an M that m and `sticky` stand for. -/
theorem roundingIsToNearestEven : Obligations.RoundingIsToNearestEven := by
  intro neg m x sticky a hexact hsticky
  have hunit : (0 : ℝ) < 2 ^ x / 2 ^ 1074 := by positivity
  obtain ⟨M, rfl⟩ : ∃ M, a = M * 2 ^ x / 2 ^ 1074 :=
    ⟨a / (2 ^ x / 2 ^ 1074), by rw [mul_div_assoc, div_mul_cancel₀ _ hunit.ne']⟩
  simp only [mul_div_assoc, mul_left_inj' hunit.ne', mul_lt_mul_iff_left₀ hunit] at hexact hsticky
  exact isRounded_roundF64 neg x ⟨hexact, fun hs => (hsticky hs).2⟩ fun hs => (hsticky hs).1

end Sys2Proof.Machine
end

section
/-!
PROOF. The operations are the exact results rounded, and the comparison is that of the exact values (00_scope R8, R12).
Each operation hands `roundF64` the exact result, or the integer part of its quotient or root with a sticky bit.
-/

namespace Sys2Proof.Machine

open Sys2Proof.Safety

/-! ### Exact values -/

theorem signedInt_mul (neg : Bool) (a b : Nat) : signedInt neg (a * b) = signedInt neg a * b := by
  cases neg <;> simp [signedInt]

theorem signedValue_eq (neg : Bool) (m e : Nat) : signedValue neg m e = signedInt neg m * unitOf e := by
  cases neg <;> simp [signedValue, signedInt, magnitude_eq]

/-- The value in units of a smaller exponent. -/
theorem signedValue_align (neg : Bool) (m : Nat) {e k : Nat} (hk : k ≤ e) :
    signedValue neg m e = signedInt neg (m <<< (e - k)) * unitOf k := by
  obtain ⟨d, rfl⟩ := Nat.exists_eq_add_of_le hk
  rw [signedValue_eq, unitOf_add, Nat.add_sub_cancel_left, Nat.shiftLeft_eq, signedInt_mul, ← mul_assoc]
  push_cast
  rfl

theorem abs_signedValue (neg : Bool) (m e : Nat) : |signedValue neg m e| = m * unitOf e := by
  cases neg <;> simp [signedValue_eq, signedInt, abs_mul, abs_of_pos (unitOf_pos e)]

theorem signedValue_not (neg : Bool) (m e : Nat) : signedValue (!neg) m e = -signedValue neg m e := by
  cases neg <;> simp [signedValue_eq, signedInt]

theorem signedValue_eq_zero_iff (neg : Bool) (m e : Nat) : signedValue neg m e = 0 ↔ m = 0 := by
  rw [← abs_eq_zero, abs_signedValue, mul_eq_zero, or_iff_left (unitOf_pos e).ne', Nat.cast_eq_zero]

theorem signedValue_false_nonneg (m e : Nat) : 0 ≤ signedValue false m e := by
  rw [signedValue_eq]
  exact mul_nonneg (Int.cast_nonneg (Int.natCast_nonneg m)) (unitOf_pos e).le

theorem signedValue_true_nonpos (m e : Nat) : signedValue true m e ≤ 0 := by
  rw [← Bool.not_false, signedValue_not]
  exact neg_nonpos.2 (signedValue_false_nonneg m e)

/-! ### Rounding of an exact magnitude -/

theorem unitOf_eq_zpow (e : Nat) : unitOf e = 2 ^ ((e : Int) - 1074) := by
  rw [unitOf, zpow_sub₀ two_ne_zero]
  norm_cast

/-- `roundF64` of what stands for M rounds M * 2^(x - 1074). -/
theorem isRounded_of_standsFor (neg : Bool) {m : Nat} {x : Int} {sticky : Bool} {M a : ℝ} (h : StandsFor m sticky M)
    (hbits : sticky = true → 2 ^ 54 ≤ m) (ha : a = M * 2 ^ (x - 1074)) :
    IsRounded neg a (roundF64 neg m x sticky) := by
  have hscale : (2 : ℝ) ^ (x - 1074) = 2 ^ x / 2 ^ 1074 := by
    rw [zpow_sub₀ two_ne_zero]
    norm_cast
  rw [ha, hscale, ← mul_div_assoc]
  exact isRounded_roundF64 neg x h hbits

theorem standsFor_natCast (m : Nat) : StandsFor m false m := ⟨fun _ => rfl, fun h => absurd h (by decide)⟩

/-- `roundF64` of an exact m rounds m * 2^(x - 1074). -/
theorem isRounded_exact (neg : Bool) {m : Nat} {x : Int} {a : ℝ} (ha : a = m * 2 ^ (x - 1074)) :
    IsRounded neg a (roundF64 neg m x false) :=
  isRounded_of_standsFor neg (standsFor_natCast m) (fun h => absurd h (by decide)) ha

/-! ### Sum and difference -/

/-- v is the rounding of the sum s, where an exact zero sum has the sign `zeroNeg`. -/
def IsRoundedSum (s : ℝ) (zeroNeg : Bool) (v : F64) : Prop :=
  (0 < s → IsRounded false s v) ∧ (s < 0 → IsRounded true (-s) v) ∧ (s = 0 → v = .fin zeroNeg 0 0)

/-- The rounding of an integer number of units is that of the value, in the sign of the integer. -/
theorem isRoundedSum_int (z : Int) (e : Nat) (zeroNeg : Bool) :
    IsRoundedSum (z * unitOf e) zeroNeg
      (if z = 0 then .fin zeroNeg 0 0 else roundF64 (decide (z < 0)) z.natAbs e false) := by
  have hpos := unitOf_pos e
  refine ⟨fun h => ?_, fun h => ?_, fun h => ?_⟩
  · have hz : 0 < z := by exact_mod_cast (pos_iff_pos_of_mul_pos h).2 hpos
    rw [if_neg hz.ne', decide_eq_false hz.not_gt]
    refine isRounded_exact false ?_
    rw [Nat.cast_natAbs, abs_of_pos hz, unitOf_eq_zpow]
  · have hz : z < 0 := by exact_mod_cast (neg_iff_pos_of_mul_neg h).2 hpos
    rw [if_neg hz.ne, decide_eq_true hz]
    refine isRounded_exact true ?_
    rw [Nat.cast_natAbs, abs_of_neg hz, unitOf_eq_zpow, ← neg_mul, Int.cast_neg]
  · have hz : z = 0 := by exact_mod_cast (mul_eq_zero.1 h).resolve_right hpos.ne'
    rw [if_pos hz]

theorem isRoundedSum_fadd (na nb : Bool) (ma ea mb eb : Nat) :
    IsRoundedSum (signedValue na ma ea + signedValue nb mb eb) (na && nb) (fadd (.fin na ma ea) (.fin nb mb eb)) := by
  rw [signedValue_align na ma (min_le_left ea eb), signedValue_align nb mb (min_le_right ea eb), ← add_mul,
    ← Int.cast_add]
  exact isRoundedSum_int _ _ _

theorem isRoundedSum_fsub (na nb : Bool) (ma ea mb eb : Nat) :
    IsRoundedSum (signedValue na ma ea - signedValue nb mb eb) (na && !nb) (fsub (.fin na ma ea) (.fin nb mb eb)) := by
  rw [sub_eq_add_neg, ← signedValue_not]
  exact isRoundedSum_fadd na (!nb) ma ea mb eb

/-! ### Product, quotient and root -/

theorem isRounded_fmul (na nb : Bool) (ma ea mb eb : Nat) :
    IsRounded (na != nb) |signedValue na ma ea * signedValue nb mb eb| (fmul (.fin na ma ea) (.fin nb mb eb)) := by
  refine isRounded_exact _ ?_
  rw [abs_mul, abs_signedValue, abs_signedValue, mul_mul_mul_comm, unitOf_eq_zpow, unitOf_eq_zpow,
    ← zpow_add₀ two_ne_zero, Nat.cast_mul]
  congr 2
  ring

/-- The integer quotient, with the remainder for `sticky`, stands for the quotient. -/
theorem standsFor_div (a : Nat) {b : Nat} (hb : b ≠ 0) : StandsFor (a / b) (a % b != 0) (a / b) := by
  have hbR : (0 : ℝ) < b := by exact_mod_cast Nat.pos_of_ne_zero hb
  have hdiv : (b : ℝ) * (a / b : Nat) + (a % b : Nat) = a := by exact_mod_cast Nat.div_add_mod a b
  have hmod : ((a % b : Nat) : ℝ) < b := by exact_mod_cast Nat.mod_lt a (Nat.pos_of_ne_zero hb)
  refine ⟨fun h => ?_, fun h => ?_⟩
  · have hzero : a % b = 0 := by simpa using h
    rw [hzero] at hdiv
    rw [div_eq_iff hbR.ne']
    linarith
  · have hpos : (0 : ℝ) < (a % b : Nat) := by
      exact_mod_cast Nat.pos_of_ne_zero (by simpa using h)
    rw [lt_div_iff₀ hbR, div_lt_iff₀ hbR]
    constructor <;> linarith

/-- 120 more bits make the quotient of two significands long enough for `roundF64`. -/
theorem quotient_bits {a b : Nat} (ha : a ≠ 0) (hb : b ≠ 0) (hb53 : b < 2 ^ 53) : 2 ^ 54 ≤ (a <<< 120) / b := by
  rw [Nat.shiftLeft_eq, Nat.le_div_iff_mul_le (Nat.pos_of_ne_zero hb)]
  omega

theorem isRounded_fdiv {na nb : Bool} {ma ea mb eb : Nat} (hb : f64Canonical (.fin nb mb eb)) (hb0 : mb ≠ 0) :
    IsRounded (na != nb) |signedValue na ma ea / signedValue nb mb eb| (fdiv (.fin na ma ea) (.fin nb mb eb)) := by
  rw [fdiv, if_neg hb0]
  refine isRounded_of_standsFor _ (standsFor_div (ma <<< 120) hb0) (fun hrem => ?_) ?_
  · refine quotient_bits ?_ hb0 hb.1
    rintro rfl
    simp at hrem
  · have hunits : unitOf ea / unitOf eb = 2 ^ 120 * 2 ^ ((ea : Int) - eb - 120 + 1074 - 1074) := by
      rw [unitOf_eq_zpow, unitOf_eq_zpow, ← zpow_sub₀ two_ne_zero, ← zpow_natCast, ← zpow_add₀ two_ne_zero]
      congr 1
      push_cast
      ring
    rw [abs_div, abs_signedValue, abs_signedValue, mul_div_mul_comm, hunits, Nat.shiftLeft_eq, Nat.cast_mul,
      Nat.cast_pow, Nat.cast_two, mul_div_right_comm, mul_assoc]

theorem fdiv_zero (na nb : Bool) (ma ea eb : Nat) :
    fdiv (.fin na ma ea) (.fin nb 0 eb) = if ma = 0 then .nan else .inf (na != nb) := by
  rw [fdiv, if_pos rfl]

/-- The digits leave a root whose square is at most m and whose successor's square is above it. -/
theorem isqrtFrom_spec (m : Nat) : ∀ bits r : Nat, r * r ≤ m → m < (r + 2 ^ bits) * (r + 2 ^ bits) →
    isqrtFrom m bits r * isqrtFrom m bits r ≤ m ∧ m < (isqrtFrom m bits r + 1) * (isqrtFrom m bits r + 1)
  | 0, _, hlo, hhi => ⟨hlo, hhi⟩
  | bits + 1, r, hlo, hhi => by
    rw [isqrtFrom]
    split
    · next hle =>
      refine isqrtFrom_spec m bits _ hle ?_
      rwa [add_assoc, ← two_mul, ← pow_succ']
    · next hgt => exact isqrtFrom_spec m bits r hlo (not_le.1 hgt)

theorem isqrt_eq_sqrt {m : Nat} (hm : m < 2 ^ 180) : isqrt m = Nat.sqrt m :=
  Nat.eq_sqrt.2 (isqrtFrom_spec m 90 0 (Nat.zero_le m) (by rw [Nat.zero_add, ← pow_add]; exact hm))

/-- The integer root, with the exactness for `sticky`, stands for the root. -/
theorem standsFor_sqrt (m : Nat) : StandsFor (Nat.sqrt m) (Nat.sqrt m * Nat.sqrt m != m) (Real.sqrt m) := by
  refine ⟨fun h => ?_, fun h => ?_⟩
  · have hsq : Nat.sqrt m * Nat.sqrt m = m := by simpa using h
    conv_lhs => rw [← hsq]
    rw [Nat.cast_mul, Real.sqrt_mul_self (Nat.cast_nonneg _)]
  · have hne : Nat.sqrt m * Nat.sqrt m ≠ m := by simpa using h
    have hlt : Nat.sqrt m * Nat.sqrt m < m := lt_of_le_of_ne (Nat.sqrt_le m) hne
    refine ⟨Real.lt_sqrt_of_sq_lt ?_, Real.real_sqrt_lt_nat_sqrt_succ⟩
    rw [sq]
    exact_mod_cast hlt

/-- With t more bits, t of the parity of e, the exponent halves. -/
theorem sqrt_scaled (m e : Nat) :
    Real.sqrt (m * unitOf e) =
      Real.sqrt (m <<< (120 + e % 2) : Nat) * 2 ^ (((e : Int) - (120 + e % 2 : Nat) - 1074) / 2) := by
  obtain ⟨k, hk⟩ : ∃ k : Int, (e : Int) - (120 + e % 2 : Nat) - 1074 = k + k :=
    ⟨((e : Int) - (120 + e % 2 : Nat) - 1074) / 2, by omega⟩
  have hexp : (e : Int) - 1074 = (120 + e % 2 : Nat) + (k + k) := by omega
  have hhalf : (k + k) / 2 = k := by omega
  rw [hk, hhalf, unitOf_eq_zpow, hexp, zpow_add₀ two_ne_zero, zpow_add₀ two_ne_zero, zpow_natCast, Nat.shiftLeft_eq,
    Nat.cast_mul, Nat.cast_pow, Nat.cast_two, ← mul_assoc, Real.sqrt_mul (by positivity),
    Real.sqrt_mul_self (by positivity)]

theorem isRounded_fsqrt {m e : Nat} (h : f64Canonical (.fin false m e)) (hm : m ≠ 0) :
    IsRounded false (Real.sqrt (signedValue false m e)) (fsqrt (.fin false m e)) := by
  have hparity : 2 ^ (120 + e % 2) = 2 ^ 120 ∨ 2 ^ (120 + e % 2) = 2 ^ 121 := by
    rcases Nat.mod_two_eq_zero_or_one e with he | he <;> simp [he]
  have hlt : m <<< (120 + e % 2) < 2 ^ 180 := by
    have := h.1
    rw [Nat.shiftLeft_eq]
    rcases hparity with hp | hp <;> rw [hp] <;> omega
  have hbits : 2 ^ 54 ≤ Nat.sqrt (m <<< (120 + e % 2)) := by
    rw [Nat.le_sqrt, Nat.shiftLeft_eq]
    rcases hparity with hp | hp <;> rw [hp] <;> omega
  rw [fsqrt, if_neg hm, if_neg (by decide)]
  dsimp only
  rw [isqrt_eq_sqrt hlt]
  refine isRounded_of_standsFor false (standsFor_sqrt _) (fun _ => hbits) ?_
  rw [← abs_of_nonneg (signedValue_false_nonneg m e), abs_signedValue, sqrt_scaled, add_sub_cancel_right]

/-! ### Comparison and integers -/

theorem flt_iff_lt (na nb : Bool) (ma ea mb eb : Nat) :
    flt (.fin na ma ea) (.fin nb mb eb) = true ↔ signedValue na ma ea < signedValue nb mb eb := by
  rw [flt_fin, signedValue_align na ma ea.zero_le, signedValue_align nb mb eb.zero_le,
    mul_lt_mul_iff_left₀ (unitOf_pos 0), Int.cast_lt, Nat.shiftLeft_eq, Nat.shiftLeft_eq, Nat.sub_zero, Nat.sub_zero]

theorem isRounded_i2f (k : Nat) : IsRounded false k (i2f k) := by
  refine isRounded_exact false ?_
  rw [sub_self, zpow_zero, mul_one]

/-- An integer of at most 53 bits loses none (00_scope R12). -/
theorem f64Value_i2f {k : Nat} (hk : k < 2 ^ 53) : f64Value (i2f k) = some (k : ℚ) := by
  by_cases hk0 : k = 0
  · simp [hk0, i2f, roundF64, f64Value]
  · have hlog : k.log2 < 53 := (Nat.log2_lt hk0).2 hk
    have hexp : (roundExponent k 1074 : Int) ≤ 1074 := by unfold roundExponent; omega
    have hsum : (1074 - (roundExponent k 1074 : Int)).toNat + roundExponent k 1074 = 1074 := by omega
    rw [i2f, roundF64_eq_carry false 1074 false hk0, roundSignificand, if_pos hexp, carry_of_ne (shifted_lt hexp).ne,
      if_pos (by omega), f64Value, if_neg (by decide), one_mul, Nat.cast_mul, Nat.cast_pow, Nat.cast_two, mul_assoc,
      ← pow_add, hsum, mul_div_cancel_right₀ _ (by positivity)]

/-! ### The statement -/

/-- Settles O60: the finite results by the lemma of each operation, the special values by the operations' equations. -/
theorem arithmeticIsRoundedExactly : Obligations.ArithmeticIsRoundedExactly := by
  refine ⟨fun na nb ma ea mb eb ha hb => ?_, fun k => ⟨isRounded_i2f k, f64Value_i2f⟩, fun p q n m e => ?_, fun v => ?_⟩
  · refine ⟨isRoundedSum_fadd na nb ma ea mb eb, isRoundedSum_fsub na nb ma ea mb eb, isRounded_fmul na nb ma ea mb eb,
      ⟨fun hy => ?_, fun hy hx => ?_, fun hy hx => ?_⟩, ⟨fun hx => ?_, fun hx => ?_, fun hx => ?_⟩,
      flt_iff_lt na nb ma ea mb eb⟩
    · exact isRounded_fdiv hb ((signedValue_eq_zero_iff nb mb eb).not.1 hy)
    · rw [(signedValue_eq_zero_iff nb mb eb).1 hy, fdiv_zero, if_neg ((signedValue_eq_zero_iff na ma ea).not.1 hx)]
    · rw [(signedValue_eq_zero_iff nb mb eb).1 hy, fdiv_zero, if_pos ((signedValue_eq_zero_iff na ma ea).1 hx)]
    · obtain rfl : na = false := Bool.eq_false_of_not_eq_true fun hneg => by
        subst hneg; exact hx.not_ge (signedValue_true_nonpos ma ea)
      exact isRounded_fsqrt ha ((signedValue_eq_zero_iff false ma ea).not.1 hx.ne')
    · rw [fsqrt, if_pos ((signedValue_eq_zero_iff na ma ea).1 hx)]
    · obtain rfl : na = true := Bool.eq_true_of_not_eq_false fun hpos => by
        subst hpos; exact hx.not_ge (signedValue_false_nonneg ma ea)
      rw [fsqrt, if_neg ((signedValue_eq_zero_iff true ma ea).not.1 hx.ne), if_pos rfl]
  · refine ⟨⟨rfl, rfl, rfl⟩, ⟨?_, rfl, rfl⟩, ⟨rfl, rfl, rfl⟩, ⟨rfl, rfl, rfl⟩, ⟨rfl, rfl⟩, rfl, rfl, rfl⟩
    cases p <;> cases q <;> rfl
  · cases v <;> simp [fadd, fsub, fneg, fmul, fdiv, fsqrt, flt]

end Sys2Proof.Machine
end

section
/-!
PROOF. The result registers and their VALID bits (10_state R24, R33 to R39): each group of registers has a bit and
its own commands. What a completion does to a group is said once, for the command's own group and for the others.
-/

namespace Sys2Proof.Machine

open Sys2Proof.Safety

/-! ### The groups of result registers -/

/-- A VALID bit with the result registers it speaks of (10_state R24): VAR_VALID, PAPR_VALID and BER_VALID. -/
inductive ResultGroup where
  | var
  | papr
  | ber

/-- The group's VALID bit. -/
def ResultGroup.valid : ResultGroup → State → Bool
  | .var, s => s.status.varValid
  | .papr, s => s.status.paprValid
  | .ber, s => s.status.berValid

/-- The group's registers and its VALID bit keep their values. -/
def ResultGroup.Keep : ResultGroup → State → State → Prop
  | .var => KeepVar
  | .papr => KeepPapr
  | .ber => KeepBer

/-- The group's registers hold what `ValidInv` asks of the result of a successful command. -/
def ResultGroup.Meaning : ResultGroup → State → Prop
  | .var, s => isFinite (unpack s.noiseVar) = true ∧ flt fzero (unpack s.noiseVar) = true
  | .papr, s =>
    isFinite (unpack s.paprDb) = true ∧ isFinite (unpack s.peakPwr) = true ∧ isFinite (unpack s.meanPwr) = true ∧
      isZero (unpack s.meanPwr) = false ∧
      s.paprDb = pack (fmul (i2f 10) (log10 (clampRatio (fdiv (unpack s.peakPwr) (unpack s.meanPwr)))))
  | .ber, s =>
    s.errBits.toNat ≤ s.totalBits.toNat ∧ 2 ≤ s.totalBits.toNat ∧ s.totalBits.toNat ≤ 32768 ∧
      s.ber = pack (fdiv (i2f s.errBits.toNat) (i2f s.totalBits.toNat))

theorem validInv_iff (s : State) : ValidInv s ↔ ∀ g : ResultGroup, g.valid s = true → g.Meaning s := by
  constructor
  · rintro ⟨hvar, hpapr, hber⟩ g
    cases g
    exacts [hvar, hpapr, hber]
  · exact fun h => ⟨h .var, h .papr, h .ber⟩

theorem ResultGroup.Keep.valid_eq {g : ResultGroup} {s t : State} (h : g.Keep s t) : g.valid t = g.valid s := by
  cases g <;> exact h.2

theorem ResultGroup.Keep.meaning {g : ResultGroup} {s t : State} (h : g.Keep s t) (hs : g.Meaning s) : g.Meaning t := by
  cases g with
  | var =>
    obtain ⟨hvar, -⟩ := h
    rwa [Meaning, hvar]
  | papr =>
    obtain ⟨⟨hpapr, hpeak, hmean⟩, -⟩ := h
    rwa [Meaning, hpapr, hpeak, hmean]
  | ber =>
    obtain ⟨⟨herr, htotal, hber⟩, -⟩ := h
    rwa [Meaning, herr, htotal, hber]

@[simp] theorem keep_finish (g : ResultGroup) (k : ErrKind) (d : BitVec 4) (n : Nat) (s u : State) :
    g.Keep s (finish k d n u) ↔ g.Keep s u := by
  cases g <;> exact Iff.rfl

@[simp] theorem valid_finish (g : ResultGroup) (k : ErrKind) (d : BitVec 4) (n : Nat) (u : State) :
    g.valid (finish k d n u) = g.valid u := by
  cases g <;> rfl

@[simp] theorem meaning_finish (g : ResultGroup) (k : ErrKind) (d : BitVec 4) (n : Nat) (u : State) :
    g.Meaning (finish k d n u) ↔ g.Meaning u := by
  cases g <;> exact Iff.rfl

/-! ### The command's own group -/

/-- The group a command writes: CHECK and CHAN the variance, PAPR and BERCNT their measurements (10_state R24). -/
def ownGroup : Instr → Option ResultGroup
  | .check => some .var
  | .chan _ _ => some .var
  | .papr _ => some .papr
  | .bercnt => some .ber
  | _ => none

theorem ownGroup_eq_var_iff (i : Instr) : ownGroup i = some .var ↔ i = .check ∨ ∃ cd cs, i = .chan cd cs := by
  cases i <;> simp [ownGroup]

theorem ownGroup_eq_papr_iff (i : Instr) : ownGroup i = some .papr ↔ ∃ cs, i = .papr cs := by
  cases i <;> simp [ownGroup]

theorem ownGroup_eq_ber_iff (i : Instr) : ownGroup i = some .ber ↔ i = .bercnt := by
  cases i <;> simp [ownGroup]

/-! ### A raise -/

/-- Clear the VALID bit of a group, if there is one. -/
def dropGroup : Option ResultGroup → State → State
  | some .var => dropVar
  | some .papr => dropPapr
  | some .ber => dropBer
  | none => id

theorem dropOf_eq_dropGroup (i : Instr) : dropOf i = dropGroup (ownGroup i) := by
  cases i <;> rfl

/-- A raise is taken on the state before the command, with its destination unspecified or not, and clears the VALID bit
of the command's group (60_exceptions R254). -/
theorem raises_state {i : Instr} {s t : State} {r : Raise} (h : Raises i s r t) :
    ∃ m, (m = s.mem ∨ m = forgetDestination i (streamLen s) s.mem) ∧ r.kind ≠ .noError ∧
      t = finish r.kind r.detail r.index (dropGroup (ownGroup i) (commitMem m s)) := by
  obtain ⟨hkind, -, ⟨ht, -⟩ | ⟨ht, -⟩⟩ := h <;> rw [dropOf_eq_dropGroup] at ht
  · exact ⟨s.mem, .inl rfl, hkind, ht⟩
  · exact ⟨_, .inr rfl, hkind, ht⟩

/-- Dropping one group's bit keeps every other group. -/
theorem keep_dropGroup {g : ResultGroup} {o : Option ResultGroup} (h : o ≠ some g) (m : Mem) (s : State) :
    g.Keep s (dropGroup o (commitMem m s)) := by
  cases g <;> rcases o with _ | (_ | _ | _)
  case var.some.var | papr.some.papr | ber.some.ber => exact absurd rfl h
  case var.none | var.some.papr | var.some.ber => exact ⟨rfl, rfl⟩
  all_goals exact ⟨⟨rfl, rfl, rfl⟩, rfl⟩

@[simp] theorem valid_dropGroup (g : ResultGroup) (s : State) : g.valid (dropGroup (some g) s) = false := by
  cases g <;> rfl

/-! ### A success -/

/-- What a success commits beside the buffers: the result of the command's group, with what it is made of. -/
def CommitsResult (s u : State) : Option ResultGroup → Prop
  | some .var => VarianceOk s ∧ ∃ ctr m, u = commitVar (pack (snrVariance s)) (commitCtr ctr (commitMem m s))
  | some .papr => CfgValid s ∧ ∃ xs v, paprOf xs (streamLen s) = .ok v ∧
      u = commitPapr (pack v.papr) (pack v.peak) (pack v.mean) s
  | some .ber => CfgValid s ∧ ∃ e ≤ 2 * streamLen s, u = commitBer (BitVec.ofNat 64 e)
      (BitVec.ofNat 64 (2 * streamLen s)) (pack (fdiv (i2f e) (i2f (2 * streamLen s)))) s
  | none => ∃ m, u = commitMem m s

theorem Commits.result {i : Instr} {s u : State} (h : Commits s u i) : CommitsResult s u (ownGroup i) := by
  cases i with
  | nop => exact ⟨s.mem, h⟩
  | check => obtain ⟨-, hvar, hu⟩ := h; exact ⟨hvar, s.noiseCtr, s.mem, hu⟩
  | qmap cd bs => obtain ⟨-, _, -, -, hu⟩ := h; exact ⟨_, hu⟩
  | mod cd cs => obtain ⟨-, _, _, -, -, -, hu⟩ := h; exact ⟨_, hu⟩
  | demod cd cs => obtain ⟨-, _, _, -, -, -, hu⟩ := h; exact ⟨_, hu⟩
  | chan cd cs => obtain ⟨-, hvar, _, _, -, -, -, hu⟩ := h; exact ⟨hvar, _, _, hu⟩
  | detect bd cs => obtain ⟨-, _, -, -, hu⟩ := h; exact ⟨_, hu⟩
  | bercnt =>
    obtain ⟨hcfg, v, w, hread, -, -, -, hu⟩ := h
    exact ⟨hcfg, mismatches v w, length_of_readBits hread ▸ mismatches_le v w, hu⟩
  | papr cs => obtain ⟨hcfg, xs, v, -, -, hpapr, hu⟩ := h; exact ⟨hcfg, xs, v, hpapr, hu⟩

/-- A commit keeps every group but the command's own. -/
theorem CommitsResult.keep {g : ResultGroup} {o : Option ResultGroup} {s u : State} (h : CommitsResult s u o)
    (ho : o ≠ some g) : g.Keep s u := by
  rcases o with _ | (_ | _ | _)
  · obtain ⟨m, rfl⟩ := h
    exact keep_dropGroup ho m s
  · obtain ⟨-, ctr, m, rfl⟩ := h
    cases g
    exacts [absurd rfl ho, ⟨⟨rfl, rfl, rfl⟩, rfl⟩, ⟨⟨rfl, rfl, rfl⟩, rfl⟩]
  · obtain ⟨-, xs, v, -, rfl⟩ := h
    cases g
    exacts [⟨rfl, rfl⟩, absurd rfl ho, ⟨⟨rfl, rfl, rfl⟩, rfl⟩]
  · obtain ⟨-, e, -, rfl⟩ := h
    cases g
    exacts [⟨rfl, rfl⟩, ⟨⟨rfl, rfl, rfl⟩, rfl⟩, absurd rfl ho]

theorem CommitsResult.valid {g : ResultGroup} {s u : State} (h : CommitsResult s u (some g)) : g.valid u = true := by
  cases g with
  | var => obtain ⟨-, _, _, rfl⟩ := h; rfl
  | papr => obtain ⟨-, _, _, -, rfl⟩ := h; rfl
  | ber => obtain ⟨-, _, -, rfl⟩ := h; rfl

/-! ### A completion -/

/-- A command leaves every group but its own as it was (10_state R45, 60_exceptions R254). -/
theorem keep_of_exec {i : Instr} {s t : State} (h : exec i s = .next t) {g : ResultGroup} (hg : ownGroup i ≠ some g) :
    g.Keep s t := by
  rcases exec_cases h with ⟨r, hr⟩ | ⟨u, hu, rfl⟩
  · obtain ⟨m, -, -, rfl⟩ := raises_state hr
    exact (keep_finish ..).2 (keep_dropGroup hg m s)
  · exact (keep_finish ..).2 (hu.result.keep hg)

/-- A command sets the VALID bit of its own group exactly when it succeeds, and clears it when it raises. -/
theorem valid_iff_of_exec {i : Instr} {s t : State} (h : exec i s = .next t) {g : ResultGroup}
    (hg : ownGroup i = some g) : g.valid t = true ↔ t.status.err = .noError := by
  rcases exec_cases h with ⟨r, hr⟩ | ⟨u, hu, rfl⟩
  · obtain ⟨m, -, hkind, rfl⟩ := raises_state hr
    simp [hg, hkind]
  · have hresult : CommitsResult s u (some g) := hg ▸ hu.result
    simp [hresult.valid]

/-- Settles O36: the three groups, each by its own commands and by the others. -/
theorem validBitsFollowTheirCommands : Obligations.ValidBitsFollowTheirCommands := by
  intro i s t h
  refine ⟨?_, ?_, ?_⟩
  · split
    · next hi => exact valid_iff_of_exec h ((ownGroup_eq_var_iff i).2 hi)
    · next hi => exact keep_of_exec h (mt (ownGroup_eq_var_iff i).1 hi)
  · split
    · next hi => exact valid_iff_of_exec h ((ownGroup_eq_papr_iff i).2 hi)
    · next hi => exact keep_of_exec h (mt (ownGroup_eq_papr_iff i).1 hi)
  · split
    · next hi => exact valid_iff_of_exec h ((ownGroup_eq_ber_iff i).2 hi)
    · next hi => exact keep_of_exec h (mt (ownGroup_eq_ber_iff i).1 hi)

end Sys2Proof.Machine
end

section
/-!
PROOF. A VALID bit that is 1 stands beside the result of a successful command (10_state R24): the results a command
commits have their meaning, and no step of the Host changes a result register but a reset, which clears the bits.
-/

namespace Sys2Proof.Machine

open Sys2Proof.Safety

/-! ### The mean power is finite -/

theorem isFinite_iff (v : F64) : isFinite v = true ↔ ∃ neg m e, v = .fin neg m e := by
  cases v <;> simp [isFinite]

/-- A canonical finite number keeps its value through its pattern. -/
theorem unpack_pack_of_finite {v : F64} (hcan : f64Canonical v) (hfin : isFinite v = true) : unpack (pack v) = v := by
  obtain ⟨neg, m, e, rfl⟩ := (isFinite_iff v).1 hfin
  exact unpack_pack_fin hcan

/-- Every canonical finite number lies below the threshold of overflow. -/
theorem abs_signedValue_lt {neg : Bool} {m e : Nat} (h : f64Canonical (.fin neg m e)) :
    |signedValue neg m e| < 2 ^ 1024 - 2 ^ 970 := by
  obtain ⟨hm, he, -⟩ := h
  obtain ⟨k, hk⟩ := Nat.exists_eq_add_of_le he
  have hunit : unitOf e ≤ unitOf 2045 := by
    rw [hk, unitOf_add]
    exact le_mul_of_one_le_left (unitOf_pos e).le (one_le_pow₀ one_le_two)
  have hm' : (m : ℝ) ≤ 2 ^ 53 - 1 := by
    have : (m : ℝ) + 1 ≤ 2 ^ 53 := by exact_mod_cast hm
    linarith
  rw [abs_signedValue, overflow_threshold]
  calc m * unitOf e ≤ (2 ^ 53 - 1) * unitOf 2045 := mul_le_mul hm' hunit (unitOf_pos e).le (by norm_num)
    _ < (2 ^ 53 - 1 / 2) * unitOf 2045 := mul_lt_mul_of_pos_right (by norm_num) (unitOf_pos 2045)

/-- An integer of at most 53 bits is a finite number of that value. -/
theorem exists_i2f_eq_fin {k : Nat} (hk : k < 2 ^ 53) : ∃ neg m e, i2f k = .fin neg m e ∧ signedValue neg m e = k := by
  have hvalue := f64Value_i2f hk
  cases hv : i2f k with
  | nan => simp [hv, f64Value] at hvalue
  | inf neg => simp [hv, f64Value] at hvalue
  | fin neg m e =>
    refine ⟨neg, m, e, rfl, ?_⟩
    rw [hv, f64Value, Option.some.injEq] at hvalue
    rw [← Rat.cast_natCast k, ← hvalue, signedValue, magnitude, ← mul_div_assoc, ← mul_assoc]
    push_cast [apply_ite (Rat.cast (K := ℝ))]
    rfl

/-- Division by a count does not overflow. -/
theorem isFinite_fdiv_i2f {v : F64} (hcan : f64Canonical v) (hfin : isFinite v = true) {k : Nat} (hk : 1 ≤ k)
    (hk53 : k < 2 ^ 53) : isFinite (fdiv v (i2f k)) = true := by
  obtain ⟨na, ma, ea, rfl⟩ := (isFinite_iff v).1 hfin
  obtain ⟨nb, mb, eb, hdivisor, hvalue⟩ := exists_i2f_eq_fin hk53
  have hkR : (1 : ℝ) ≤ k := by exact_mod_cast hk
  have hb0 : mb ≠ 0 := by
    rw [Ne, ← signedValue_eq_zero_iff nb mb eb, hvalue]
    exact (zero_lt_one.trans_le hkR).ne'
  have hrounded := isRounded_fdiv (na := na) (ma := ma) (ea := ea) (hdivisor ▸ canonical_i2f k) hb0
  have hlt : |signedValue na ma ea / signedValue nb mb eb| < 2 ^ 1024 - 2 ^ 970 := by
    rw [hvalue, abs_div, Nat.abs_cast]
    exact (div_le_self (abs_nonneg _) hkR).trans_lt (abs_signedValue_lt hcan)
  obtain ⟨m, e, hquotient, -⟩ := hrounded.2.2 hlt
  rw [hdivisor, hquotient, isFinite]

/-! ### The results a command commits -/

/-- The maximum of finite powers is finite. -/
theorem isFinite_peakOf {ps : List F64} (h : ∀ p ∈ ps, isFinite p = true) : isFinite (peakOf ps) = true := by
  refine List.foldlRecOn ps fmax (motive := fun p => isFinite p = true) rfl fun p hp q hq => ?_
  rw [fmax]
  split
  · exact h q hq
  · exact hp

theorem canonical_sumOf (ps : List F64) (h : ∀ p ∈ ps, f64Canonical p) : f64Canonical (sumOf ps) :=
  canonical_foldl (fun a b _ _ => canonical_fadd a b) ps _ (canonical_zero false) h

theorem streamLen_bounds {s : State} (h : CfgValid s) : 1 ≤ streamLen s ∧ streamLen s ≤ 16384 := by
  obtain ⟨⟨k, hk⟩, -, hsym, hle⟩ := h
  exact ⟨Nat.mul_pos (hk ▸ by positivity) hsym, hle⟩

/-- What PAPR measures of a stream stays what it is in the registers (46_papr R231 to R234). -/
theorem meaning_commitPapr {s : State} (hcfg : CfgValid s) {xs : List Cx} {v : PaprValues}
    (h : paprOf xs (streamLen s) = .ok v) :
    ResultGroup.papr.Meaning (commitPapr (pack v.papr) (pack v.peak) (pack v.mean) s) := by
  obtain ⟨hlo, hhi⟩ := streamLen_bounds hcfg
  obtain ⟨hpowers, hpeak, hsum, hmean, hmean0, -, hpapr, hpaprFin⟩ := paprOf_ok h
  have hps : ∀ p ∈ xs.map power, f64Canonical p ∧ isFinite p = true := fun p hp => by
    obtain ⟨x, hx, rfl⟩ := List.mem_map.1 hp
    exact ⟨canonical_power x, hpowers x hx⟩
  have hpeakFin : isFinite v.peak = true := hpeak ▸ isFinite_peakOf fun p hp => (hps p hp).2
  have hmeanFin : isFinite v.mean = true :=
    hmean ▸ isFinite_fdiv_i2f (canonical_sumOf _ fun p hp => (hps p hp).1) hsum hlo (by omega)
  have hpaprPack : unpack (pack v.papr) = v.papr := unpack_pack_of_finite (hpapr ▸ canonical_fmul _ _) hpaprFin
  have hpeakPack : unpack (pack v.peak) = v.peak := unpack_pack_of_finite (hpeak ▸ canonical_peakOf xs) hpeakFin
  have hmeanPack : unpack (pack v.mean) = v.mean := unpack_pack_of_finite (hmean ▸ canonical_fdiv _ _) hmeanFin
  simp only [ResultGroup.Meaning, commitPapr_paprDb, commitPapr_peakPwr, commitPapr_meanPwr, hpaprPack, hpeakPack,
    hmeanPack]
  exact ⟨hpaprFin, hpeakFin, hmeanFin, hmean0, congrArg pack hpapr⟩

/-- What BERCNT counts fits its registers (45_detection R215). -/
theorem meaning_commitBer {s : State} (hcfg : CfgValid s) {e : Nat} (he : e ≤ 2 * streamLen s) :
    ResultGroup.ber.Meaning (commitBer (BitVec.ofNat 64 e) (BitVec.ofNat 64 (2 * streamLen s))
      (pack (fdiv (i2f e) (i2f (2 * streamLen s)))) s) := by
  obtain ⟨hlo, hhi⟩ := streamLen_bounds hcfg
  have herr : (BitVec.ofNat 64 e).toNat = e := by rw [BitVec.toNat_ofNat]; omega
  have htotal : (BitVec.ofNat 64 (2 * streamLen s)).toNat = 2 * streamLen s := by rw [BitVec.toNat_ofNat]; omega
  simp only [ResultGroup.Meaning, commitBer_errBits, commitBer_totalBits, commitBer_ber, herr, htotal]
  exact ⟨he, by omega, by omega, trivial⟩

/-- A variance that passes its test stays in range in its register (44_channel R191). -/
theorem meaning_commitVar {s : State} (h : VarianceOk s) (u : State) :
    ResultGroup.var.Meaning (commitVar (pack (snrVariance s)) u) := by
  obtain ⟨hfin, hpos⟩ := h
  have hpack : unpack (pack (snrVariance s)) = snrVariance s := unpack_pack_of_finite (canonical_fdiv _ _) hfin
  rw [ResultGroup.Meaning, commitVar_noiseVar, hpack]
  exact ⟨hfin, hpos⟩

theorem CommitsResult.meaning {g : ResultGroup} {s u : State} (h : CommitsResult s u (some g)) : g.Meaning u := by
  cases g with
  | var => obtain ⟨hvar, _, _, rfl⟩ := h; exact meaning_commitVar hvar _
  | papr => obtain ⟨hcfg, _, _, hpapr, rfl⟩ := h; exact meaning_commitPapr hcfg hpapr
  | ber => obtain ⟨hcfg, _, he, rfl⟩ := h; exact meaning_commitBer hcfg he

/-- A command that leaves the VALID bit of its own group set leaves its result there. -/
theorem meaning_of_exec {i : Instr} {s t : State} (h : exec i s = .next t) {g : ResultGroup} (hg : ownGroup i = some g)
    (hvalid : g.valid t = true) : g.Meaning t := by
  rcases exec_cases h with ⟨r, hr⟩ | ⟨u, hu, rfl⟩
  · obtain ⟨m, -, -, rfl⟩ := raises_state hr
    simp [hg] at hvalid
  · have hresult : CommitsResult s u (some g) := hg ▸ hu.result
    exact (meaning_finish ..).2 hresult.meaning

/-! ### The Engine's step -/

/-- No command breaks the meaning of a VALID bit: its own group has a new result or a cleared bit, the others stay. -/
theorem validInv_exec {i : Instr} {s t : State} (hs : ValidInv s) (h : exec i s = .next t) : ValidInv t := by
  refine (validInv_iff t).2 fun g hvalid => ?_
  by_cases hg : ownGroup i = some g
  · exact meaning_of_exec h hg hvalid
  · have hkeep := keep_of_exec h hg
    exact hkeep.meaning ((validInv_iff s).1 hs g (hkeep.valid_eq ▸ hvalid))

/-- An illegal word changes no VALID bit and no result register (60_exceptions R254). -/
theorem validInv_illegalCommand {s : State} (hs : ValidInv s) (k : Illegal) : ValidInv (illegalCommand k s) := by
  cases k <;> exact hs

theorem validInv_engineStep {s t : State} (hs : ValidInv s) (h : engineStep s = .next t) : ValidInv t := by
  unfold engineStep at h
  split at h
  · exact validInv_exec hs h
  · cases h
    exact validInv_illegalCommand hs _

/-! ### The Host's step -/

/-- A reset clears the VALID bits (70_reset_and_hazards R280, R283). -/
theorem validInv_of_reset {s : State} (h : s.status = Status.reset) : ValidInv s := by
  simp [ValidInv, h, Status.reset]

theorem validInv_unlessBusy {s s' : State} (hs : ValidInv s) (hs' : ValidInv s') : ValidInv (unlessBusy s s') := by
  rw [unlessBusy]
  split
  · exact hs
  · exact hs'

theorem validInv_writeCtrl {s : State} (hs : ValidInv s) (v : Word) : ValidInv (writeCtrl v s) := by
  rw [writeCtrl]
  split
  · exact validInv_of_reset rfl
  · exact hs

theorem validInv_writeStatus {s : State} (hs : ValidInv s) (v : Word) : ValidInv (writeStatus v s) := by
  unfold writeStatus
  split <;> split <;> exact hs

/-- A register write changes no result register and no VALID bit, but for a soft reset. -/
theorem validInv_regWrite {s : State} (hs : ValidInv s) (r : Reg) (v : Word) : ValidInv (regWrite r v s) := by
  cases r with
  | ctrl => exact validInv_writeCtrl hs v
  | status => exact validInv_writeStatus hs v
  | cmd | cfgNsub | cfgNsym | cfgWavelet | snrDb | noiseSeed => exact validInv_unlessBusy hs hs
  | _ => exact hs

theorem validInv_busWrite {s : State} (hs : ValidInv s) (a n : Nat) (v : Word) : ValidInv (busWrite a n v s) := by
  rw [busWrite]
  split
  · split
    · rw [regWriteAt]
      split
      · exact hs
      · exact validInv_regWrite hs _ v
    · exact validInv_unlessBusy hs hs
  · exact hs

theorem validInv_performInput {s : State} (hs : ValidInv s) (i : Input) : ValidInv (performInput i s) := by
  cases i with
  | read a n => exact hs
  | write a n v => exact validInv_busWrite hs a n v
  | wait =>
    rw [performInput_wait]
    exact hs
  | hardReset => exact validInv_of_reset rfl

theorem validInv_hostStep {s : State} (hs : ValidInv s) : ValidInv (hostStep s) := by
  rw [hostStep]
  split
  · exact hs
  · next i rest _ => exact validInv_performInput (s := hostTick { s with inputs := rest }) hs i

/-- Settles O56: the Engine's completion and the Host's step, each by its own lemma. -/
theorem everyStepKeepsTheValidResults : Obligations.EveryStepKeepsTheValidResults := by
  intro s t hs h
  rw [step] at h
  split at h
  · exact validInv_engineStep hs h
  · cases h
    exact validInv_hostStep hs

end Sys2Proof.Machine
end

section
/-!
PROOF. A command changes no byte outside its destination (10_state R40, R41): a success writes as many bytes as the
destination has, a raise of the compute phase forgets them.
-/

namespace Sys2Proof.Machine

open Sys2Proof.Safety

theorem keepMemOutside_of_mem_eq {s t : State} (h : t.mem = s.mem) (lo n : Nat) : KeepMemOutside lo n s t :=
  fun a _ => by rw [h]

/-- Storing L samples changes nothing outside 16L bytes. -/
theorem keepMemOutside_writeSamples {s u : State} {c : CIdx} {xs : List Cx} {n : Nat} (hlen : xs.length = n)
    (h : u.mem = writeSamples s.mem c xs) : KeepMemOutside (cbBase c) (16 * n) s u := fun a ha => by
  rw [h, memRead_writeSamples_of_outside _ _ _ _ (hlen ▸ ha)]

/-- Storing n bit bytes changes nothing outside them. -/
theorem keepMemOutside_writeBits {s u : State} {b : BIdx} {bs : List Byte} {n : Nat} (hlen : bs.length = n)
    (h : u.mem = writeBits s.mem b bs) : KeepMemOutside (bbBase b) n s u := fun a ha => by
  rw [h, memRead_writeBits_of_outside _ _ _ _ (hlen ▸ ha)]

/-- Clearing written flags changes nothing outside the bytes. -/
theorem memRead_memForget_of_outside (m : Mem) {lo n a : Nat} (h : a < lo ∨ lo + n ≤ a) :
    memRead (memForget m lo n) a = memRead m a := by
  rw [memRead_memForget, if_neg (by omega)]

/-- Forgetting a destination changes nothing outside it (70_reset_and_hazards R283). -/
theorem memRead_forgetDestination_of_outside (i : Instr) (s : State) {a : Nat}
    (h : a < destBase i ∨ destBase i + destSize s i ≤ a) :
    memRead (forgetDestination i (streamLen s) s.mem) a = memRead s.mem a := by
  cases i with
  | qmap cd _ | mod cd _ | demod cd _ | chan cd _ | detect cd _ => exact memRead_memForget_of_outside s.mem h
  | nop | check | bercnt | papr _ => rfl

@[simp] theorem dropGroup_mem (o : Option ResultGroup) (s : State) : (dropGroup o s).mem = s.mem := by
  rcases o with _ | (_ | _ | _) <;> rfl

/-- A success changes no byte outside the destination: each loop gives as many samples or bytes as it has. -/
theorem Commits.keepMemOutside {i : Instr} {s u : State} (h : Commits s u i) :
    KeepMemOutside (destBase i) (destSize s i) s u := by
  cases i with
  | nop => exact keepMemOutside_of_mem_eq (congrArg State.mem h) _ _
  | check =>
    obtain ⟨-, -, rfl⟩ := h
    exact keepMemOutside_of_mem_eq rfl _ _
  | qmap cd bs =>
    obtain ⟨-, bytes, hread, -, rfl⟩ := h
    exact keepMemOutside_writeSamples (length_mapBits _ _ (length_of_readBits hread)) rfl
  | mod cd cs =>
    obtain ⟨-, xs, ys, -, -, hblocks, rfl⟩ := h
    exact keepMemOutside_writeSamples (shapeBlocks_length (shapeOk_mod _) hblocks) rfl
  | demod cd cs =>
    obtain ⟨-, xs, ys, -, -, hblocks, rfl⟩ := h
    exact keepMemOutside_writeSamples (shapeBlocks_length (shapeOk_demod _) hblocks) rfl
  | chan cd cs =>
    obtain ⟨-, -, xs, ys, hread, -, hnoise, rfl⟩ := h
    exact keepMemOutside_writeSamples ((addNoise_length hnoise).trans (length_of_readSamples hread)) rfl
  | detect bd cs =>
    obtain ⟨-, xs, hread, -, rfl⟩ := h
    have hlen : (decideBits xs).length = 2 * streamLen s := by rw [length_decideBits, length_of_readSamples hread]
    exact keepMemOutside_writeBits hlen rfl
  | bercnt =>
    obtain ⟨-, _, _, -, -, -, -, rfl⟩ := h
    exact keepMemOutside_of_mem_eq rfl _ _
  | papr cs =>
    obtain ⟨-, _, _, -, -, -, rfl⟩ := h
    exact keepMemOutside_of_mem_eq rfl _ _

/-- Settles O37: a raise keeps the buffers or forgets the destination, a success writes it. -/
theorem onlyTheDestinationChanges : Obligations.OnlyTheDestinationChanges := by
  intro i s t h
  rcases exec_cases h with ⟨r, hr⟩ | ⟨u, hu, rfl⟩
  · obtain ⟨m, hm, -, rfl⟩ := raises_state hr
    intro a ha
    rw [finish_mem, dropGroup_mem, commitMem_mem]
    rcases hm with rfl | rfl
    · rfl
    · exact memRead_forgetDestination_of_outside i s ha
  · exact hu.keepMemOutside

end Sys2Proof.Machine
end

section
/-!
PROOF. Registers as they are read (10_state R20, R21, R24) and the interrupt output (10_state R47).
-/

namespace Sys2Proof.Machine

/-! ### The fields of a word -/

theorem getLsbD_of_div_mod {w : Word} {i : Nat} {b : Bool} (h : w.toNat / 2 ^ i % 2 = b.toNat) : w.getLsbD i = b := by
  rw [BitVec.getLsbD, Nat.testBit_eq_decide_div_mod_eq, h]
  cases b <;> rfl

theorem extractLsb'_of_div_mod {w : Word} {i n : Nat} {v : BitVec n} (h : w.toNat / 2 ^ i % 2 ^ n = v.toNat) :
    w.extractLsb' i n = v := by
  rw [← BitVec.toNat_inj, BitVec.extractLsb'_toNat, Nat.shiftRight_eq_div_pow, h]

theorem extractLsb'_eq_zero {w : Word} {i n : Nat} (h : w.toNat / 2 ^ i % 2 ^ n = 0) : w.extractLsb' i n = 0#n :=
  extractLsb'_of_div_mod (h.trans BitVec.toNat_zero.symm)

/-! ### STATUS -/

theorem errCode_le (k : ErrKind) : errCode k ≤ 5 := by
  cases k <;> decide

/-- A field of STATUS fits its bits. -/
theorem status_bounds (st : Status) :
    st.busy.toNat ≤ 1 ∧ st.done.toNat ≤ 1 ∧ st.haz.toNat ≤ 1 ∧ st.paprValid.toNat ≤ 1 ∧ st.berValid.toNat ≤ 1 ∧
      st.varValid.toNat ≤ 1 ∧ errCode st.err ≤ 5 ∧ st.detail.toNat < 16 :=
  ⟨Bool.toNat_le _, Bool.toNat_le _, Bool.toNat_le _, Bool.toNat_le _, Bool.toNat_le _, Bool.toNat_le _,
    errCode_le _, st.detail.isLt⟩

/-- The word of STATUS is the sum of its fields, each at its place: nothing is lost in 64 bits. -/
theorem toNat_statusWord (st : Status) :
    (statusWord st).toNat = st.busy.toNat + 2 * st.done.toNat + 4 * st.haz.toNat + 8 * st.paprValid.toNat +
      16 * st.berValid.toNat + 32 * st.varValid.toNat + 256 * errCode st.err + 65536 * st.detail.toNat := by
  obtain ⟨hbusy, hdone, hhaz, hpapr, hber, hvar, herr, hdetail⟩ := status_bounds st
  rw [statusWord, BitVec.toNat_ofNat, Nat.mod_eq_of_lt (by omega)]

/-- Settles O43: the word is a sum in which every field has its own bits, so that quotient and remainder find it. -/
theorem statusFields : Obligations.StatusFields := by
  intro st
  have hword := toNat_statusWord st
  obtain ⟨hbusy, hdone, hhaz, hpapr, hber, hvar, herr, hdetail⟩ := status_bounds st
  have hcode : (statusWord st).extractLsb' 8 4 = BitVec.ofNat 4 (errCode st.err) :=
    extractLsb'_of_div_mod (by rw [BitVec.toNat_ofNat]; omega)
  refine ⟨getLsbD_of_div_mod ?_, getLsbD_of_div_mod ?_, getLsbD_of_div_mod ?_, getLsbD_of_div_mod ?_,
    getLsbD_of_div_mod ?_, getLsbD_of_div_mod ?_, extractLsb'_eq_zero ?_,
    hcode.trans (by cases st.err <;> rfl), extractLsb'_eq_zero ?_, extractLsb'_of_div_mod ?_, extractLsb'_eq_zero ?_⟩
  all_goals omega

/-! ### Registers -/

/-- A read at the offset of a register is its value, whatever its number in the map (10_state R20). -/
theorem busRead_register (k : Fin 18) (s : State) : busRead (8 * k) 8 s = .data (regValue (regList[k]) s) :=
  busRead_offset (by omega) (List.getElem?_eq_getElem k.isLt) s

/-- Settles O42: the registers by their number, ERR_INDEX by `errIndexRead`, and the offsets past the last register. -/
theorem registerReads : Obligations.RegisterReads := by
  intro s
  have hreg := fun k => busRead_register k s
  refine ⟨hreg 0, hreg 1, hreg 2, hreg 3, hreg 4, hreg 5, hreg 6, hreg 7, hreg 8, hreg 9, hreg 10, hreg 11, hreg 12,
    hreg 13, hreg 14, hreg 15, hreg 16, fun hidle => ?_, fun hbusy => ?_, fun a hlo hhi halign => ?_⟩
  · exact (hreg 17).trans (congrArg _ (errIndexRead_idle hidle))
  · exact (hreg 17).trans (congrArg _ (errIndexRead_busy hbusy))
  · obtain ⟨k, rfl⟩ := Nat.dvd_of_mod_eq_zero halign
    exact busRead_reserved (by omega) (regList_reserved (by omega)) s

/-! ### The interrupt output -/

theorem irq_iff (s : State) : irq s = true ↔ s.status.done = true ∧ s.ie = true := by
  rw [irq, Bool.and_eq_true]

theorem irq_of_not_done {s : State} (h : s.status.done = false) : irq s = false := by
  rw [irq, h, Bool.false_and]

@[simp] theorem irq_finish (k : ErrKind) (d : BitVec 4) (n : Nat) (s : State) : irq (finish k d n s) = s.ie := rfl

@[simp] theorem dropGroup_ie (o : Option ResultGroup) (s : State) : (dropGroup o s).ie = s.ie := by
  rcases o with _ | (_ | _ | _) <;> rfl

theorem CommitsResult.ie_eq {o : Option ResultGroup} {s u : State} (h : CommitsResult s u o) : u.ie = s.ie := by
  rcases o with _ | (_ | _ | _)
  · obtain ⟨_, rfl⟩ := h; rfl
  · obtain ⟨-, _, _, rfl⟩ := h; rfl
  · obtain ⟨-, _, _, -, rfl⟩ := h; rfl
  · obtain ⟨-, _, -, rfl⟩ := h; rfl

/-- A completion raises the level where interrupts are enabled (60_exceptions R260). -/
theorem irq_of_exec {i : Instr} {s t : State} (h : exec i s = .next t) : irq t = s.ie := by
  rcases exec_cases h with ⟨r, hr⟩ | ⟨u, hu, rfl⟩
  · obtain ⟨m, -, -, rfl⟩ := raises_state hr
    simp
  · simpa using hu.result.ie_eq

/-- The write of STATUS that acknowledges a completion clears DONE (40_host_access R117). -/
theorem done_writeStatus {v : Word} (h : v.getLsbD 1 = true) (s : State) : (writeStatus v s).status.done = false := by
  rw [writeStatus, if_pos h]
  split <;> rfl

/-- Settles O53: a completion sets DONE and keeps IE; the acknowledgement and the issue clear DONE. -/
theorem irqIsDoneAndIe : Obligations.IrqIsDoneAndIe := by
  refine ⟨irq_iff, fun i s t => irq_of_exec,
    fun s v => ⟨fun hack => irq_of_not_done ?_, fun hidle => irq_of_not_done ?_⟩⟩
  · rw [busWrite_offset (k := 2) (r := .status) (by omega) rfl]
    exact done_writeStatus hack s
  · rw [busWrite_offset (k := 3) (r := .cmd) (by omega) rfl, regWrite, unlessBusy, hidle]
    rfl

end Sys2Proof.Machine
end

section
/-!
PROOF. Bus transactions (20_memory, 40_host_access): which are admitted, that the others have no effect, and what a read
and a write of the buffers come to.
-/

namespace Sys2Proof.Machine

/-! ### The admission check -/

theorem sizeWf_iff (n : Nat) : sizeWf n = true ↔ n = 1 ∨ n = 2 ∨ n = 4 ∨ n = 8 := by
  simp [sizeWf, or_assoc]

/-- The conditions of the check, one by one (40_host_access R110). -/
theorem admits_iff_checks (a n : Nat) : admits a n = true ↔
    sizeWf n = true ∧ a % n = 0 ∧ a + n ≤ Config.addrSpace ∧ mapped a n = true ∧ (a < 0x1000 → n = 8) := by
  simp [admits, ← inRegisters_iff, and_assoc, imp_iff_not_or]

/-- The bounds of every range are multiples of 8, so that an aligned transaction lies in the range of its first byte. -/
theorem admits_iff (a n : Nat) : admits a n = true ↔ (n = 1 ∨ n = 2 ∨ n = 4 ∨ n = 8) ∧ a % n = 0 ∧
    ((a < 0x001000 ∧ n = 8) ∨ (0x040000 ≤ a ∧ a < 0x150000)) := by
  rw [admits_iff_checks, sizeWf_iff, mapped_iff, Config.addrSpace]
  constructor
  · rintro ⟨hsize, halign, -, hmapped, hregs⟩
    have hfirst := hmapped 0 (by omega)
    exact ⟨hsize, halign, by omega⟩
  · rintro ⟨hsize, halign, hrange⟩
    have hlast : a + n ≤ 0x001000 ∨ 0x040000 ≤ a ∧ a + n ≤ 0x150000 := by
      rcases hsize with rfl | rfl | rfl | rfl <;> omega
    exact ⟨hsize, halign, by omega, fun k hk => by omega, by omega⟩

/-- A read the check refuses is answered BusError (40_host_access R110). -/
theorem busRead_of_refused {a n : Nat} (h : admits a n = false) (s : State) : busRead a n s = .busError := by
  simp [busRead, h]

/-- A write the check refuses changes nothing (20_memory R63). -/
theorem busWrite_of_refused {a n : Nat} (h : admits a n = false) (v : Word) (s : State) : busWrite a n v s = s := by
  simp [busWrite, h]

theorem writeResponse_of_refused {a n : Nat} (h : admits a n = false) : writeResponse a n = .busError := by
  simp [writeResponse, h]

theorem writeResponse_of_admits {a n : Nat} (h : admits a n = true) : writeResponse a n = .done := by
  simp [writeResponse, h]

/-- A read the check admits is answered with data, of a register or of a buffer. -/
theorem exists_busRead_of_admits {a n : Nat} (h : admits a n = true) (s : State) : ∃ w, busRead a n s = .data w := by
  rw [busRead, if_pos h]
  split
  · exact ⟨_, rfl⟩
  · exact ⟨_, rfl⟩

/-- Settles O39: the check is `admits_iff`, and each side of it has its answers. -/
theorem admittedTransactions : Obligations.AdmittedTransactions := by
  intro a n
  refine ⟨admits_iff a n, fun hallowed => ?_, fun hrefused => ?_⟩
  · have hadmits := (admits_iff a n).2 hallowed
    exact ⟨writeResponse_of_admits hadmits, exists_busRead_of_admits hadmits⟩
  · have hadmits : admits a n = false := Bool.eq_false_iff.2 fun h => hrefused ((admits_iff a n).1 h)
    exact ⟨writeResponse_of_refused hadmits,
      fun s => ⟨busRead_of_refused hadmits s, fun v => busWrite_of_refused hadmits v s⟩⟩

/-- Settles O40: a byte outside the ranges fails the check, since every byte of an admitted transaction is mapped. -/
theorem unmappedIsBusError : Obligations.UnmappedIsBusError := by
  intro s a n k v _ hk hunmapped
  have hrefused : admits a n = false := Bool.eq_false_iff.2 fun hadmits => by
    obtain ⟨-, -, -, hmapped, -⟩ := (admits_iff_checks a n).1 hadmits
    have hbyte := (mapped_iff a n).1 hmapped k hk
    omega
  exact ⟨busRead_of_refused hrefused s, writeResponse_of_refused hrefused, busWrite_of_refused hrefused v s⟩

/-! ### Reads at the step -/

/-- The bookkeeping of a Host step is not seen in the registers. -/
theorem regValue_hostTick_inputs (r : Reg) (s : State) (rest : List Input) :
    regValue r (hostTick { s with inputs := rest }) = regValue r s := by
  cases r <;> rfl

/-- Settles O41: the state left is the one after the bookkeeping, and its answers have no part in what is read. -/
theorem readsHaveNoSideEffect : Obligations.ReadsHaveNoSideEffect := by
  intro s a n rest hinputs hnext
  have hstep : step s = .next (performInput (.read a n) (hostTick { s with inputs := rest })) := by
    simp [step, hnext, hostStep_cons hinputs]
  refine ⟨_, hstep, fun r => ?_, rfl, rfl, rfl, rfl, ?_⟩
  · rw [performInput, regValue_answer, regValue_hostTick_inputs]
  · rw [performInput, busRead_answer, answer_responses, hostTick_responses]

/-! ### Bytes of a word -/

/-- Byte k of a little-endian value is the k-th of its bytes (20_memory R61). -/
theorem extractLsb'_wordOf {bs : List Byte} {k : Nat} {b : Byte} (hk : k < 8) (hb : bs[k]? = some b) :
    (wordOf bs).extractLsb' (8 * k) 8 = b := by
  ext i hi
  have hdiv : (8 * k + i) / 8 = k := by omega
  have hmod : (8 * k + i) % 8 = i := by omega
  have hlt : 8 * k + i < 64 := by omega
  rw [BitVec.getElem_extractLsb', getLsbD_wordOf, hdiv, hmod, hb]
  simp [hlt, hi]

/-- A value has no bits past its bytes: a short read is zero-extended (20_memory R61). -/
theorem toNat_wordOf_lt (bs : List Byte) : (wordOf bs).toNat < 2 ^ (8 * bs.length) := by
  refine Nat.lt_pow_two_of_testBit _ fun i hi => ?_
  have hnone : bs[i / 8]? = none := List.getElem?_eq_none (by omega)
  rw [← BitVec.getLsbD, getLsbD_wordOf, hnone, Bool.and_false]

/-! ### Reads and writes of the buffers -/

theorem hostByte_of_written {s : State} {a : Nat} {b : Byte} (hidle : s.status.busy = false)
    (h : memRead s.mem a = some b) : hostByte s a = b := by
  simp [hostByte, hidle, h]

/-- While BUSY = 0 the Host finds the bytes that are stored (40_host_access R111). -/
theorem hostBytes_of_memReadBytes {s : State} (hidle : s.status.busy = false) : ∀ {n a : Nat} {bs : List Byte},
    memReadBytes s.mem a n = some bs → hostBytes s a n = bs := by
  intro n
  induction n with
  | zero =>
    intro a bs h
    exact Option.some.inj h
  | succ n ih =>
    intro a bs h
    rw [memReadBytes] at h
    split at h
    · cases h
    · next b hb =>
      split at h
      · cases h
      · next rest hrest =>
        cases h
        rw [hostBytes, hostByte_of_written hidle hb, ih hrest]

theorem inRegisters_of_buffer {a : Nat} (ha : 0x1000 ≤ a) : inRegisters a = false :=
  Bool.eq_false_iff.2 fun h => absurd ((inRegisters_iff a).1 h) (by omega)

/-- While BUSY = 0 a read of written buffer bytes is their value (40_host_access R111). -/
theorem busRead_buffer {s : State} {a n : Nat} {bs : List Byte} (hidle : s.status.busy = false)
    (hadmits : admits a n = true) (ha : 0x1000 ≤ a) (h : memReadBytes s.mem a n = some bs) :
    busRead a n s = .data (wordOf bs) := by
  simp [busRead, hadmits, inRegisters_of_buffer ha, hostBytes_of_memReadBytes hidle h]

/-- While BUSY = 0 a write of the buffers stores the low bytes of the value (40_host_access R120). -/
theorem busWrite_buffer {s : State} {a n : Nat} (hidle : s.status.busy = false) (hadmits : admits a n = true)
    (ha : 0x1000 ≤ a) (v : Word) : busWrite a n v s = commitMem (memWriteBytes s.mem a (bytesOf n v)) s := by
  simp [busWrite, hadmits, inRegisters_of_buffer ha, bufWrite, unlessBusy, hidle]

theorem regValue_commitMem (r : Reg) (m : Mem) (s : State) : regValue r (commitMem m s) = regValue r s := by
  cases r <;> rfl

/-- Storing a run of bytes changes no byte outside it. -/
theorem memRead_memWriteBytes_of_outside (m : Mem) {a b : Nat} {bs : List Byte} (h : b < a ∨ a + bs.length ≤ b) :
    memRead (memWriteBytes m a bs) b = memRead m b := by
  rw [memRead_memWriteBytes, if_neg (by omega)]

theorem memReadBytes_bytesOf (m : Mem) (a n : Nat) (v : Word) :
    memReadBytes (memWriteBytes m a (bytesOf n v)) a n = some (bytesOf n v) := by
  simpa using memReadBytes_memWriteBytes m a (bytesOf n v)

theorem size_le_of_admits {a n : Nat} (h : admits a n = true) : n ≤ 8 := by
  obtain ⟨hsize, -, -⟩ := (admits_iff a n).1 h
  omega

/-- Settles O52: both halves are about the run of bytes at the address, as it stands and as the write leaves it. -/
theorem bufferWriteThenRead : Obligations.BufferWriteThenRead := by
  refine ⟨fun s a n b hidle hadmits ha hwritten => ?_, fun s a n v hidle hadmits ha => ?_⟩
  · have hbytes : memReadBytes s.mem a n = some ((List.range n).map b) :=
      (memReadBytes_eq_some _ _ _ _).2 ⟨by simp, fun k hk => by simp [hwritten k hk, hk]⟩
    have hn := size_le_of_admits hadmits
    refine ⟨_, busRead_buffer hidle hadmits ha hbytes, fun k hk => ?_, ?_⟩
    · exact extractLsb'_wordOf (by omega) (by simp [hk])
    · simpa using toNat_wordOf_lt ((List.range n).map b)
  · have hbytes := memReadBytes_bytesOf s.mem a n v
    obtain ⟨-, hstored⟩ := (memReadBytes_eq_some _ _ _ _).1 hbytes
    rw [busWrite_buffer hidle hadmits ha]
    refine ⟨?_, fun k hk => ?_, fun c hc => ?_, rfl, fun r => regValue_commitMem r _ s⟩
    · rw [← wordOf_bytesOf]
      exact busRead_buffer hidle hadmits ha hbytes
    · rw [commitMem_mem, hstored k hk, getElem_bytesOf n v k hk]
    · exact memRead_memWriteBytes_of_outside s.mem (by simpa using hc)

end Sys2Proof.Machine
end

section
/-!
PROOF. The decoder takes apart what the encoder puts together (30_encoding R90 to R98). A word that a row accepts is the
row's value where the row's mask is set and the fields CS, CD and BSEL elsewhere, so it is the encoding of the command
the row builds from those fields; and a row is known by its opcode, which every mask leaves whole.
-/

namespace Sys2Proof

/-! ### The fields of a word -/

/-- Masking n bits at a position leaves the field there, in its place. -/
theorem and_fieldMask (w : Word) (pos n : Nat) :
    w &&& (BitVec.ofNat 64 (2 ^ n - 1) <<< pos) = BitVec.ofNat 64 (w.extractLsb' pos n).toNat <<< pos := by
  refine BitVec.eq_of_getLsbD_eq fun i hi => ?_
  simp only [BitVec.getLsbD_and, BitVec.getLsbD_shiftLeft, BitVec.getLsbD_ofNat, Nat.testBit_two_pow_sub_one,
    BitVec.testBit_toNat, BitVec.getLsbD_extractLsb']
  by_cases hlo : i < pos
  · simp [hlo]
  · have hpos : pos + (i - pos) = i := by omega
    simp [hlo, hpos, Bool.and_comm, Bool.and_left_comm, Bool.and_assoc]

theorem and_csMask (w : Word) : w &&& 0x300#64 = cField (csOf w) 8 := and_fieldMask w 8 2

theorem and_cdMask (w : Word) : w &&& 0xC00#64 = cField (cdOf w) 10 := and_fieldMask w 10 2

theorem and_bselMask (w : Word) : w &&& 0x1000#64 = bField (bselOf w) := and_fieldMask w 12 1

/-! ### The rows of the opcode table (30_encoding R92, R93) -/

/-- The nine opcodes, in the order of the rows. -/
theorem opRows_opcodes : opRows.map (fun r => opcOf r.value) =
    [0x00#8, 0x01#8, 0x10#8, 0x20#8, 0x21#8, 0x30#8, 0x40#8, 0x41#8, 0x50#8] := rfl

theorem opcOf_mask {r : OpRow} (hr : r ∈ opRows) : opcOf r.mask = BitVec.allOnes 8 := by
  revert r
  decide

/-- A row accepts only words of its own opcode. -/
theorem opcOf_of_match {r : OpRow} {w : Word} (hr : r ∈ opRows) (hw : w &&& r.mask = r.value) :
    opcOf r.value = opcOf w := by
  have hand : opcOf (w &&& r.mask) = opcOf w &&& opcOf r.mask := BitVec.extractLsb'_and
  rw [← hw, hand, opcOf_mask hr, BitVec.and_allOnes]

/-- No two rows share an opcode. -/
theorem opRow_eq_of_opcOf_eq {r₁ r₂ : OpRow} (h₁ : r₁ ∈ opRows) (h₂ : r₂ ∈ opRows)
    (h : opcOf r₁.value = opcOf r₂.value) : r₁ = r₂ :=
  List.inj_on_of_nodup_map (f := fun r => opcOf r.value) (by decide) h₁ h₂ h

/-- Settles O4: a row accepts only words of its own opcode, and no two rows share one. -/
theorem noWordMatchesTwoRows : Obligations.NoWordMatchesTwoRows := fun _ _ _ h₁ h₂ hw₁ hw₂ =>
  congrArg OpRow.mnemonic (opRow_eq_of_opcOf_eq h₁ h₂ ((opcOf_of_match h₁ hw₁).trans (opcOf_of_match h₂ hw₂).symm))

/-- A word that a row accepts is the encoding of what the row builds: the row's mask and the masks of the fields it
uses cover all 64 bits. -/
theorem encode_build_of_match {r : OpRow} {w : Word} (hr : r ∈ opRows) (hw : w &&& r.mask = r.value) :
    encode (r.build (csOf w) (cdOf w) (bselOf w)) = w := by
  simp only [opRows, List.mem_cons, List.not_mem_nil, or_false] at hr
  rcases hr with rfl | rfl | rfl | rfl | rfl | rfl | rfl | rfl | rfl
  all_goals
    dsimp only at hw ⊢
    simp only [encode, ← and_csMask, ← and_cdMask, ← and_bselMask, ← hw, ← BitVec.and_or_distrib_left]
    exact BitVec.and_allOnes

/-! ### The decoder (30_encoding R97) -/

theorem rowOf_eq_some {w : Word} {r : OpRow} (h : rowOf w = some r) : r ∈ opRows ∧ opcOf r.value = opcOf w :=
  ⟨List.mem_of_find?_eq_some h, by simpa using List.find?_some h⟩

theorem rowOf_eq_none_iff (w : Word) : rowOf w = none ↔ opcOf w ∉ opRows.map (fun r => opcOf r.value) := by
  simp [rowOf]

/-- A word is legal when a row accepts it, as the command the row builds from its fields. -/
theorem exists_match_of_decode_eq_ok {w : Word} {i : Instr} (h : decode w = .ok i) :
    ∃ r ∈ opRows, w &&& r.mask = r.value ∧ r.build (csOf w) (cdOf w) (bselOf w) = i := by
  unfold decode at h
  split at h
  · cases h
  · next r hrow =>
    split at h
    · next hw => exact ⟨r, (rowOf_eq_some hrow).1, hw, Except.ok.inj h⟩
    · cases h

/-- A word is illegal with detail 1 when its opcode is none of the rows' (30_encoding R94). -/
theorem decode_eq_unknownOpcode_iff (w : Word) :
    decode w = .error .unknownOpcode ↔ opcOf w ∉ opRows.map (fun r => opcOf r.value) := by
  rw [← rowOf_eq_none_iff]
  unfold decode
  split
  · next hrow => simp [hrow]
  · next r hrow => split <;> simp [hrow]

/-- Settles O2: the row that accepts the word builds the command, and encoding it gives the word back. -/
theorem legalWordsAreTheEncodings : Obligations.LegalWordsAreTheEncodings := by
  intro w i h
  obtain ⟨r, hr, hw, rfl⟩ := exists_match_of_decode_eq_ok h
  exact (encode_build_of_match hr hw).symm

/-- Settles O1: command by command, the operands have at most 16 values (30_encoding R91), and the decoder runs on the
word of each. -/
theorem decodeOfEncodeIsTheCommand : Obligations.DecodeOfEncodeIsTheCommand := by
  intro i
  cases i with
  | nop | check | bercnt => decide
  | qmap cd bs => revert cd bs; decide
  | mod cd cs | demod cd cs | chan cd cs => revert cd cs; decide
  | detect bd cs => revert bd cs; decide
  | papr cs => revert cs; decide

/-- Settles O3: the decoder runs on each of the words. -/
theorem wordsOfTheSpecDecode : Obligations.WordsOfTheSpecDecode := by
  unfold Obligations.WordsOfTheSpecDecode
  decide

end Sys2Proof
end

section
/-!
PROOF. Illegal words: the Host issues them like any other, and the Engine completes them with IllegalCommand
(30_encoding R94, R95).
-/

namespace Sys2Proof.Machine

open Sys2Proof.Safety

theorem regWrite_cmd_of_idle {s : State} (hidle : s.status.busy = false) (w : Word) :
    regWrite .cmd w s = issue w s := by
  simp [regWrite, unlessBusy, hidle]

/-- Where the Engine is next, the step is its completion step (60_exceptions R256). -/
theorem step_eq_engineStep {s : State} (hbusy : s.status.busy = true) (hnext : s.patience = 0 ∨ s.inputs = []) :
    step s = engineStep s := by
  have hengine : engineNext s = true := by simpa [engineNext, hbusy] using hnext
  rw [step, if_pos hengine]

theorem engineStep_of_decode_error {s : State} {k : Illegal} (h : decode s.cmd = .error k) :
    engineStep s = .next (illegalCommand k s) := by
  simp only [engineStep, h]

/-- The writes of a completion touch no buffer, no result register and no VALID bit. -/
theorem raisesOnly_raised (r : Raise) (s : State) : RaisesOnly r.kind r.detail r.index s (raised r s) := by
  simp [RaisesOnly, Finished, KeepResults, SameSetup, KeepVar, SameVar, KeepPapr, SamePapr, KeepBer, SameBer, KeepCtr,
    KeepMem]

/-- An opcode of the table in a word that encodes nothing leaves the reserved fields as the reason (30_encoding R94). -/
theorem decode_eq_reservedField {w : Word} (hopc : opcOf w ∈ opRows.map (fun r => opcOf r.value))
    (hw : ∀ i, encode i ≠ w) : decode w = .error .reservedField := by
  cases h : decode w with
  | ok i => exact absurd (legalWordsAreTheEncodings w i h).symm (hw i)
  | error k =>
    cases k with
    | unknownOpcode => exact absurd hopc ((decode_eq_unknownOpcode_iff w).1 h)
    | reservedField => rfl

/-- Settles O5: an idle block issues every word, and the decoder's reason for an illegal one is what it raises. -/
theorem illegalWordsCompleteWithTheError : Obligations.IllegalWordsCompleteWithTheError := by
  rw [Obligations.IllegalWordsCompleteWithTheError, ← opRows_opcodes]
  refine ⟨fun s w hidle => ?_, fun s hbusy hnext => ⟨fun hopc => ?_, fun hopc hw => ?_⟩⟩
  · rw [regWrite_cmd_of_idle hidle]
    exact ⟨rfl, rfl⟩
  · have hdecode := (decode_eq_unknownOpcode_iff s.cmd).2 hopc
    rw [step_eq_engineStep hbusy hnext, engineStep_of_decode_error hdecode]
    exact ⟨_, rfl, raisesOnly_raised _ s⟩
  · rw [step_eq_engineStep hbusy hnext, engineStep_of_decode_error (decode_eq_reservedField hopc hw)]
    exact ⟨_, rfl, raisesOnly_raised _ s⟩

end Sys2Proof.Machine
end

section
/-!
PROOF. Register writes (40_host_access R113 to R118): which state the write at each offset of the map leaves. The soft
reset forgets a destination exactly when the command it abandons is legal and its configuration valid
(70_reset_and_hazards R283).
-/

namespace Sys2Proof.Machine

open Sys2Proof.Safety

/-- A write at the offset of a register is that register's write, whatever its number in the map (10_state R20). -/
theorem busWrite_register (k : Fin 18) (v : Word) (s : State) : busWrite (8 * k) 8 v s = regWrite (regList[k]) v s :=
  busWrite_offset (by omega) (List.getElem?_eq_getElem k.isLt) v s

/-! ### Read-only registers and reserved offsets -/

/-- ID, and the registers from NOISE_CTR on, ignore writes (40_host_access R113). -/
theorem regWrite_of_readOnly {k : Nat} {r : Reg} (hk : k = 0 ∨ 9 ≤ k) (hr : regList[k]? = some r) (v : Word)
    (s : State) : regWrite r v s = s := by
  obtain ⟨(hlt : k < 18), rfl⟩ := List.getElem?_eq_some_iff.1 hr
  rcases hk with rfl | hk
  · rfl
  · interval_cases k <;> rfl

/-- Settles O45: the offset's number in the map is that of a read-only register or of none. -/
theorem readOnlyWritesAreIgnored : Obligations.ReadOnlyWritesAreIgnored := by
  intro s a v ha
  obtain ⟨k, rfl⟩ := Nat.dvd_of_mod_eq_zero (show a % 8 = 0 by omega)
  have hk : k < 512 := by omega
  refine ⟨writeResponse_of_admits (admits_offset hk), ?_⟩
  cases hr : regList[k]? with
  | none => exact busWrite_reserved hk hr v s
  | some r => exact (busWrite_offset hk hr v s).trans (regWrite_of_readOnly (by omega) hr v s)

/-! ### Registers that are refused while BUSY -/

theorem unlessBusy_of_idle {s : State} (hidle : s.status.busy = false) (s' : State) : unlessBusy s s' = s' := by
  simp [unlessBusy, hidle]

theorem unlessBusy_of_busy {s : State} (hbusy : s.status.busy = true) (s' : State) :
    unlessBusy s s' = refuseWrite s := by
  simp [unlessBusy, hbusy]

/-- Settles O46: the five registers by their number; while idle nothing refuses the write. -/
theorem configurationWrites : Obligations.ConfigurationWrites := by
  intro s v hidle
  have hwrite := fun k => busWrite_register k v s
  exact ⟨(hwrite 4).trans (unlessBusy_of_idle hidle _), (hwrite 5).trans (unlessBusy_of_idle hidle _),
    (hwrite 6).trans (unlessBusy_of_idle hidle _), (hwrite 7).trans (unlessBusy_of_idle hidle _),
    (hwrite 8).trans (unlessBusy_of_idle hidle _)⟩

/-- An issue is seen in CMD and STATUS only (40_host_access R116). -/
theorem regValue_issue {r : Reg} {s : State} (hcmd : r ≠ .cmd) (hstatus : r ≠ .status) (w : Word)
    (hidle : s.status.busy = false) : regValue r (issue w s) = regValue r s := by
  cases r with
  | cmd => exact absurd rfl hcmd
  | status => exact absurd rfl hstatus
  | errIndex => exact errIndexRead_issue w hidle
  | _ => rfl

/-- Settles O47: a busy block refuses the write, an idle one issues the word. -/
theorem cmdWriteIssues : Obligations.CmdWriteIssues := by
  intro s v
  have hwrite : busWrite 0x018 8 v s = unlessBusy s (issue v s) := busWrite_register 3 v s
  refine ⟨fun hbusy => hwrite.trans (unlessBusy_of_busy hbusy _), fun hidle => ?_⟩
  rw [hwrite, unlessBusy_of_idle hidle]
  exact ⟨rfl, irq_of_not_done rfl, rfl, rfl, rfl, fun _ hcmd hstatus => regValue_issue hcmd hstatus v hidle,
    rfl, rfl⟩

/-! ### STATUS and CTRL -/

/-- Each of the two bits clears its own flag (40_host_access R117). -/
theorem writeStatus_eq (v : Word) (s : State) : writeStatus v s = { s with
    status := { s.status with done := s.status.done && !v.getLsbD 1, haz := s.status.haz && !v.getLsbD 2 } } := by
  unfold writeStatus
  cases v.getLsbD 1 <;> cases v.getLsbD 2 <;> simp [acknowledge, clearHaz]

/-- Settles O48: STATUS is register 2, and its write is not refused while BUSY. -/
theorem statusWriteClears : Obligations.StatusWriteClears := fun s v =>
  (busWrite_register 2 v s).trans (writeStatus_eq v s)

theorem writeCtrl_of_set {v : Word} (hv : v.getLsbD 1 = true) (s : State) : writeCtrl v s = softReset s :=
  if_pos hv

theorem writeCtrl_of_clear {v : Word} (hv : v.getLsbD 1 = false) (s : State) :
    writeCtrl v s = { s with ie := v.getLsbD 0 } :=
  if_neg (Bool.eq_false_iff.1 hv)

/-- Settles O49: CTRL is register 1; without SRST its write stores IE. -/
theorem ctrlWriteSetsIe : Obligations.CtrlWriteSetsIe := fun s v hv =>
  (busWrite_register 1 v s).trans (writeCtrl_of_clear hv s)

/-! ### The soft reset -/

theorem regValue_softReset (r : Reg) (s : State) : regValue r (softReset s) = regValue r State.reset := by
  cases r <;> rfl

theorem abandonedMem_of_idle {s : State} (hidle : s.status.busy = false) : abandonedMem s = s.mem := by
  simp [abandonedMem, hidle]

/-- A legal command abandoned under a valid configuration loses its destination (70_reset_and_hazards R283). -/
theorem abandonedMem_of_legal {s : State} {i : Instr} (hbusy : s.status.busy = true) (hi : decode s.cmd = .ok i)
    (hcfg : CfgValid s) : abandonedMem s = forgetDestination i (streamLen s) s.mem := by
  simp [abandonedMem, hbusy, hi, (cfgFailure_eq_none_iff s).2 hcfg]

/-- An illegal word and an invalid configuration have no destination (log 9). -/
theorem abandonedMem_of_illegal {s : State} (h : (∀ i, decode s.cmd ≠ .ok i) ∨ ¬ CfgValid s) :
    abandonedMem s = s.mem := by
  unfold abandonedMem
  split
  · split
    · rfl
    · next i hi => exact if_neg fun hcfg => h.elim (· i hi) (· ((cfgFailure_eq_none_iff s).1 hcfg))
  · rfl

/-- A forgotten destination is unspecified in every byte (70_reset_and_hazards R283). -/
theorem memRead_forgetDestination_of_inside (i : Instr) (s : State) {a : Nat} (hlo : destBase i ≤ a)
    (hhi : a < destBase i + destSize s i) : memRead (forgetDestination i (streamLen s) s.mem) a = none := by
  cases i with
  | qmap cd _ | mod cd _ | demod cd _ | chan cd _ | detect cd _ =>
    exact (memRead_memForget s.mem _ _ a).trans (if_pos ⟨hlo, hhi⟩)
  | nop | check | bercnt | papr _ => exact absurd hlo (Nat.not_le.2 hhi)

theorem keepMem_of_mem_eq {s t : State} (h : t.mem = s.mem) : KeepMem s t := fun a => by rw [h]

/-- Settles O50: the registers are those of the reset, the buffers those of `abandonedMem`, case by case. -/
theorem softResetAbandonsTheCommand : Obligations.SoftResetAbandonsTheCommand := by
  intro s v hv
  have hreset : busWrite 0x008 8 v s = softReset s := (busWrite_register 1 v s).trans (writeCtrl_of_set hv s)
  rw [hreset]
  refine ⟨fun r => regValue_softReset r s, rfl, fun hidle => keepMem_of_mem_eq (abandonedMem_of_idle hidle),
    fun hbusy i hi hcfg => ?_, fun _ h => keepMem_of_mem_eq (abandonedMem_of_illegal h)⟩
  have hmem : (softReset s).mem = forgetDestination i (streamLen s) s.mem := abandonedMem_of_legal hbusy hi hcfg
  refine ⟨fun a hlo hhi => ?_, fun a ha => ?_⟩
  · rw [hmem, memRead_forgetDestination_of_inside i s hlo hhi]
  · rw [hmem, memRead_forgetDestination_of_outside i s ha]

end Sys2Proof.Machine
end

section
/-!
PROOF. NOP and the configuration check (41_control_commands R140, R143): the check decides before the command of the
word does, so that its error is one raise for every command but NOP, and past it no command raises its error.
-/

namespace Sys2Proof.Machine

open Sys2Proof.Safety

/-! ### NOP -/

/-- NOP is the only command whose word has opcode 0 (30_encoding R92). -/
theorem eq_nop_of_opcOf_encode {i : Instr} (h : opcOf (encode i) = 0x00#8) : i = .nop := by
  cases i with
  | nop => rfl
  | check | bercnt => exact absurd h (by decide)
  | qmap cd c | mod cd c | demod cd c | chan cd c | detect cd c => revert cd c; decide
  | papr cs => revert cs; decide

theorem encode_nop : encode .nop = 0#64 := by decide

/-- The writes of a success without a result touch no buffer, no result register and no VALID bit. -/
theorem completed_frame (s : State) :
    Finished .noError 0#4 0 s (completed s) ∧ KeepResults s (completed s) ∧ KeepCtr s (completed s) ∧
      KeepMem s (completed s) :=
  raisesOnly_raised ⟨.noError, 0#4, 0⟩ s

/-- Settles O10: the opcode of NOP in any word but its own is a reserved-field error, by O5. -/
theorem nopCompletes : Obligations.NopCompletes := by
  refine ⟨encode_nop, fun s hbusy hnext hopc hcmd => ?_, fun s => ⟨completed s, rfl, completed_frame s⟩⟩
  have hillegal : ∀ i, encode i ≠ s.cmd := fun i hi => by
    obtain rfl : i = .nop := eq_nop_of_opcOf_encode (hi ▸ hopc)
    exact hcmd (hi.symm.trans encode_nop)
  exact (illegalWordsCompleteWithTheError.2 s hbusy hnext).2 (by simp [hopc]) hillegal

/-! ### The four checks, in order -/

theorem notPow2_eq_true_iff (n : Word) : notPow2 n = true ↔ ∀ k, n.toNat ≠ 2 ^ k := by
  rw [← Bool.not_eq_false, notPow2_eq_false_iff, not_exists]

theorem cfgFailure_of_nsub {s : State} (hn : ∀ k, s.cfgNsub.toNat ≠ 2 ^ k) : cfgFailure s = some 1#4 :=
  if_pos ((notPow2_eq_true_iff _).2 hn)

section
variable {s : State} (hn : ∃ k, s.cfgNsub.toNat = 2 ^ k)
include hn

theorem cfgFailure_of_wavelet (hw : 5 < s.cfgWavelet.toNat) : cfgFailure s = some 2#4 := by
  simp [cfgFailure, (notPow2_eq_false_iff _).2 hn, hw]

theorem cfgFailure_of_nsym (hw : s.cfgWavelet.toNat ≤ 5) (hs : s.cfgNsym.toNat = 0) : cfgFailure s = some 3#4 := by
  have hzero : s.cfgNsym = 0#64 := BitVec.eq_of_toNat_eq hs
  simp [cfgFailure, (notPow2_eq_false_iff _).2 hn, hw.not_gt, hzero]

theorem cfgFailure_of_product (hw : s.cfgWavelet.toNat ≤ 5) (hs : s.cfgNsym.toNat ≠ 0)
    (hl : 16384 < s.cfgNsub.toNat * s.cfgNsym.toNat) : cfgFailure s = some 4#4 := by
  have hnonzero : s.cfgNsym ≠ 0#64 := fun h => hs (by rw [h]; rfl)
  simp [cfgFailure, (notPow2_eq_false_iff _).2 hn, hw.not_gt, hnonzero, Config.maxSamples, hl]

end

/-! ### A configuration that fails -/

/-- Clearing a VALID bit writes no register but STATUS, no buffer and no HAZ (60_exceptions R254). -/
theorem dropGroup_frame (o : Option ResultGroup) (s : State) :
    (dropGroup o s).status.haz = s.status.haz ∧ SameSetup s (dropGroup o s) ∧ SameVar s (dropGroup o s) ∧
      SamePapr s (dropGroup o s) ∧ SameBer s (dropGroup o s) ∧ KeepCtr s (dropGroup o s) ∧
      KeepMem s (dropGroup o s) := by
  rcases o with _ | (_ | _ | _) <;>
    simp [dropGroup, SameSetup, SameVar, SamePapr, SameBer, KeepCtr, KeepMem]

/-- Every command but NOP is behind the configuration check. -/
theorem exec_of_cfgFailure {i : Instr} {s : State} {d : BitVec 4} (hi : i ≠ .nop) (h : cfgFailure s = some d) :
    exec i s = .next (raised ⟨.configuration, d, 0⟩ (dropGroup (ownGroup i) s)) := by
  rw [← dropOf_eq_dropGroup]
  cases i with
  | nop => exact absurd rfl hi
  | check | qmap _ _ | mod _ _ | demod _ _ | chan _ _ | detect _ _ | bercnt | papr _ => exact withCfg_of_failure h _ _

/-- The raise of the configuration check touches no buffer, no result register and no counter. -/
theorem exec_of_cfgFailure_frame {i : Instr} {s : State} {d : BitVec 4} (hi : i ≠ .nop) (h : cfgFailure s = some d) :
    ∃ t, exec i s = .next t ∧ Finished .configuration d 0 s t ∧ SameSetup s t ∧ SameVar s t ∧ SamePapr s t ∧
      SameBer s t ∧ KeepCtr s t ∧ KeepMem s t := by
  obtain ⟨hhaz, hframe⟩ := dropGroup_frame (ownGroup i) s
  exact ⟨_, exec_of_cfgFailure hi h, ⟨rfl, rfl, hhaz, rfl, rfl, rfl⟩, hframe⟩

/-! ### A configuration that passes -/

/-- No next state of the outcome reports a ConfigurationError. -/
def PassesCfg (o : Host.Outcome State Fault Refusal) : Prop := ∀ t, o = .next t → t.status.err ≠ .configuration

theorem passesCfg_next {t : State} (h : t.status.err ≠ .configuration) : PassesCfg (.next t) := by
  rintro _ ⟨⟩
  exact h

theorem passesCfg_raised {r : Raise} (h : r.kind ≠ .configuration) (s : State) : PassesCfg (.next (raised r s)) :=
  passesCfg_next h

theorem passesCfg_completed (s : State) : PassesCfg (.next (completed s)) := passesCfg_next ErrKind.noConfusion

theorem passesCfg_fault (f : Fault) : PassesCfg (.fault f) := by simp [PassesCfg]

theorem passesCfg_withSamples {perform : List Cx → Host.Outcome State Fault Refusal} (h : ∀ xs, PassesCfg (perform xs))
    (c : CIdx) (len : Nat) (s : State) : PassesCfg (withSamples c len s perform) := by
  rcases withSamples_cases c len s perform with ⟨-, he⟩ | ⟨xs, -, he⟩ <;> rw [he]
  · exact passesCfg_fault _
  · exact h xs

theorem passesCfg_withBits {perform : List Byte → Host.Outcome State Fault Refusal} (h : ∀ bs, PassesCfg (perform bs))
    (b : BIdx) (n : Nat) (s : State) : PassesCfg (withBits b n s perform) := by
  rcases withBits_cases b n s perform with ⟨-, he⟩ | ⟨bs, -, he⟩ <;> rw [he]
  · exact passesCfg_fault _
  · exact h bs

theorem passesCfg_shapeResult {shape : List Cx → Nat → Except Raise (List Cx)} {m : Nat} (hshape : ShapeOk shape m)
    (cfg : Cfg) (cd : CIdx) (xs : List Cx) (s : State) : PassesCfg (.next (shapeResult shape cfg cd xs s)) := by
  rcases shapeResult_cases shape cfg cd xs s with ⟨_, -, hr⟩ | ⟨-, ⟨r, herr, hr⟩ | ⟨_, -, hr⟩⟩ <;> rw [hr]
  · exact passesCfg_raised ErrKind.noConfusion _
  · exact passesCfg_raised (by simp [(shapeBlocks_error hshape herr).1]) _
  · exact passesCfg_completed _

theorem passesCfg_chanResult (cfg : Cfg) (cd : CIdx) (var : F64) (xs : List Cx) (s : State) :
    PassesCfg (.next (chanResult cfg cd var xs s)) := by
  rcases chanResult_cases cfg cd var xs s with ⟨_, -, hr⟩ | ⟨-, ⟨r, herr, hr⟩ | ⟨_, -, hr⟩⟩ <;> rw [hr]
  · exact passesCfg_raised ErrKind.noConfusion _
  · exact passesCfg_raised (by simp [(addNoise_error herr).1]) _
  · exact passesCfg_completed _

theorem passesCfg_paprResult (xs : List Cx) (len : Nat) (s : State) : PassesCfg (.next (paprResult xs len s)) := by
  rcases paprResult_cases xs len s with ⟨_, -, hr⟩ | ⟨-, ⟨r, herr, hr⟩ | ⟨_, -, hr⟩⟩ <;> rw [hr]
  · exact passesCfg_raised ErrKind.noConfusion _
  · exact passesCfg_raised (by simp [(paprOf_error herr).1]) _
  · exact passesCfg_completed _

theorem passesCfg_qmapResult (cd : CIdx) (bs : List Byte) (s : State) : PassesCfg (.next (qmapResult cd bs s)) := by
  rcases qmapResult_cases cd bs s with ⟨_, -, hr⟩ | ⟨-, hr⟩ <;> rw [hr]
  · exact passesCfg_raised ErrKind.noConfusion _
  · exact passesCfg_completed _

theorem passesCfg_detectResult (bd : BIdx) (xs : List Cx) (s : State) :
    PassesCfg (.next (detectResult bd xs s)) := by
  rcases detectResult_cases bd xs s with ⟨_, -, hr⟩ | ⟨-, hr⟩ <;> rw [hr]
  · exact passesCfg_raised ErrKind.noConfusion _
  · exact passesCfg_completed _

theorem passesCfg_bercntResult (v u : List Byte) (total : Nat) (s : State) :
    PassesCfg (.next (bercntResult v u total s)) := by
  rcases bercntResult_cases v u total s with ⟨_, -, hr⟩ | ⟨-, _, -, hr⟩ | ⟨-, -, hr⟩ <;> rw [hr]
  · exact passesCfg_raised ErrKind.noConfusion _
  · exact passesCfg_raised ErrKind.noConfusion _
  · exact passesCfg_completed _

theorem passesCfg_checkResult (cfg : Cfg) (s : State) : PassesCfg (.next (checkResult cfg s)) := by
  rcases noiseVariance_cases cfg s with ⟨-, -, hvar⟩ | ⟨-, hvar⟩ <;> rw [checkResult, hvar]
  · exact passesCfg_completed _
  · exact passesCfg_raised ErrKind.noConfusion _

theorem passesCfg_chanPerform (cd cs : CIdx) (s : State) (cfg : Cfg) : PassesCfg (chanPerform cd cs s cfg) := by
  rcases noiseVariance_cases cfg s with ⟨-, -, hvar⟩ | ⟨-, hvar⟩ <;> rw [chanPerform, hvar]
  · exact passesCfg_withSamples (passesCfg_chanResult cfg cd _ · s) _ _ _
  · exact passesCfg_raised ErrKind.noConfusion _

theorem passesCfg_withCfg {s : State} (hcfg : CfgValid s) {perform : Cfg → Host.Outcome State Fault Refusal}
    (h : ∀ cfg, PassesCfg (perform cfg)) (drop : State → State) : PassesCfg (withCfg drop s perform) := by
  rw [withCfg_of_valid hcfg]
  exact h _

/-- Under a valid configuration no command raises a ConfigurationError. -/
theorem passesCfg_exec {s : State} (hcfg : CfgValid s) (i : Instr) : PassesCfg (exec i s) := by
  cases i with
  | nop => exact passesCfg_completed s
  | check => exact passesCfg_withCfg hcfg (passesCfg_checkResult · s) _
  | qmap cd bs =>
    exact passesCfg_withCfg hcfg (fun _ => passesCfg_withBits (passesCfg_qmapResult cd · s) _ _ _) _
  | mod cd cs =>
    exact passesCfg_withCfg hcfg
      (fun cfg => passesCfg_withSamples (passesCfg_shapeResult (shapeOk_mod cfg) cfg cd · s) _ _ _) _
  | demod cd cs =>
    exact passesCfg_withCfg hcfg
      (fun cfg => passesCfg_withSamples (passesCfg_shapeResult (shapeOk_demod cfg) cfg cd · s) _ _ _) _
  | chan cd cs => exact passesCfg_withCfg hcfg (passesCfg_chanPerform cd cs s) _
  | detect bd cs =>
    exact passesCfg_withCfg hcfg (fun _ => passesCfg_withSamples (passesCfg_detectResult bd · s) _ _ _) _
  | bercnt =>
    exact passesCfg_withCfg hcfg (fun _ => passesCfg_withBits (fun v =>
      passesCfg_withBits (passesCfg_bercntResult v · _ s) _ _ _) _ _ _) _
  | papr cs =>
    exact passesCfg_withCfg hcfg (fun _ => passesCfg_withSamples (passesCfg_paprResult · _ s) _ _ _) _

/-- Settles O11: each case decides `cfgFailure`, and with it the command. -/
theorem configurationErrors : Obligations.ConfigurationErrors := fun _ i hi =>
  ⟨fun hn => exec_of_cfgFailure_frame hi (cfgFailure_of_nsub hn),
    fun hn hw => exec_of_cfgFailure_frame hi (cfgFailure_of_wavelet hn hw),
    fun hn hw hs => exec_of_cfgFailure_frame hi (cfgFailure_of_nsym hn hw hs),
    fun hn hw hs hl => exec_of_cfgFailure_frame hi (cfgFailure_of_product hn hw hs hl),
    fun hcfg => passesCfg_exec hcfg i⟩

end Sys2Proof.Machine
end

section
/-!
PROOF. The QPSK mapper (42_qpsk_map): its samples are the constellation points of the bits, its bit source is scanned as
BERCNT's is, and the detector inverts it.
-/

namespace Sys2Proof.Machine

open Sys2Proof.Safety

/-! ### Bits and their constellation points -/

theorem bitByte_iff (b : Byte) : bitByte b = true ↔ b = 0#8 ∨ b = 1#8 := by
  simp [bitByte]

/-- The mapper's arithmetic gives -1.0 for a 0 and 1.0 for a 1 (42_qpsk_map R150, R152). -/
theorem mapBit_eq_symbolWord {b : Byte} (h : bitByte b = true) : mapBit b = symbolWord b := by
  rcases (bitByte_iff b).1 h with rfl | rfl <;> decide +kernel

theorem isFinite_symbolWord (b : Byte) : isFinite (unpack (symbolWord b)) = true := by
  unfold symbolWord
  split <;> rfl

/-- The detector decides the component of a bit for that bit (45_detection R211). -/
theorem decideBit_mapBit {b : Byte} (h : bitByte b = true) : decideBit (mapBit b) = b := by
  rw [mapBit_eq_symbolWord h]
  rcases (bitByte_iff b).1 h with rfl | rfl <;> decide

/-! ### A block of bits and its samples -/

/-- Bytes 2i and 2i+1 give sample i (42_qpsk_map R150). -/
theorem getElem?_mapBits : ∀ (bs : List Byte) (i : Nat) {b0 b1 : Byte}, bs[2 * i]? = some b0 →
    bs[2 * i + 1]? = some b1 → (mapBits bs)[i]? = some ⟨mapBit b0, mapBit b1⟩
  | [], _, _, _, h0, _ => by simp at h0
  | [_], _, _, _, _, h1 => by simp at h1
  | _ :: _ :: _, 0, _, _, h0, h1 => by
    cases h0
    cases h1
    rfl
  | _ :: _ :: rest, i + 1, _, _, h0, h1 => getElem?_mapBits rest i h0 h1

theorem cxFinite_mapBits : ∀ {bs : List Byte}, (∀ b ∈ bs, bitByte b = true) →
    ∀ x ∈ mapBits bs, cxFinite x = true
  | [], _ => by simp [mapBits]
  | [_], _ => by simp [mapBits]
  | b0 :: b1 :: rest, h => by
    simp only [List.forall_mem_cons] at h
    obtain ⟨h0, h1, hrest⟩ := h
    rw [mapBits, List.forall_mem_cons]
    refine ⟨?_, cxFinite_mapBits hrest⟩
    simp [cxFinite, mapBit_eq_symbolWord h0, mapBit_eq_symbolWord h1, isFinite_symbolWord]

/-- Every pair of bits comes back from its sample (42_qpsk_map R153). -/
theorem decideBits_mapBits : ∀ {bs : List Byte}, Even bs.length → (∀ b ∈ bs, bitByte b = true) →
    decideBits (mapBits bs) = bs
  | [], _, _ => rfl
  | [_], heven, _ => absurd heven (by simp)
  | b0 :: b1 :: rest, heven, h => by
    simp only [List.forall_mem_cons] at h
    obtain ⟨h0, h1, hrest⟩ := h
    have ih : decideBits (mapBits rest) = rest :=
      decideBits_mapBits (by simpa [Nat.even_add_one] using heven) hrest
    rw [decideBits] at ih
    rw [mapBits, decideBits, List.flatMap_cons, ih, decideBit_mapBit h0, decideBit_mapBit h1]
    rfl

/-! ### The scan of a bit source (42_qpsk_map R151) -/

theorem forall_bitByte_map_range {n : Nat} {v : Nat → Byte} (h : ∀ j < n, v j = 0#8 ∨ v j = 1#8) :
    ∀ b ∈ (List.range n).map v, bitByte b = true := by
  simpa [bitByte_iff] using h

theorem scanBits_of_first_bad {n j : Nat} {v : Nat → Byte} (hj : j < n) (h0 : v j ≠ 0#8) (h1 : v j ≠ 1#8)
    (hbefore : ∀ k < j, v k = 0#8 ∨ v k = 1#8) :
    scanBits ((List.range n).map v) = .error ⟨.bitValue, 1#4, j⟩ := by
  have hfirst : firstBadBit ((List.range n).map v) 0 = some j := by
    refine (firstBadBit_eq_some_iff _ _ _).2 ⟨j, v j, by omega, by simp [hj], by simp [bitByte, h0, h1], ?_⟩
    intro k hk y hy
    obtain rfl : v k = y := by simpa [hk.trans hj] using hy
    exact (bitByte_iff _).2 (hbefore k hk)
  rw [scanBits, hfirst]

/-! ### Commands on written sources -/

theorem exec_qmap_of_holds {s : State} {b : BIdx} {v : Nat → Byte} (hcfg : CfgValid s) (hv : HoldsBits s b v)
    (c : CIdx) : exec (.qmap c b) s = .next (qmapResult c ((List.range (2 * streamLen s)).map v) s) := by
  rw [exec, execQmap, withCfg_of_valid hcfg, cfgLen_cfgOf, withBits_of_holds hv]

theorem exec_bercnt_of_holds {s : State} {v u : Nat → Byte} (hcfg : CfgValid s) (hv : HoldsBits s 0 v)
    (hu : HoldsBits s 1 u) : exec .bercnt s = .next (bercntResult ((List.range (2 * streamLen s)).map v)
      ((List.range (2 * streamLen s)).map u) (2 * streamLen s) s) := by
  rw [exec, execBercnt, withCfg_of_valid hcfg, cfgLen_cfgOf, withBits_of_holds hv, withBits_of_holds hu]

/-- DETECT of finite samples stored in its source stores the decisions on them (45_detection R210). -/
theorem exec_detect_of_writeSamples {s : State} {c : CIdx} {m : Mem} {xs : List Cx} (hcfg : CfgValid s)
    (hmem : s.mem = writeSamples m c xs) (hlen : xs.length = streamLen s) (hfin : ∀ x ∈ xs, cxFinite x = true)
    (b : BIdx) : exec (.detect b c) s = .next (completed (commitMem (writeBits s.mem b (decideBits xs)) s)) := by
  have hread : readSamples s.mem c (streamLen s) = some xs := by rw [hmem, ← hlen, readSamples_writeSamples]
  rw [exec, execDetect, withCfg_of_valid hcfg, cfgLen_cfgOf, withSamples, hread]
  simp only [detectResult, (scanSamples_ok_iff xs).2 hfin]

theorem exec_qmap_of_bits {s : State} {b : BIdx} {v : Nat → Byte} (hcfg : CfgValid s) (hv : HoldsBits s b v)
    (hbits : ∀ j < 2 * streamLen s, v j = 0#8 ∨ v j = 1#8) (c : CIdx) : exec (.qmap c b) s =
      .next (completed (commitMem (writeSamples s.mem c (mapBits ((List.range (2 * streamLen s)).map v))) s)) := by
  rw [exec_qmap_of_holds hcfg hv, qmapResult, (scanBits_ok_iff _).2 (forall_bitByte_map_range hbits)]

/-! ### What a success and a raise leave -/

theorem sampleAt_of_writeSamples {t : State} {c : CIdx} {m : Mem} {xs : List Cx} (h : t.mem = writeSamples m c xs)
    {i : Nat} (hi : i < xs.length) : sampleAt t c i = xs[i]? := by
  rw [sampleAt, h]
  exact memReadCx_samplesBytes xs m _ i hi

theorem bitAt_of_writeBits {t : State} {b : BIdx} {m : Mem} {bs : List Byte} (h : t.mem = writeBits m b bs)
    {j : Nat} (hj : j < bs.length) : bitAt t b j = bs[j]? := by
  obtain ⟨-, hread⟩ := (readBits_eq_some _ _ _ _).1 (readBits_writeBits m b bs)
  rw [bitAt, h]
  exact hread j hj

/-- A success that stores into the buffers keeps every result register, VALID bit and NOISE_CTR (60_exceptions R255). -/
theorem completed_commitMem_frame (m : Mem) (s : State) : Finished .noError 0#4 0 s (completed (commitMem m s)) ∧
    KeepResults s (completed (commitMem m s)) ∧ KeepCtr s (completed (commitMem m s)) := by
  obtain ⟨hfin, hresults, hctr, -⟩ := completed_frame (commitMem m s)
  exact ⟨hfin, hresults, hctr⟩

/-- A raise of BERCNT keeps everything but the completion fields and BER_VALID, which it clears (60_exceptions R254). -/
theorem raised_dropBer_frame (r : Raise) (s : State) :
    Finished r.kind r.detail r.index s (raised r (dropBer s)) ∧ SameSetup s (raised r (dropBer s)) ∧
      KeepVar s (raised r (dropBer s)) ∧ KeepPapr s (raised r (dropBer s)) ∧ SameBer s (raised r (dropBer s)) ∧
      (raised r (dropBer s)).status.berValid = false ∧ KeepCtr s (raised r (dropBer s)) ∧
      KeepMem s (raised r (dropBer s)) := by
  obtain ⟨hfin, ⟨hsetup, hvar, hpapr, hber, hvalid⟩, hctr, hmem⟩ := raisesOnly_raised r (dropBer s)
  exact ⟨hfin, hsetup, hvar, hpapr, hber, hvalid, hctr, hmem⟩

/-! ### The statements -/

/-- Settles O15: QMAP stores the samples of the bits, and sample i is the constellation point of its two. -/
theorem qmapMapsTheBits : Obligations.QmapMapsTheBits := by
  intro s cd bs v hcfg hv hbits
  have hlen : (mapBits ((List.range (2 * streamLen s)).map v)).length = streamLen s := length_mapBits _ _ (by simp)
  obtain ⟨hfin, hresults, hctr⟩ := completed_commitMem_frame (writeSamples s.mem cd _) s
  refine ⟨_, exec_qmap_of_bits hcfg hv hbits cd, hfin, hresults, hctr, fun i hi => ?_,
    keepMemOutside_writeSamples hlen rfl⟩
  have h0 : 2 * i < 2 * streamLen s := by omega
  have h1 : 2 * i + 1 < 2 * streamLen s := by omega
  have hmap : ∀ j < 2 * streamLen s, mapBit (v j) = symbolWord (v j) := fun j hj =>
    mapBit_eq_symbolWord ((bitByte_iff _).2 (hbits j hj))
  calc _ = (mapBits ((List.range (2 * streamLen s)).map v))[i]? := sampleAt_of_writeSamples rfl (hlen.symm ▸ hi)
    _ = some ⟨mapBit (v (2 * i)), mapBit (v (2 * i + 1))⟩ := getElem?_mapBits _ _ (by simp [h0]) (by simp [h1])
    _ = some ⟨symbolWord (v (2 * i)), symbolWord (v (2 * i + 1))⟩ := by rw [hmap _ h0, hmap _ h1]

/-- Settles O16: the scan of the first bad source fails at byte j, and the command raises what the scan answers. -/
theorem badBitBytesAreRefused : Obligations.BadBitBytesAreRefused := by
  intro s j v hcfg hj h0 h1 hbefore
  have hbad := scanBits_of_first_bad hj h0 h1 hbefore
  refine ⟨fun cd bs hv => ?_, fun u hsources => ?_⟩
  · refine ⟨_, exec_qmap_of_holds hcfg hv cd, ?_⟩
    rw [qmapResult, hbad]
    exact raisesOnly_raised _ s
  · suffices h : exec .bercnt s = .next (raised ⟨.bitValue, 1#4, j⟩ (dropBer s)) from
      ⟨_, h, raised_dropBer_frame _ s⟩
    rcases hsources with ⟨hv, hu⟩ | ⟨hu, hv, hbits⟩
    · rw [exec_bercnt_of_holds hcfg hv hu, bercntResult, hbad]
    · rw [exec_bercnt_of_holds hcfg hu hv, bercntResult, (scanBits_ok_iff _).2 (forall_bitByte_map_range hbits), hbad]

/-- Settles O17: DETECT reads the samples QMAP stored, and its decisions on them are the block of bits. -/
theorem detectInvertsQmap : Obligations.DetectInvertsQmap := by
  intro s c b b' v hcfg hv hbits
  set bs := (List.range (2 * streamLen s)).map v with hbs
  have hgood : ∀ b ∈ bs, bitByte b = true := forall_bitByte_map_range hbits
  have hlen : bs.length = 2 * streamLen s := by simp [hbs]
  have hdecide : decideBits (mapBits bs) = bs := decideBits_mapBits ⟨streamLen s, by omega⟩ hgood
  have hdetect := exec_detect_of_writeSamples (s := completed (commitMem (writeSamples s.mem c (mapBits bs)) s)) hcfg
    rfl (length_mapBits _ _ hlen) (cxFinite_mapBits hgood) b'
  rw [hdecide] at hdetect
  refine ⟨_, _, exec_qmap_of_bits hcfg hv hbits c, hdetect, rfl, fun j hj => ?_⟩
  calc _ = bs[j]? := bitAt_of_writeBits rfl (hlen.symm ▸ hj)
    _ = some (v j) := by simp [hbs, hj]

end Sys2Proof.Machine
end

section
/-!
PROOF. The scan of a complex source (43_modulation R168, 45_detection R212): the commands that read samples answer with
the result of their source, and the first sample that is not finite is what that result raises.
-/

namespace Sys2Proof.Machine

open Sys2Proof.Safety

/-! ### Commands on written sources -/

section
variable {s : State} {cs : CIdx} {x : Nat → Cx} (hcfg : CfgValid s) (hx : Holds s cs x)
include hcfg hx

theorem exec_mod_of_holds (cd : CIdx) : exec (.mod cd cs) s =
    .next (shapeResult (shapeMod (cfgOf s)) (cfgOf s) cd ((List.range (streamLen s)).map x) s) := by
  rw [exec, execMod, withCfg_of_valid hcfg, cfgLen_cfgOf, withSamples_of_holds hx]

theorem exec_demod_of_holds (cd : CIdx) : exec (.demod cd cs) s =
    .next (shapeResult (shapeDemod (cfgOf s)) (cfgOf s) cd ((List.range (streamLen s)).map x) s) := by
  rw [exec, execDemod, withCfg_of_valid hcfg, cfgLen_cfgOf, withSamples_of_holds hx]

theorem exec_detect_of_holds (bd : BIdx) : exec (.detect bd cs) s =
    .next (detectResult bd ((List.range (streamLen s)).map x) s) := by
  rw [exec, execDetect, withCfg_of_valid hcfg, cfgLen_cfgOf, withSamples_of_holds hx]

theorem exec_papr_of_holds : exec (.papr cs) s =
    .next (paprResult ((List.range (streamLen s)).map x) (streamLen s) s) := by
  rw [exec, execPapr, withCfg_of_valid hcfg, cfgLen_cfgOf, withSamples_of_holds hx]

/-- CHAN reads its source once the variance passes its test (60_exceptions R257). -/
theorem exec_chan_of_holds (hvar : VarianceOk s) (cd : CIdx) : exec (.chan cd cs) s =
    .next (chanResult (cfgOf s) cd (snrVariance s) ((List.range (streamLen s)).map x) s) := by
  obtain ⟨-, -, hnoise⟩ := (noiseVariance_cases (cfgOf s) s).resolve_right fun h => h.1 hvar
  rw [exec, execChan, withCfg_of_valid hcfg, chanPerform, hnoise]
  exact withSamples_of_holds hx _

end

/-! ### The scan -/

/-- A finite stream passes the scan. -/
theorem scanSamples_of_allFinite {s : State} {x : Nat → Cx} (h : AllFinite s x) :
    scanSamples ((List.range (streamLen s)).map x) = .ok () :=
  (scanSamples_ok_iff _).2 (by simpa [AllFinite] using h)

theorem scanSamples_of_first_nonFinite {n i : Nat} {x : Nat → Cx} (hi : i < n) (hbad : cxFinite (x i) = false)
    (hbefore : ∀ k < i, cxFinite (x k) = true) :
    scanSamples ((List.range n).map x) = .error ⟨.numerical, 4#4, i⟩ := by
  have hfirst : firstNonFinite ((List.range n).map x) 0 = some i := by
    refine (firstNonFinite_eq_some_iff _ _ _).2 ⟨i, x i, by omega, by simp [hi], hbad, fun k hk y hy => ?_⟩
    obtain rfl : x k = y := by simpa [hk.trans hi] using hy
    exact hbefore k hk
  rw [scanSamples, hfirst]

/-- Settles O22: each result raises what the scan answers, CHAN and PAPR with their VALID bit dropped. -/
theorem nonFiniteSourceIsRefused : Obligations.NonFiniteSourceIsRefused := by
  intro s cs cd bd x i hcfg hx hi hbad hbefore
  have hscan := scanSamples_of_first_nonFinite hi hbad hbefore
  refine ⟨⟨_, exec_mod_of_holds hcfg hx cd, ?_⟩, ⟨_, exec_demod_of_holds hcfg hx cd, ?_⟩,
    ⟨_, exec_detect_of_holds hcfg hx bd, ?_⟩, fun hvar => ⟨_, exec_chan_of_holds hcfg hx hvar cd, ?_⟩,
    ⟨_, exec_papr_of_holds hcfg hx, ?_⟩⟩
  · rw [shapeResult, hscan]
    exact raisesOnly_raised _ s
  · rw [shapeResult, hscan]
    exact raisesOnly_raised _ s
  · rw [detectResult, hscan]
    exact raisesOnly_raised _ s
  · rw [chanResult, hscan]
    obtain ⟨hfin, ⟨hsetup, ⟨hvar, hvalid⟩, hpapr, hber⟩, hctr, hmem⟩ :=
      raisesOnly_raised ⟨.numerical, 4#4, i⟩ (dropVar s)
    exact ⟨hfin, hsetup, hvar, hvalid, hpapr, hber, hctr, hmem⟩
  · rw [paprResult, hscan]
    obtain ⟨hfin, ⟨hsetup, hvar, ⟨hpapr, hvalid⟩, hber⟩, hctr, hmem⟩ :=
      raisesOnly_raised ⟨.numerical, 4#4, i⟩ (dropPapr s)
    exact ⟨hfin, hsetup, hvar, hpapr, hvalid, hber, hctr, hmem⟩

end Sys2Proof.Machine
end

section
/-!
PROOF. MOD and DEMOD on a written and finite source (43_modulation R160 to R176). Both shapes align a transform of the
block to its leading N samples, the round trip of a wavelet or the baseline's N outputs: what the commands leave is said
once for any such transform (`Shaped`).
-/

namespace Sys2Proof.Machine

open Sys2Proof.Safety

/-! ### One block -/

/-- The leading n samples of what a transform gave for block b, or NumericalError(2, b) where it is shorter
(43_modulation R161, R162). -/
def alignTo (n b : Nat) (r : List Cx) : Except Raise (List Cx) :=
  if r.length < n then .error ⟨.numerical, 2#4, b⟩ else .ok (r.take n)

/-- A transform of exactly n samples is aligned as it is. -/
theorem alignTo_of_length {n : Nat} {r : List Cx} (h : r.length = n) (b : Nat) : alignTo n b r = .ok r := by
  rw [alignTo, if_neg (by omega), List.take_of_length_le h.le]

theorem shapeWavelet_eq_alignTo (cfg : Cfg) (x : List Cx) (b : Nat) :
    shapeWavelet cfg x b = alignTo cfg.nsub b (wrt cfg x) := rfl

theorem shapeMod_of_wavelet {cfg : Cfg} (h : cfg.wavelet ≠ .noWavelet) (x : List Cx) (b : Nat) :
    shapeMod cfg x b = alignTo cfg.nsub b (wrt cfg x) := by
  rw [← shapeWavelet_eq_alignTo, shapeMod]
  cases hw : cfg.wavelet with
  | noWavelet => exact absurd hw h
  | _ => rfl

theorem shapeDemod_of_wavelet {cfg : Cfg} (h : cfg.wavelet ≠ .noWavelet) (x : List Cx) (b : Nat) :
    shapeDemod cfg x b = alignTo cfg.nsub b (wrt cfg x) := by
  rw [← shapeWavelet_eq_alignTo, shapeDemod]
  cases hw : cfg.wavelet with
  | noWavelet => exact absurd hw h
  | _ => rfl

theorem shapeMod_of_baseline {cfg : Cfg} (h : cfg.wavelet = .noWavelet) (x : List Cx) (b : Nat) :
    shapeMod cfg x b = alignTo cfg.nsub b (idft cfg.nsub x) := by
  rw [shapeMod, h, alignTo_of_length (by simp [idft])]

theorem shapeDemod_of_baseline {cfg : Cfg} (h : cfg.wavelet = .noWavelet) (x : List Cx) (b : Nat) :
    shapeDemod cfg x b = alignTo cfg.nsub b (dft cfg.nsub x) := by
  rw [shapeDemod, h, alignTo_of_length (by simp [dft])]

section
variable {shape : List Cx → Nat → Except Raise (List Cx)} {n b : Nat} {x r : List Cx}
  (hshape : shape x b = alignTo n b r)
include hshape

/-- A transform a command accepts gives its leading samples. -/
theorem shapeBlock_of_goodTrip (h : GoodTrip n r) : shapeBlock shape n b x = .ok (r.take n) := by
  obtain ⟨hlen, hfin⟩ := h
  have hnone : firstNonFinite (r.take n) (b * n) = none := by
    refine (firstNonFinite_eq_none_iff _ _).2 fun y hy => ?_
    obtain ⟨k, hk, rfl⟩ := List.mem_take_iff_getElem.1 hy
    exact hfin k (by omega) _ (List.getElem?_eq_getElem _)
  rw [shapeBlock, hshape, alignTo, if_neg (by omega)]
  simp only [hnone]

theorem shapeBlock_of_short (h : r.length < n) : shapeBlock shape n b x = .error ⟨.numerical, 2#4, b⟩ := by
  rw [shapeBlock, hshape, alignTo, if_pos h]

theorem shapeBlock_of_nonFinite (hlen : n ≤ r.length) {k : Nat} (hk : k < n) {y : Cx} (hy : r[k]? = some y)
    (hbad : cxFinite y = false) (hbefore : ∀ k' < k, ∀ y', r[k']? = some y' → cxFinite y' = true) :
    shapeBlock shape n b x = .error ⟨.numerical, 1#4, b * n + k⟩ := by
  have hfirst : firstNonFinite (r.take n) (b * n) = some (b * n + k) := by
    refine (firstNonFinite_eq_some_iff _ _ _).2
      ⟨k, y, rfl, by rwa [List.getElem?_take_of_lt hk], hbad, fun k' hk' y' hy' => hbefore k' hk' y' ?_⟩
    rwa [List.getElem?_take_of_lt (hk'.trans hk)] at hy'
  rw [shapeBlock, hshape, alignTo, if_neg (by omega)]
  simp only [hfirst]

end

/-! ### The blocks of a stream -/

section
variable {shape : List Cx → Nat → Except Raise (List Cx)} {n count : Nat} {xs : List Cx} {block : Nat → List Cx}
  {y : Nat → List Cx} (hblock : ∀ k < count, (xs.drop (k * n)).take n = block k)
include hblock

/-- Where every block succeeds, the outputs are concatenated (43_modulation R167). -/
theorem shapeBlocks_of_ok (h : ∀ k < count, shapeBlock shape n k (block k) = .ok (y k)) :
    shapeBlocks shape n count 0 xs = .ok ((List.range count).flatMap y) := by
  rcases shapeBlocks_cases shape n count 0 xs with ⟨z, hz, hok⟩ | ⟨k, hk, r, herr, -, -⟩
  · rw [hok, List.flatMap_congr fun k hk => ?_]
    have hlt := List.mem_range.1 hk
    have hzk := hz k hlt
    rw [Nat.zero_add, hblock k hlt] at hzk
    exact Except.ok.inj (hzk.symm.trans (h k hlt))
  · rw [Nat.zero_add, hblock k hk, h k hk] at herr
    cases herr

/-- The first block that raises ends the stream with its error (60_exceptions R257). -/
theorem shapeBlocks_of_error {k : Nat} {r : Raise} (hk : k < count) (herr : shapeBlock shape n k (block k) = .error r)
    (hbefore : ∀ j < k, shapeBlock shape n j (block j) = .ok (y j)) : shapeBlocks shape n count 0 xs = .error r := by
  rcases shapeBlocks_cases shape n count 0 xs with ⟨z, hz, -⟩ | ⟨k', hk', r', herr', hbefore', hresult⟩
  · have hok := hz k hk
    rw [Nat.zero_add, hblock k hk, herr] at hok
    cases hok
  · rw [Nat.zero_add, hblock k' hk'] at herr'
    rcases lt_trichotomy k k' with hlt | rfl | hgt
    · obtain ⟨z, hok⟩ := hbefore' k hlt
      rw [Nat.zero_add, hblock k hk, herr] at hok
      cases hok
    · rwa [← Except.error.inj (herr'.symm.trans herr)]
    · rw [hbefore k' hgt] at herr'
      cases herr'

end

/-- Block b of a stream, as the loop over the blocks takes it (43_modulation R167). -/
theorem take_drop_stream (s : State) (x : Nat → Cx) {b : Nat} (hb : b < s.cfgNsym.toNat) :
    (((List.range (streamLen s)).map x).drop (b * s.cfgNsub.toNat)).take s.cfgNsub.toNat = blockOf s x b := by
  have hend : (b + 1) * s.cfgNsub.toNat ≤ streamLen s := by
    rw [streamLen, mul_comm _ s.cfgNsym.toNat]
    exact Nat.mul_le_mul_right _ hb
  rw [add_mul, one_mul] at hend
  refine List.ext_getElem (by simp [blockOf]; omega) fun n _ _ => ?_
  simp [blockOf]

/-- Sample n of block b stands at index b*N + n of the concatenated blocks. -/
theorem getElem?_flatMap_range {n i : Nat} (hi : i < n) : ∀ {count b : Nat} {y : Nat → List Cx},
    (∀ k < count, (y k).length = n) → b < count → ((List.range count).flatMap y)[b * n + i]? = (y b)[i]? := by
  intro count
  induction count with
  | zero => intro b y _ hb; omega
  | succ count ih =>
    intro b y hlen hb
    have hlen0 := hlen 0 (by omega)
    rw [List.range_succ_eq_map, List.flatMap_cons, List.flatMap_map]
    cases b with
    | zero => rw [zero_mul, zero_add, List.getElem?_append_left (by omega)]
    | succ b =>
      have hindex : (b + 1) * n + i - (y 0).length = b * n + i := by rw [hlen0, add_mul, one_mul]; omega
      rw [List.getElem?_append_right (by rw [hlen0, add_mul, one_mul]; omega), hindex]
      exact ih (fun k hk => hlen (k + 1) (by omega)) (by omega)

/-! ### What the commands leave -/

theorem shapeResult_of_ok {shape : List Cx → Nat → Except Raise (List Cx)} {cfg : Cfg} {cd : CIdx} {xs ys : List Cx}
    {s : State} (hscan : scanSamples xs = .ok ()) (h : shapeBlocks shape cfg.nsub cfg.nsym 0 xs = .ok ys) :
    shapeResult shape cfg cd xs s = completed (commitMem (writeSamples s.mem cd ys) s) := by
  simp only [shapeResult, hscan, h]

theorem shapeResult_of_error {shape : List Cx → Nat → Except Raise (List Cx)} {cfg : Cfg} {cd : CIdx} {xs : List Cx}
    {s : State} {r : Raise} (hscan : scanSamples xs = .ok ())
    (h : shapeBlocks shape cfg.nsub cfg.nsym 0 xs = .error r) :
    shapeResult shape cfg cd xs s = raised r (commitMem (forgetSamples s.mem cd (cfgLen cfg)) s) := by
  simp only [shapeResult, hscan, h]

/-- MOD and DEMOD change no result register, VALID bit or counter, and no byte outside the destination. -/
theorem shapeResult_frame {shape : List Cx → Nat → Except Raise (List Cx)} {cfg : Cfg} (hs : ShapeOk shape cfg.nsub)
    (cd : CIdx) (xs : List Cx) (s : State) :
    KeepResults s (shapeResult shape cfg cd xs s) ∧ KeepCtr s (shapeResult shape cfg cd xs s) ∧
      KeepMemOutside (cbBase cd) (16 * cfgLen cfg) s (shapeResult shape cfg cd xs s) := by
  rcases shapeResult_cases shape cfg cd xs s with ⟨i, -, hr⟩ | ⟨-, ⟨r, -, hr⟩ | ⟨ys, hys, hr⟩⟩ <;> rw [hr]
  · obtain ⟨-, hresults, hctr, -⟩ := raisesOnly_raised ⟨.numerical, 4#4, i⟩ s
    exact ⟨hresults, hctr, keepMemOutside_of_mem_eq rfl _ _⟩
  · obtain ⟨-, hresults, hctr, -⟩ := raisesOnly_raised r (commitMem (forgetSamples s.mem cd (cfgLen cfg)) s)
    exact ⟨hresults, hctr, fun a ha => memRead_memForget_of_outside s.mem ha⟩
  · obtain ⟨-, hresults, hctr⟩ := completed_commitMem_frame (writeSamples s.mem cd ys) s
    exact ⟨hresults, hctr, keepMemOutside_writeSamples (shapeBlocks_length hs hys) rfl⟩

/-- What a raise of the compute phase leaves: its error, and the destination unspecified (60_exceptions R254). -/
theorem raised_forgetSamples (r : Raise) (s : State) (cd : CIdx) (n : Nat) :
    Finished r.kind r.detail r.index s (raised r (commitMem (forgetSamples s.mem cd n) s)) ∧
      Unspecified (cbBase cd) (16 * n) (raised r (commitMem (forgetSamples s.mem cd n) s)) := by
  obtain ⟨hfin, -⟩ := raisesOnly_raised r (commitMem (forgetSamples s.mem cd n) s)
  exact ⟨hfin, fun a hlo hhi => (memRead_memForget s.mem _ _ a).trans (if_pos ⟨hlo, hhi⟩)⟩

/-- t is what a command leaves whose transform gives r b for block b of the source: the frame, and the three ways it
ends (43_modulation R161, R162, R168). -/
structure Shaped (s : State) (cd : CIdx) (r : Nat → List Cx) (t : State) : Prop where
  results : KeepResults s t
  ctr : KeepCtr s t
  outside : KeepMemOutside (cbBase cd) (16 * streamLen s) s t
  success : (∀ b < s.cfgNsym.toNat, GoodTrip s.cfgNsub.toNat (r b)) → Finished .noError 0#4 0 s t ∧
    ∀ b < s.cfgNsym.toNat, ∀ n < s.cfgNsub.toNat, sampleAt t cd (b * s.cfgNsub.toNat + n) = (r b)[n]?
  short : ∀ b < s.cfgNsym.toNat, (∀ b' < b, GoodTrip s.cfgNsub.toNat (r b')) → (r b).length < s.cfgNsub.toNat →
    Finished .numerical 2#4 b s t ∧ Unspecified (cbBase cd) (16 * streamLen s) t
  nonFinite : ∀ b < s.cfgNsym.toNat, (∀ b' < b, GoodTrip s.cfgNsub.toNat (r b')) → s.cfgNsub.toNat ≤ (r b).length →
    ∀ n < s.cfgNsub.toNat, ∀ y, (r b)[n]? = some y → cxFinite y = false →
      (∀ n' < n, ∀ y', (r b)[n']? = some y' → cxFinite y' = true) →
      Finished .numerical 1#4 (b * s.cfgNsub.toNat + n) s t ∧ Unspecified (cbBase cd) (16 * streamLen s) t

theorem shaped_shapeResult {shape : List Cx → Nat → Except Raise (List Cx)} {s : State} {x : Nat → Cx}
    {r : Nat → List Cx} (hs : ShapeOk shape s.cfgNsub.toNat) (hfin : AllFinite s x)
    (hshape : ∀ b, shape (blockOf s x b) b = alignTo s.cfgNsub.toNat b (r b)) (cd : CIdx) :
    Shaped s cd r (shapeResult shape (cfgOf s) cd ((List.range (streamLen s)).map x) s) := by
  set t := shapeResult shape (cfgOf s) cd ((List.range (streamLen s)).map x) s with ht
  obtain ⟨hresults, hctr, houtside⟩ := shapeResult_frame (cfg := cfgOf s) hs cd ((List.range (streamLen s)).map x) s
  have hscan := scanSamples_of_allFinite hfin
  have hblock := fun b (hb : b < s.cfgNsym.toNat) => take_drop_stream s x hb
  have hgood := fun b (h : GoodTrip s.cfgNsub.toNat (r b)) => shapeBlock_of_goodTrip (hshape b) h
  have hraise : ∀ b < s.cfgNsym.toNat, (∀ b' < b, GoodTrip s.cfgNsub.toNat (r b')) → ∀ e,
      shapeBlock shape s.cfgNsub.toNat b (blockOf s x b) = .error e →
      Finished e.kind e.detail e.index s t ∧ Unspecified (cbBase cd) (16 * streamLen s) t := by
    intro b hb hbefore e he
    rw [ht, shapeResult_of_error hscan (shapeBlocks_of_error hblock hb he fun j hj => hgood j (hbefore j hj))]
    exact raised_forgetSamples e s cd _
  refine ⟨hresults, hctr, houtside, fun hall => ?_,
    fun b hb hbefore hshort => hraise b hb hbefore _ (shapeBlock_of_short (hshape b) hshort),
    fun b hb hbefore hlen n hn y hy hbad hfirst =>
      hraise b hb hbefore _ (shapeBlock_of_nonFinite (hshape b) hlen hn hy hbad hfirst)⟩
  rw [ht, shapeResult_of_ok hscan (shapeBlocks_of_ok hblock fun b hb => hgood b (hall b hb))]
  refine ⟨(completed_commitMem_frame _ s).1, fun b hb n hn => ?_⟩
  have hlen := fun b hb => List.length_take_of_le (hall b hb).1
  have hget := getElem?_flatMap_range hn hlen hb
  rw [List.getElem?_take_of_lt hn] at hget
  have hsome := hget.trans (List.getElem?_eq_getElem (hn.trans_le (hall b hb).1))
  exact (sampleAt_of_writeSamples rfl (List.getElem?_eq_some_iff.1 hsome).1).trans hget

/-! ### The two shapes -/

theorem waveletOf_ne_noWavelet {code : Nat} (h : code ≠ 0) : waveletOf code ≠ .noWavelet := by
  unfold waveletOf
  split
  · exact absurd rfl h
  all_goals nofun

/-- With a real wavelet both commands align the round trip of each block (43_modulation R171, R176). -/
theorem exec_shaped_of_wavelet {s : State} {cd cs : CIdx} {x : Nat → Cx} (hcfg : CfgValid s)
    (hwavelet : s.cfgWavelet.toNat ≠ 0) (hx : Holds s cs x) (hfin : AllFinite s x) {i : Instr}
    (hi : i = .mod cd cs ∨ i = .demod cd cs) : ∃ t, exec i s = .next t ∧ Shaped s cd (roundTrip s x) t := by
  have hw : (cfgOf s).wavelet ≠ .noWavelet := waveletOf_ne_noWavelet hwavelet
  rcases hi with rfl | rfl
  · exact ⟨_, exec_mod_of_holds hcfg hx cd, shaped_shapeResult (shapeOk_mod _) hfin
      (fun b => shapeMod_of_wavelet hw _ b) cd⟩
  · exact ⟨_, exec_demod_of_holds hcfg hx cd, shaped_shapeResult (shapeOk_demod _) hfin
      (fun b => shapeDemod_of_wavelet hw _ b) cd⟩

/-- In the baseline each command takes its own transform of each block, N samples (43_modulation R165). -/
theorem exec_shaped_of_baseline {s : State} {cd cs : CIdx} {x : Nat → Cx} (hcfg : CfgValid s)
    (hwavelet : s.cfgWavelet.toNat = 0) (hx : Holds s cs x) (hfin : AllFinite s x) {i : Instr}
    {f : DftNorm → List Cx → Nat → Cx}
    (hi : (i = .mod cd cs ∧ f = Config.idftSample) ∨ (i = .demod cd cs ∧ f = Config.dftSample)) :
    ∃ t, exec i s = .next t ∧
      Shaped s cd (fun b => (List.range s.cfgNsub.toNat).map (f Config.dftNorm (blockOf s x b))) t := by
  have hw : (cfgOf s).wavelet = .noWavelet := congrArg waveletOf hwavelet
  rcases hi with ⟨rfl, rfl⟩ | ⟨rfl, rfl⟩
  · exact ⟨_, exec_mod_of_holds hcfg hx cd, shaped_shapeResult (shapeOk_mod _) hfin
      (fun b => shapeMod_of_baseline hw _ b) cd⟩
  · exact ⟨_, exec_demod_of_holds hcfg hx cd, shaped_shapeResult (shapeOk_demod _) hfin
      (fun b => shapeDemod_of_baseline hw _ b) cd⟩

/-- Settles O18: the clauses are those of `Shaped` for the round trip. -/
theorem waveletShaping : Obligations.WaveletShaping := by
  intro s cd cs x hcfg hwavelet hx hfin i hi
  obtain ⟨t, hexec, h⟩ := exec_shaped_of_wavelet hcfg hwavelet hx hfin hi
  exact ⟨t, hexec, h.results, h.ctr, h.outside, h.success, h.short, h.nonFinite⟩

/-- Sample n of a transform given sample by sample. -/
theorem getElem?_map_range {n k : Nat} (hk : k < n) (y : Nat → Cx) : ((List.range n).map y)[k]? = some (y k) := by
  simp [hk]

/-- A transform of exactly n samples is accepted when they are finite. -/
theorem goodTrip_map_range {n : Nat} {y : Nat → Cx} (h : ∀ k < n, cxFinite (y k) = true) :
    GoodTrip n ((List.range n).map y) := by
  refine ⟨by simp, fun k hk z hz => ?_⟩
  rw [getElem?_map_range hk] at hz
  exact Option.some.inj hz ▸ h k hk

/-- Settles O19: the clauses are those of `Shaped` for the transform, which is never short. -/
theorem baselineShaping : Obligations.BaselineShaping := by
  intro s cd cs x hcfg hwavelet hx hfin i f hi N S y
  obtain ⟨t, hexec, h⟩ := exec_shaped_of_baseline hcfg hwavelet hx hfin hi
  refine ⟨t, hexec, h.results, h.ctr, h.outside, fun hall => ?_, fun b hb n hn hbad hbefore hblocks => ?_⟩
  · obtain ⟨hfinished, hsamples⟩ := h.success fun b hb => goodTrip_map_range (hall b hb)
    exact ⟨hfinished, fun b hb n hn => (hsamples b hb n hn).trans (getElem?_map_range hn _)⟩
  · refine h.nonFinite b hb (fun b' hb' => goodTrip_map_range (hblocks b' hb')) (by simp) n hn _
      (getElem?_map_range hn _) hbad fun n' hn' z hz => ?_
    rw [getElem?_map_range (hn'.trans hn)] at hz
    exact Option.some.inj hz ▸ hbefore n' hn'

end Sys2Proof.Machine
end

section
/-!
PROOF. The round trip of MOD and DEMOD under the named properties of the wavelet library (43_modulation R177, R178): each
command leaves the stream of the round trips, and two of them, each within tol of its block, are within 2 tol + tol^2.
-/

namespace Sys2Proof.Machine

open Sys2Proof.Safety

/-! ### A command whose round trips are finite -/

/-- The index of sample i of a stream: its block and its place there (43_modulation R167). -/
theorem block_of_index {s : State} {i : Nat} (hi : i < streamLen s) :
    i / s.cfgNsub.toNat < s.cfgNsym.toNat ∧ i % s.cfgNsub.toNat < s.cfgNsub.toNat ∧
      i / s.cfgNsub.toNat * s.cfgNsub.toNat + i % s.cfgNsub.toNat = i := by
  have hpos : 0 < s.cfgNsub.toNat := Nat.pos_of_ne_zero fun h => by simp [streamLen, h] at hi
  exact ⟨Nat.div_lt_of_lt_mul hi, Nat.mod_lt _ hpos, Nat.div_add_mod' _ _⟩

/-- Sample n of block b lies in the stream. -/
theorem index_lt_streamLen {s : State} {b n : Nat} (hb : b < s.cfgNsym.toNat) (hn : n < s.cfgNsub.toNat) :
    b * s.cfgNsub.toNat + n < streamLen s := by
  calc b * s.cfgNsub.toNat + n < b * s.cfgNsub.toNat + s.cfgNsub.toNat := Nat.add_lt_add_left hn _
    _ = (b + 1) * s.cfgNsub.toNat := (Nat.succ_mul _ _).symm
    _ ≤ s.cfgNsym.toNat * s.cfgNsub.toNat := Nat.mul_le_mul_right _ hb
    _ = streamLen s := Nat.mul_comm _ _

/-- A statement about every sample of every block is one about every sample of the stream. -/
theorem forall_stream_of_blocks {s : State} {p : Nat → Prop}
    (h : ∀ b < s.cfgNsym.toNat, ∀ n < s.cfgNsub.toNat, p (b * s.cfgNsub.toNat + n)) : ∀ i < streamLen s, p i := by
  intro i hi
  obtain ⟨hb, hn, hindex⟩ := block_of_index hi
  exact hindex ▸ h _ hb _ hn

/-- The round trips of the blocks of x have y as their leading samples, block by block (43_modulation R160, R161). -/
def TripsTo (s : State) (x y : Nat → Cx) : Prop :=
  ∀ b < s.cfgNsym.toNat, ∀ n < s.cfgNsub.toNat, (roundTrip s x b)[n]? = some (y (b * s.cfgNsub.toNat + n))

/-- Round trips with finite leading samples are accepted. -/
theorem TripsTo.goodTrip {s : State} {x y : Nat → Cx} (h : TripsTo s x y) (hy : AllFinite s y) :
    ∀ b < s.cfgNsym.toNat, GoodTrip s.cfgNsub.toNat (roundTrip s x b) := by
  refine fun b hb => ⟨?_, fun n hn z hz => ?_⟩
  · by_contra hshort
    have hnone := List.getElem?_eq_none (le_refl (roundTrip s x b).length)
    rw [h b hb _ (not_le.1 hshort)] at hnone
    cases hnone
  · rw [h b hb n hn] at hz
    exact Option.some.inj hz ▸ hy _ (index_lt_streamLen hb hn)

/-- MOD and DEMOD with a real wavelet leave the stream of the round trips in the destination. -/
theorem exec_of_tripsTo {s : State} {cd cs : CIdx} {x y : Nat → Cx} (hcfg : CfgValid s)
    (hwavelet : s.cfgWavelet.toNat ≠ 0) (hx : Holds s cs x) (hfin : AllFinite s x) (hy : AllFinite s y)
    (htrips : TripsTo s x y) {i : Instr} (hi : i = .mod cd cs ∨ i = .demod cd cs) :
    ∃ t, exec i s = .next t ∧ Finished .noError 0#4 0 s t ∧ SameSetup s t ∧
      ∀ n < streamLen s, sampleAt t cd n = some (y n) := by
  obtain ⟨t, hexec, hshaped⟩ := exec_shaped_of_wavelet hcfg hwavelet hx hfin hi
  obtain ⟨hsetup, -⟩ := hshaped.results
  obtain ⟨hfinished, hsamples⟩ := hshaped.success (htrips.goodTrip hy)
  exact ⟨t, hexec, hfinished, hsetup,
    forall_stream_of_blocks fun b hb n hn => (hsamples b hb n hn).trans (htrips b hb n hn)⟩

/-- MOD, then DEMOD of its result: two round trips, one after the other, under the configuration MOD leaves. -/
theorem exec_mod_demod_of_tripsTo {s : State} {c₀ c₁ c₂ : CIdx} {x y z : Nat → Cx} (hcfg : CfgValid s)
    (hwavelet : s.cfgWavelet.toNat ≠ 0) (hx : Holds s c₀ x) (hfin : AllFinite s x) (hy : AllFinite s y)
    (hz : AllFinite s z) (hxy : TripsTo s x y) (hyz : TripsTo s y z) :
    ∃ t u, exec (.mod c₁ c₀) s = .next t ∧ exec (.demod c₂ c₁) t = .next u ∧ u.status.err = .noError ∧
      ∀ n < streamLen s, sampleAt u c₂ n = some (z n) := by
  obtain ⟨t, hmod, -, hsetup, hsamples⟩ := exec_of_tripsTo hcfg hwavelet hx hfin hy hxy (.inl rfl)
  obtain ⟨-, -, hnsub, hnsym, hwave, -⟩ := hsetup
  have hlen : streamLen t = streamLen s := by simp only [streamLen, hnsub, hnsym]
  have htrip : roundTrip t y = roundTrip s y := by funext b; simp only [roundTrip, blockOf, hnsub, hwave]
  have hcfgT : CfgValid t := by simpa only [CfgValid, hnsub, hnsym, hwave] using hcfg
  have hyzT : TripsTo t y z := by simpa only [TripsTo, htrip, hnsub, hnsym] using hyz
  have hyT : AllFinite t y := by simpa only [AllFinite, hlen] using hy
  have hzT : AllFinite t z := by simpa only [AllFinite, hlen] using hz
  have hholds : Holds t c₁ y := by simpa only [Holds, hlen] using hsamples
  obtain ⟨u, hdemod, ⟨-, -, -, herr, -⟩, -, hsamples'⟩ :=
    exec_of_tripsTo hcfgT (by rwa [hwave]) hholds hyT hzT hyzT (.inr rfl)
  exact ⟨t, u, hmod, hdemod, herr, hlen ▸ hsamples'⟩

/-! ### The named properties of the library on the blocks of a stream -/

/-- The blocks a valid configuration makes of a finite stream are those WT_ID and WT_CLOSE speak of (00_scope R10). -/
theorem wtBlock_blockOf {s : State} {x : Nat → Cx} (hcfg : CfgValid s) (hwavelet : s.cfgWavelet.toNat ≠ 0)
    (hfin : AllFinite s x) {b : Nat} (hb : b < s.cfgNsym.toNat) :
    2 ^ s.cfgNsub.toNat.log2 = s.cfgNsub.toNat ∧
      WtBlock (waveletOf s.cfgWavelet.toNat) s.cfgNsub.toNat.log2 (blockOf s x b) := by
  obtain ⟨⟨k, hk⟩, -, hsym, hmax⟩ := hcfg
  have hpow : 2 ^ s.cfgNsub.toNat.log2 = s.cfgNsub.toNat := by rw [hk, Nat.log2_two_pow]
  refine ⟨hpow, waveletOf_ne_noWavelet hwavelet, ?_, ?_, fun y hy => ?_⟩
  · rw [hpow]
    exact (Nat.le_mul_of_pos_right _ hsym).trans hmax
  · rw [hpow, blockOf, List.length_map, List.length_range]
  · obtain ⟨n, hn, rfl⟩ := List.mem_map.1 hy
    exact hfin _ (index_lt_streamLen hb (List.mem_range.1 hn))

/-- Each sample of y is within tol times the largest magnitude of its block of x (00_scope R10). -/
def CloseBlocks (tol : ℚ) (s : State) (x y : Nat → Cx) : Prop :=
  ∀ b < s.cfgNsym.toNat, ∀ n < s.cfgNsub.toNat, ∃ k < s.cfgNsub.toNat,
    distSq (y (b * s.cfgNsub.toNat + n)) (x (b * s.cfgNsub.toNat + n)) ≤
      tol ^ 2 * normSq (x (b * s.cfgNsub.toNat + k))

section
variable {s : State} {x : Nat → Cx} (hcfg : CfgValid s) (hwavelet : s.cfgWavelet.toNat ≠ 0) (hfin : AllFinite s x)
include hcfg hwavelet hfin

/-- Under WT_ID the round trip gives every block back (43_modulation R177). -/
theorem tripsTo_self_of_wtId (h : WtId Config.wdec Config.wrec) : TripsTo s x x := by
  intro b hb n hn
  obtain ⟨hpow, hblock⟩ := wtBlock_blockOf hcfg hwavelet hfin hb
  calc _ = (blockOf s x b)[n]? := h _ _ _ hblock n (hpow.symm ▸ hn)
    _ = some (x (b * s.cfgNsub.toNat + n)) := getElem?_map_range hn _

/-- Under WT_CLOSE(tol) the round trips give a finite stream close to the source. -/
theorem exists_tripsTo_of_wtClose {tol : ℚ} (h : WtClose tol Config.wdec Config.wrec) :
    ∃ y, AllFinite s y ∧ TripsTo s x y ∧ CloseBlocks tol s x y := by
  have hsample : ∀ i < streamLen s, ∃ z, (roundTrip s x (i / s.cfgNsub.toNat))[i % s.cfgNsub.toNat]? = some z ∧
      cxFinite z = true ∧ ∃ k < s.cfgNsub.toNat,
        distSq z (x i) ≤ tol ^ 2 * normSq (x (i / s.cfgNsub.toNat * s.cfgNsub.toNat + k)) := by
    intro i hi
    obtain ⟨hb, hn, hindex⟩ := block_of_index hi
    obtain ⟨hpow, hblock⟩ := wtBlock_blockOf hcfg hwavelet hfin hb
    obtain ⟨-, hclose⟩ := h _ _ _ hblock
    rw [hpow] at hclose
    obtain ⟨z, w, hz, hw, hzfin, v, hv, hdist⟩ := hclose _ hn
    obtain ⟨k, hk, rfl⟩ := List.mem_map.1 hv
    obtain rfl : x i = w := by
      rw [blockOf, getElem?_map_range hn, hindex] at hw
      exact Option.some.inj hw
    exact ⟨z, hz, hzfin, k, List.mem_range.1 hk, hdist⟩
  choose! y hy hyfin hdist using hsample
  have hplace : ∀ b n, n < s.cfgNsub.toNat → (b * s.cfgNsub.toNat + n) / s.cfgNsub.toNat = b ∧
      (b * s.cfgNsub.toNat + n) % s.cfgNsub.toNat = n := fun b n hn => by
    rw [Nat.mul_add_mod', Nat.mod_eq_of_lt hn, Nat.add_comm, Nat.add_mul_div_right _ _ (by omega), Nat.div_eq_of_lt hn]
    exact ⟨Nat.zero_add b, rfl⟩
  refine ⟨y, hyfin, fun b hb n hn => ?_, fun b hb n hn => ?_⟩
  · have hget := hy _ (index_lt_streamLen hb hn)
    rwa [(hplace b n hn).1, (hplace b n hn).2] at hget
  · have hclose := hdist _ (index_lt_streamLen hb hn)
    rwa [(hplace b n hn).1] at hclose

end

/-! ### Two round trips, each within tol -/

/-- The complex number of a finite sample. -/
noncomputable def cxValue (x : Cx) : ℂ := ⟨patternValue x.re, patternValue x.im⟩

theorem normSq_eq_norm (x : Cx) : (normSq x : ℝ) = ‖cxValue x‖ ^ 2 := by
  rw [Complex.sq_norm, Complex.normSq_apply, normSq]
  push_cast
  simp only [cxValue, sq]

theorem distSq_eq_norm (x y : Cx) : (distSq x y : ℝ) = ‖cxValue x - cxValue y‖ ^ 2 := by
  rw [Complex.sq_norm, Complex.normSq_apply, distSq]
  push_cast
  simp only [cxValue, sq, Complex.sub_re, Complex.sub_im]

/-- The squared bound of WT_CLOSE is one of magnitudes. -/
theorem distSq_le_iff {c : ℚ} (hc : 0 ≤ c) (x y z : Cx) :
    distSq x y ≤ c ^ 2 * normSq z ↔ ‖cxValue x - cxValue y‖ ≤ c * ‖cxValue z‖ := by
  have hc' : (0 : ℝ) ≤ c := by exact_mod_cast hc
  rw [← Rat.cast_le (K := ℝ)]
  push_cast
  rw [distSq_eq_norm, normSq_eq_norm, ← mul_pow,
    pow_le_pow_iff_left₀ (norm_nonneg _) (mul_nonneg hc' (norm_nonneg _)) two_ne_zero]

/-- The bounds add up, the second one relative to a block that the first has moved (43_modulation R178). -/
theorem CloseBlocks.trans {tol : ℚ} (htol : 0 ≤ tol) {s : State} {x y z : Nat → Cx} (hxy : CloseBlocks tol s x y)
    (hyz : CloseBlocks tol s y z) : CloseBlocks (2 * tol + tol ^ 2) s x z := by
  intro b hb n hn
  have htol' : (0 : ℝ) ≤ tol := by exact_mod_cast htol
  obtain ⟨k, hk, hmax⟩ := Finset.exists_max_image (Finset.range s.cfgNsub.toNat)
    (fun k => ‖cxValue (x (b * s.cfgNsub.toNat + k))‖) ⟨n, Finset.mem_range.2 hn⟩
  simp only [Finset.mem_range] at hk hmax
  set M := ‖cxValue (x (b * s.cfgNsub.toNat + k))‖
  have hfirst : ∀ m < s.cfgNsub.toNat,
      ‖cxValue (y (b * s.cfgNsub.toNat + m)) - cxValue (x (b * s.cfgNsub.toNat + m))‖ ≤ tol * M := fun m hm => by
    obtain ⟨j, hj, hdist⟩ := hxy b hb m hm
    exact ((distSq_le_iff htol _ _ _).1 hdist).trans (mul_le_mul_of_nonneg_left (hmax j hj) htol')
  obtain ⟨j, hj, hdist⟩ := hyz b hb n hn
  have hmoved : ‖cxValue (y (b * s.cfgNsub.toNat + j))‖ ≤ tol * M + M :=
    (norm_le_norm_sub_add _ _).trans (add_le_add (hfirst j hj) (hmax j hj))
  refine ⟨k, hk, (distSq_le_iff (by positivity) _ _ _).2 ?_⟩
  calc _ ≤ _ + _ := norm_sub_le_norm_sub_add_norm_sub _ (cxValue (y (b * s.cfgNsub.toNat + n))) _
    _ ≤ tol * (tol * M + M) + tol * M := add_le_add
        (((distSq_le_iff htol _ _ _).1 hdist).trans (mul_le_mul_of_nonneg_left hmoved htol')) (hfirst n hn)
    _ = ((2 * tol + tol ^ 2 : ℚ) : ℝ) * M := by push_cast; ring

/-! ### The statements -/

/-- Settles O20: under WT_ID the stream of the round trips is the source. -/
theorem identityTransformCopies : Obligations.IdentityTransformCopies := by
  intro hid s cd cs x hcfg hwavelet hx hfin i hi
  obtain ⟨t, hexec, hfinished, -, hsamples⟩ :=
    exec_of_tripsTo hcfg hwavelet hx hfin hfin (tripsTo_self_of_wtId hcfg hwavelet hfin hid) hi
  exact ⟨t, hexec, hfinished, hsamples⟩

/-- Settles O21: two round trips of the stream, which WT_ID makes the identity and WT_CLOSE close to it. -/
theorem losslessRoundTrip : Obligations.LosslessRoundTrip := by
  intro s c₀ c₁ c₂ x hcfg hwavelet hx hfin
  refine ⟨fun hid => ?_, fun tol htol hclose => ?_⟩
  · have htrips := tripsTo_self_of_wtId hcfg hwavelet hfin hid
    exact exec_mod_demod_of_tripsTo hcfg hwavelet hx hfin hfin hfin htrips htrips
  · obtain ⟨y, hy, hxy, hfirst⟩ := exists_tripsTo_of_wtClose hcfg hwavelet hfin hclose
    obtain ⟨z, hz, hyz, hsecond⟩ := exists_tripsTo_of_wtClose hcfg hwavelet hy hclose
    obtain ⟨t, u, hmod, hdemod, herr, hsamples⟩ :=
      exec_mod_demod_of_tripsTo hcfg hwavelet hx hfin hy hz hxy hyz
    exact ⟨t, u, hmod, hdemod, herr, fun b hb n hn =>
      ⟨_, hsamples _ (index_lt_streamLen hb hn), hfirst.trans htol hsecond b hb n hn⟩⟩

end Sys2Proof.Machine
end

section
/-!
PROOF. The AWGN channel (44_channel): the variance CHECK and CHAN share and its range test (R191), the draws CHAN adds
to its source (R194, R196), and NOISE_CTR, which a successful CHAN alone moves (R195).
-/

namespace Sys2Proof.Machine

open Sys2Proof.Safety

/-! ### The counter -/

/-- Only a commit that has a variance can have a counter. -/
theorem CommitsResult.keepCtr {o : Option ResultGroup} {s u : State} (h : CommitsResult s u o) (ho : o ≠ some .var) :
    KeepCtr s u := by
  rcases o with _ | (_ | _ | _)
  · obtain ⟨_, rfl⟩ := h; rfl
  · exact absurd rfl ho
  · obtain ⟨-, _, _, -, rfl⟩ := h; rfl
  · obtain ⟨-, _, -, rfl⟩ := h; rfl

/-- Of the two commands that commit a variance, CHECK leaves the counter (41_control_commands R141). -/
theorem Commits.keepCtr {i : Instr} {s u : State} (h : Commits s u i) (hi : ¬ ∃ cd cs, i = .chan cd cs) :
    KeepCtr s u := by
  by_cases hvar : ownGroup i = some .var
  · obtain rfl : i = .check := ((ownGroup_eq_var_iff i).1 hvar).resolve_right hi
    obtain ⟨-, -, rfl⟩ := h
    rfl
  · exact h.result.keepCtr hvar

/-- Settles O24: a raise keeps the counter, and of the commits only that of CHAN has one. -/
theorem onlyChanMovesTheCounter : Obligations.OnlyChanMovesTheCounter := by
  intro s t i h
  rcases exec_cases h with ⟨r, hr⟩ | ⟨u, hu, rfl⟩
  · obtain ⟨m, -, hkind, rfl⟩ := raises_state hr
    obtain ⟨-, -, -, -, -, hctr, -⟩ := dropGroup_frame (ownGroup i) (commitMem m s)
    exact ⟨fun _ herr => absurd herr hkind, fun _ _ => hctr, fun _ => hctr⟩
  · refine ⟨?_, fun _ herr => absurd rfl herr, hu.keepCtr⟩
    rintro ⟨cd, cs, rfl⟩ -
    obtain ⟨-, -, _, _, -, -, -, rfl⟩ := hu
    rfl

/-! ### What CHECK and CHAN keep -/

theorem CommitsResult.haz_sameSetup {o : Option ResultGroup} {s u : State} (h : CommitsResult s u o) :
    u.status.haz = s.status.haz ∧ SameSetup s u := by
  rcases o with _ | (_ | _ | _)
  · obtain ⟨_, rfl⟩ := h; simp [SameSetup]
  · obtain ⟨-, _, _, rfl⟩ := h; simp [SameSetup]
  · obtain ⟨-, _, _, -, rfl⟩ := h; simp [SameSetup]
  · obtain ⟨-, _, -, rfl⟩ := h; simp [SameSetup]

/-- No command writes the set-up registers, HAZ or the outside world's part of the state. -/
theorem haz_sameSetup_of_exec {i : Instr} {s t : State} (h : exec i s = .next t) :
    t.status.haz = s.status.haz ∧ SameSetup s t := by
  rcases exec_cases h with ⟨r, hr⟩ | ⟨u, hu, rfl⟩
  · obtain ⟨m, -, -, rfl⟩ := raises_state hr
    obtain ⟨hhaz, hsetup, -⟩ := dropGroup_frame (ownGroup i) (commitMem m s)
    exact ⟨hhaz, hsetup⟩
  · exact hu.result.haz_sameSetup

/-- CHECK and CHAN keep the measurements of PAPR and BERCNT, and every byte outside their destination. -/
theorem exec_frame_of_var {i : Instr} {s t : State} (h : exec i s = .next t) (hi : ownGroup i = some .var) :
    SameSetup s t ∧ KeepPapr s t ∧ KeepBer s t ∧ KeepMemOutside (destBase i) (destSize s i) s t :=
  ⟨(haz_sameSetup_of_exec h).2, keep_of_exec h (g := .papr) (by simp [hi]), keep_of_exec h (g := .ber) (by simp [hi]),
    onlyTheDestinationChanges i s t h⟩

/-! ### The range test of the variance -/

theorem noiseVariance_of_varianceOk {s : State} (h : VarianceOk s) :
    noiseVariance (cfgOf s) s = .ok (snrVariance s) := by
  obtain ⟨-, -, hok⟩ := (noiseVariance_cases (cfgOf s) s).resolve_right fun hn => hn.1 h
  exact hok

theorem exec_check_of_varianceOk {s : State} (hcfg : CfgValid s) (hvar : VarianceOk s) :
    exec .check s = .next (completed (commitVar (pack (snrVariance s)) s)) := by
  rw [exec, execCheck, withCfg_of_valid hcfg, checkResult, noiseVariance_of_varianceOk hvar]

/-- CHECK and CHAN raise alike where the variance is out of range, CHAN before its source is read (44_channel R191,
60_exceptions R257). -/
theorem exec_of_not_varianceOk {i : Instr} {s : State} (hcfg : CfgValid s) (hvar : ¬ VarianceOk s)
    (hi : ownGroup i = some .var) : exec i s = .next (raised ⟨.parameterRange, 1#4, 0⟩ (dropVar s)) := by
  have hraise : noiseVariance (cfgOf s) s = .error ⟨.parameterRange, 1#4, 0⟩ :=
    ((noiseVariance_cases (cfgOf s) s).resolve_left fun ⟨hfin, hpos, _⟩ => hvar ⟨hfin, hpos⟩).2
  rcases (ownGroup_eq_var_iff i).1 hi with rfl | ⟨cd, cs, rfl⟩
  · rw [exec, execCheck, withCfg_of_valid hcfg, checkResult, hraise]
  · rw [exec, execChan, withCfg_of_valid hcfg, chanPerform, hraise]

/-- A raise of CHECK or CHAN clears VAR_VALID and keeps NOISE_VAR and NOISE_CTR, whatever it leaves of the buffers
(44_channel R195, 60_exceptions R254). -/
theorem raised_dropVar_frame (r : Raise) (m : Mem) (s : State) :
    Finished r.kind r.detail r.index s (raised r (dropVar (commitMem m s))) ∧
      SameVar s (raised r (dropVar (commitMem m s))) ∧
      (raised r (dropVar (commitMem m s))).status.varValid = false ∧
      KeepCtr s (raised r (dropVar (commitMem m s))) := by
  obtain ⟨hfin, ⟨-, ⟨hvar, hvalid⟩, -⟩, hctr, -⟩ := raisesOnly_raised r (dropVar (commitMem m s))
  exact ⟨hfin, hvar, hvalid, hctr⟩

/-- CHECK keeps the measurements of PAPR and BERCNT, the counter and the buffers (41_control_commands R141). -/
theorem exec_check_frame {s t : State} (h : exec .check s = .next t) :
    SameSetup s t ∧ KeepPapr s t ∧ KeepBer s t ∧ KeepCtr s t ∧ KeepMem s t := by
  obtain ⟨hsetup, hpapr, hber, hmem⟩ := exec_frame_of_var h rfl
  obtain ⟨-, -, hctr⟩ := onlyChanMovesTheCounter s t .check h
  exact ⟨hsetup, hpapr, hber, hctr (by simp), fun a => hmem a (.inr (Nat.zero_le a))⟩

/-- Settles O12: the range test of the variance decides between the commit and the raise. -/
theorem checkComputesTheVariance : Obligations.CheckComputesTheVariance := by
  intro s hcfg var
  by_cases hvar : VarianceOk s
  · have hexec := exec_check_of_varianceOk hcfg hvar
    obtain ⟨hsetup, hpapr, hber, hctr, hmem⟩ := exec_check_frame hexec
    exact ⟨_, hexec, hsetup, hpapr, hber, hctr, hmem, fun _ => ⟨⟨rfl, rfl, rfl, rfl, rfl, rfl⟩, rfl, rfl⟩,
      fun hn => absurd hvar hn⟩
  · have hexec := exec_of_not_varianceOk hcfg hvar (i := .check) rfl
    obtain ⟨hsetup, hpapr, hber, hctr, hmem⟩ := exec_check_frame hexec
    obtain ⟨hdone, hsame, hvalid, -⟩ := raised_dropVar_frame ⟨.parameterRange, 1#4, 0⟩ s.mem s
    exact ⟨_, hexec, hsetup, hpapr, hber, hctr, hmem, fun h => absurd h hvar, fun _ => ⟨hdone, hsame, hvalid⟩⟩

/-! ### The noisy samples -/

/-- Sample i of a stream with its draws added, at the variance SNR_DB gives (44_channel R194, R196). -/
def noisyAt (s : State) (x : Nat → Cx) (i : Nat) : CNum :=
  noisyOf (fsqrt (snrVariance s)) (x i) (drawOf s.noiseSeed s.noiseCtr (streamLen s) i)

/-- Both parts of a number are finite (44_channel R196). -/
def FiniteParts (z : CNum) : Prop := isFinite z.re = true ∧ isFinite z.im = true

/-- What CHAN makes of a finite source that holds x (44_channel R196). -/
def noiseAdded (s : State) (x : Nat → Cx) : Except Raise (List Cx) :=
  addNoise (fsqrt (snrVariance s)) s.noiseSeed s.noiseCtr (streamLen s) 0 ((List.range (streamLen s)).map x)

/-- The sums of a stream are all finite and come out in order, or the first that is not raises (44_channel R196). -/
theorem noiseAdded_cases (s : State) (x : Nat → Cx) :
    ((∀ i < streamLen s, FiniteParts (noisyAt s x i)) ∧ ∃ ys, noiseAdded s x = .ok ys ∧ ys.length = streamLen s ∧
      ∀ i < streamLen s, ys[i]? = some ⟨pack (noisyAt s x i).re, pack (noisyAt s x i).im⟩) ∨
    ∃ k < streamLen s, ¬ FiniteParts (noisyAt s x k) ∧ (∀ j < k, FiniteParts (noisyAt s x j)) ∧
      noiseAdded s x = .error ⟨.numerical, 1#4, k⟩ := by
  have hget := fun i (hi : i < streamLen s) => getElem?_map_range hi x
  have hcases := addNoise_cases (fsqrt (snrVariance s)) s.noiseSeed s.noiseCtr (streamLen s)
    ((List.range (streamLen s)).map x) 0
  simp only [Nat.zero_add] at hcases
  rcases hcases with ⟨hgood, ys, hys, hlen, hval⟩ | ⟨k, y, hy, hbad, hbefore, herr⟩
  · exact .inl ⟨fun i hi => hgood i _ (hget i hi), ys, hys, by simpa using hlen, fun i hi => hval i _ (hget i hi)⟩
  · have hk : k < streamLen s := by simpa using (List.getElem?_eq_some_iff.1 hy).1
    obtain rfl : x k = y := Option.some.inj ((hget k hk).symm.trans hy)
    exact .inr ⟨k, hk, hbad, fun j hj => hbefore j hj _ (hget j (hj.trans hk)), herr⟩

/-! ### What CHAN leaves -/

section
variable {s : State} {cd cs : CIdx} {x : Nat → Cx} (hcfg : CfgValid s) (hx : Holds s cs x) (hfin : AllFinite s x)
  (hvar : VarianceOk s)
include hcfg hx hfin hvar

theorem exec_chan_of_noiseAdded_ok {ys : List Cx} (h : noiseAdded s x = .ok ys) : exec (.chan cd cs) s =
    .next (completed (commitVar (pack (snrVariance s)) (commitCtr (s.noiseCtr + BitVec.ofNat 64 (2 * streamLen s))
      (commitMem (writeSamples s.mem cd ys) s)))) := by
  rw [noiseAdded] at h
  simp only [exec_chan_of_holds hcfg hx hvar, chanResult, scanSamples_of_allFinite hfin, cfgLen_cfgOf, h]

theorem exec_chan_of_noiseAdded_error {r : Raise} (h : noiseAdded s x = .error r) : exec (.chan cd cs) s =
    .next (raised r (dropVar (commitMem (forgetSamples s.mem cd (streamLen s)) s))) := by
  rw [noiseAdded] at h
  simp only [exec_chan_of_holds hcfg hx hvar, chanResult, scanSamples_of_allFinite hfin, cfgLen_cfgOf, h]

end

/-- Settles O23: the range test and the first sum that is not finite decide between the commit and the two raises. -/
theorem chanAddsTheDraws : Obligations.ChanAddsTheDraws := by
  intro s cd cs x hcfg hx hfin var ok sigma L re im good
  by_cases hvar : VarianceOk s
  · rcases noiseAdded_cases s x with ⟨hgood, ys, hys, hlen, hval⟩ | ⟨k, hk, hbad, hbefore, herr⟩
    · have hexec := exec_chan_of_noiseAdded_ok (cd := cd) hcfg hx hfin hvar hys
      obtain ⟨hsetup, hpapr, hber, hmem⟩ := exec_frame_of_var hexec rfl
      exact ⟨_, hexec, hsetup, hpapr, hber, hmem,
        fun _ _ => ⟨⟨rfl, rfl, rfl, rfl, rfl, rfl⟩, rfl, rfl, rfl,
          fun i hi => (sampleAt_of_writeSamples rfl (hlen.symm ▸ hi)).trans (hval i hi)⟩,
        fun _ i hi _ hbad => absurd (hgood i hi) hbad, fun hn => absurd hvar hn⟩
    · have hexec := exec_chan_of_noiseAdded_error (cd := cd) hcfg hx hfin hvar herr
      obtain ⟨hsetup, hpapr, hber, hmem⟩ := exec_frame_of_var hexec rfl
      refine ⟨_, hexec, hsetup, hpapr, hber, hmem, fun _ hgood => absurd (hgood k hk) hbad,
        fun _ i hi hbefore' hbad' => ?_, fun hn => absurd hvar hn⟩
      obtain rfl : k = i := le_antisymm (not_lt.1 fun h => hbad' (hbefore i h)) (not_lt.1 fun h => hbad (hbefore' k h))
      obtain ⟨hdone, hsame, hvalid, hctr⟩ :=
        raised_dropVar_frame ⟨.numerical, 1#4, k⟩ (forgetSamples s.mem cd (streamLen s)) s
      exact ⟨hdone, hsame, hvalid, hctr, fun a => memRead_forgetDestination_of_inside (.chan cd cs) s⟩
  · have hexec := exec_of_not_varianceOk hcfg hvar (i := .chan cd cs) rfl
    obtain ⟨hsetup, hpapr, hber, hmem⟩ := exec_frame_of_var hexec rfl
    obtain ⟨hdone, hsame, hvalid, hctr⟩ := raised_dropVar_frame ⟨.parameterRange, 1#4, 0⟩ s.mem s
    exact ⟨_, hexec, hsetup, hpapr, hber, hmem, fun h => absurd h hvar, fun h => absurd h hvar,
      fun _ => ⟨hdone, hsame, hvalid, hctr, keepMem_of_mem_eq rfl⟩⟩

end Sys2Proof.Machine
end

section
/-!
PROOF. The detector and the bit-error counter (45_detection): a component is decided on its pattern (R211), sample i
gives two bytes (R210), and BERCNT counts the bytes that differ (R215), none in equal blocks (R216).
-/

namespace Sys2Proof.Machine

open Sys2Proof.Safety

/-! ### The decision on a component (45_detection R211) -/

/-- The sign of a finite number is the sign bit of its pattern. -/
theorem msb_of_unpack_eq_fin {w : Word} {neg : Bool} {m e : Nat} (h : unpack w = .fin neg m e) : w.msb = neg := by
  unfold unpack at h
  dsimp only at h
  split at h
  · split at h <;> cases h
  · split at h <;> cases h <;> rfl

/-- A finite number is above +0.0 exactly when its sign is positive and its significand is not 0. -/
theorem flt_fzero_fin (neg : Bool) (m e : Nat) : flt fzero (.fin neg m e) = true ↔ neg = false ∧ m ≠ 0 := by
  rw [fzero, flt_fin]
  cases neg <;> simp [signedInt, Nat.pos_iff_ne_zero]

/-- +0.0 is the only finite pattern with a clear sign bit that is not above +0.0. -/
theorem flt_fzero_unpack_iff {w : Word} (hfin : isFinite (unpack w) = true) :
    flt fzero (unpack w) = true ↔ w.msb = false ∧ w ≠ 0#64 := by
  obtain ⟨neg, m, e, hw⟩ := (isFinite_iff _).1 hfin
  rw [hw, flt_fzero_fin, msb_of_unpack_eq_fin hw]
  refine and_congr_right fun hneg => not_congr ⟨fun hm => ?_, fun hzero => ?_⟩
  · subst hneg hm
    obtain ⟨-, -, hnorm⟩ : f64Canonical (.fin false 0 e) := hw ▸ canonical_unpack w
    obtain rfl : e = 0 := hnorm.resolve_left (by decide)
    calc w = pack (unpack w) := (pack_unpack (by simp [hw])).symm
      _ = 0#64 := by rw [hw]; rfl
  · subst hzero
    have hunpack : unpack 0#64 = .fin false 0 0 := by decide
    rw [hunpack] at hw
    cases hw
    rfl

/-! ### The bytes of the detected bits (45_detection R210) -/

/-- Sample i gives bytes 2i and 2i+1. -/
theorem getElem?_decideBits : ∀ (xs : List Cx) (i : Nat) {x : Cx}, xs[i]? = some x →
    (decideBits xs)[2 * i]? = some (decideBit x.re) ∧ (decideBits xs)[2 * i + 1]? = some (decideBit x.im)
  | [], _, _, h => by simp at h
  | _ :: _, 0, _, h => by
    cases h
    exact ⟨rfl, rfl⟩
  | _ :: rest, i + 1, _, h => getElem?_decideBits rest i h

/-- DETECT of a written and finite source stores the decisions on its samples. -/
theorem exec_detect_of_allFinite {s : State} {cs : CIdx} {x : Nat → Cx} (hcfg : CfgValid s) (hx : Holds s cs x)
    (hfin : AllFinite s x) (bd : BIdx) : exec (.detect bd cs) s =
      .next (completed (commitMem (writeBits s.mem bd (decideBits ((List.range (streamLen s)).map x))) s)) := by
  rw [exec_detect_of_holds hcfg hx, detectResult, scanSamples_of_allFinite hfin]

/-- Settles O25: bytes 2i and 2i+1 of what DETECT stores are the decisions on the two parts of sample i. -/
theorem detectDecidesTheBits : Obligations.DetectDecidesTheBits := by
  intro s bd cs x hcfg hx hfin
  have hlen : (decideBits ((List.range (streamLen s)).map x)).length = 2 * streamLen s := by
    simp [length_decideBits]
  obtain ⟨hdone, hresults, hctr⟩ := completed_commitMem_frame (writeBits s.mem bd _) s
  refine ⟨_, exec_detect_of_allFinite hcfg hx hfin bd, hdone, hresults, hctr, fun i hi => ?_,
    keepMemOutside_writeBits hlen rfl⟩
  obtain ⟨hre, him⟩ := getElem?_decideBits ((List.range (streamLen s)).map x) i (x := x i) (by simp [hi])
  exact ⟨(bitAt_of_writeBits rfl (by omega)).trans hre, (bitAt_of_writeBits rfl (by omega)).trans him⟩

/-- Settles O26: the bits of O25, with the comparison read off the pattern of each finite part. -/
theorem signedZerosDecideZero : Obligations.SignedZerosDecideZero := by
  intro s bd cs x hcfg hx hfin one
  obtain ⟨t, hexec, -, -, -, hbits, -⟩ := detectDecidesTheBits s bd cs x hcfg hx hfin
  refine ⟨t, hexec, fun i hi => ?_⟩
  obtain ⟨hre, him⟩ : isFinite (unpack (x i).re) = true ∧ isFinite (unpack (x i).im) = true := by
    simpa [cxFinite] using hfin i hi
  simpa only [flt_fzero_unpack_iff hre, flt_fzero_unpack_iff him] using hbits i hi

/-! ### The count of the errors (45_detection R215) -/

/-- Two runs listed by their indices differ in as many places as there are indices at which they differ. -/
theorem mismatches_map (v u : Nat → Byte) : ∀ js : List Nat,
    mismatches (js.map v) (js.map u) = (js.filter fun j => v j != u j).length
  | [] => rfl
  | j :: js => by
    rw [List.map_cons, List.map_cons, mismatches, mismatches_map v u js]
    by_cases h : v j = u j
    · simp [h]
    · simp [h, Nat.add_comm]

/-- BERCNT of written blocks of zeros and ones commits its count, the total and their quotient. -/
theorem exec_bercnt_of_bits {s : State} {v u : Nat → Byte} (hcfg : CfgValid s) (hv : HoldsBits s 0 v)
    (hu : HoldsBits s 1 u) (hbits : ∀ j < 2 * streamLen s, (v j = 0#8 ∨ v j = 1#8) ∧ (u j = 0#8 ∨ u j = 1#8)) :
    let e := ((List.range (2 * streamLen s)).filter fun j => v j != u j).length
    exec .bercnt s = .next (completed (commitBer (BitVec.ofNat 64 e) (BitVec.ofNat 64 (2 * streamLen s))
      (pack (fdiv (i2f e) (i2f (2 * streamLen s)))) s)) := by
  have hscanV := (scanBits_ok_iff _).2 (forall_bitByte_map_range fun j hj => (hbits j hj).1)
  have hscanU := (scanBits_ok_iff _).2 (forall_bitByte_map_range fun j hj => (hbits j hj).2)
  simp only [exec_bercnt_of_holds hcfg hv hu, bercntResult, hscanV, hscanU, mismatches_map]

/-- Settles O27: the completion keeps all that the commit of the three registers and BER_VALID leaves. -/
theorem bercntCountsTheErrors : Obligations.BercntCountsTheErrors := by
  intro s v u hcfg hv hu hbits e
  obtain ⟨hdone, ⟨hsetup, hvar, hpapr, -⟩, hctr, hmem⟩ := completed_frame
    (commitBer (BitVec.ofNat 64 e) (BitVec.ofNat 64 (2 * streamLen s)) (pack (fdiv (i2f e) (i2f (2 * streamLen s)))) s)
  exact ⟨_, exec_bercnt_of_bits hcfg hv hu hbits, hdone, hsetup, hvar, hpapr, hctr, hmem, rfl, rfl, rfl, rfl⟩

/-! ### No errors (45_detection R216) -/

/-- +0.0 divided by a positive integer that loses no bit is +0.0. -/
theorem fdiv_i2f_zero {k : Nat} (hk0 : 0 < k) (hk : k < 2 ^ 53) : fdiv (i2f 0) (i2f k) = fzero := by
  obtain ⟨neg, m, e, hki, hval⟩ := exists_i2f_eq_fin hk
  have hpos : 0 < signedValue neg m e := by rw [hval]; exact_mod_cast hk0
  have hm : m ≠ 0 := fun h => hpos.ne' ((signedValue_eq_zero_iff neg m e).2 h)
  obtain rfl : neg = false := by
    cases neg
    · rfl
    · exact absurd hpos (signedValue_true_nonpos m e).not_gt
  have hzero : i2f 0 = .fin false 0 0 := rfl
  simp [hzero, hki, fdiv, hm, roundF64, fzero]

/-- Settles O28: O27 for two equal blocks, where no index counts and the quotient is +0.0. -/
theorem equalBlocksHaveNoErrors : Obligations.EqualBlocksHaveNoErrors := by
  intro s v hcfg hv hv' hbits
  obtain ⟨t, hexec, ⟨-, -, -, herr, -⟩, -, -, -, -, -, -, herrBits, -, hber⟩ :=
    bercntCountsTheErrors s v v hcfg hv hv' fun j hj => ⟨hbits j hj, hbits j hj⟩
  have hcount : ((List.range (2 * streamLen s)).filter fun j => v j != v j).length = 0 := by simp
  obtain ⟨hlo, hhi⟩ := streamLen_bounds hcfg
  rw [hcount] at herrBits hber
  rw [fdiv_i2f_zero (by omega) (by omega)] at hber
  exact ⟨t, hexec, herr, herrBits, hber⟩

end Sys2Proof.Machine
end

section
/-!
PROOF. What PAPR answers and leaves (46_papr): the tests of its compute phase in their order (R231 to R234), the
registers it writes and what it keeps (R236, R237).
-/

namespace Sys2Proof.Machine

open Sys2Proof.Safety

/-! ### The compute phase (46_papr R231 to R234) -/

/-- Finite powers come out in order. -/
theorem powersFrom_of_finite {xs : List Cx} (h : ∀ x ∈ xs, isFinite (power x) = true) :
    powersFrom 0 xs = .ok (xs.map power) := by
  rcases powersFrom_cases xs 0 with ⟨-, hok⟩ | ⟨k, x, hx, hbad, -, -⟩
  · exact hok
  · simp [h x (List.mem_of_getElem? hx)] at hbad

/-- The first power of a stream that is not finite is what PAPR raises. -/
theorem paprOf_of_first_nonFinite {n i : Nat} {x : Nat → Cx} (hi : i < n) (hbad : isFinite (power (x i)) = false)
    (hbefore : ∀ k < i, isFinite (power (x k)) = true) (len : Nat) :
    paprOf ((List.range n).map x) len = .error ⟨.numerical, 1#4, i⟩ := by
  have hpowers : powersFrom 0 ((List.range n).map x) = .error ⟨.numerical, 1#4, i⟩ := by
    rcases powersFrom_cases ((List.range n).map x) 0 with ⟨hall, -⟩ | ⟨k, y, hy, hbad', hbefore', herr⟩
    · rw [hall (x i) (List.mem_map_of_mem (List.mem_range.2 hi))] at hbad
      cases hbad
    · obtain ⟨hk, rfl⟩ : k < n ∧ x k = y := by simpa [List.getElem?_eq_some_iff] using hy
      have hik : ¬ i < k := fun hlt => by simp [hbefore' i hlt (x i) (getElem?_map_range hi x)] at hbad
      have hki : ¬ k < i := fun hlt => by simp [hbefore k hlt] at hbad'
      obtain rfl : k = i := by omega
      rwa [Nat.zero_add] at herr
  rw [paprOf, hpowers]

/-- The peak of a stream, index by index. -/
theorem peakOf_stream (x : Nat → Cx) (n : Nat) : peakOf (((List.range n).map x).map power) =
    (List.range n).foldl (fun m i => if flt m (power (x i)) then power (x i) else m) fzero := by
  rw [peakOf, List.foldl_map, List.foldl_map]
  rfl

/-- The sum of a stream, index by index. -/
theorem sumOf_stream (x : Nat → Cx) (n : Nat) : sumOf (((List.range n).map x).map power) =
    (List.range n).foldl (fun a i => fadd a (power (x i))) fzero := by
  rw [sumOf, List.foldl_map, List.foldl_map]

/-! ### What PAPR leaves (46_papr R236, R237) -/

/-- PAPR keeps the set-up, the results of the other commands, the counter and the buffers. -/
theorem exec_papr_frame {cs : CIdx} {s t : State} (h : exec (.papr cs) s = .next t) :
    SameSetup s t ∧ KeepVar s t ∧ KeepBer s t ∧ KeepCtr s t ∧ KeepMem s t := by
  obtain ⟨-, hsetup⟩ := haz_sameSetup_of_exec h
  obtain ⟨-, -, hctr⟩ := onlyChanMovesTheCounter s t _ h
  exact ⟨hsetup, keep_of_exec h (g := .var) (by simp [ownGroup]), keep_of_exec h (g := .ber) (by simp [ownGroup]),
    hctr (by simp), fun a => onlyTheDestinationChanges _ s t h a (.inr (Nat.zero_le a))⟩

/-- An error of the compute phase is raised with PAPR_VALID cleared and the registers kept. -/
theorem paprResult_of_error {xs : List Cx} {len : Nat} {r : Raise} (hscan : scanSamples xs = .ok ())
    (h : paprOf xs len = .error r) (s : State) : Finished r.kind r.detail r.index s (paprResult xs len s) ∧
      SamePapr s (paprResult xs len s) ∧ (paprResult xs len s).status.paprValid = false := by
  obtain ⟨hdone, ⟨-, -, ⟨hpapr, hvalid⟩, -⟩, -⟩ := raisesOnly_raised r (dropPapr s)
  simp only [paprResult, hscan, h]
  exact ⟨hdone, hpapr, hvalid⟩

/-- A success commits the three quantities with PAPR_VALID. -/
theorem paprResult_of_ok {xs : List Cx} {len : Nat} {v : PaprValues} (hscan : scanSamples xs = .ok ())
    (h : paprOf xs len = .ok v) (s : State) : Finished .noError 0#4 0 s (paprResult xs len s) ∧
      (paprResult xs len s).status.paprValid = true ∧ (paprResult xs len s).paprDb = pack v.papr ∧
      (paprResult xs len s).peakPwr = pack v.peak ∧ (paprResult xs len s).meanPwr = pack v.mean := by
  obtain ⟨hdone, -⟩ := completed_frame (commitPapr (pack v.papr) (pack v.peak) (pack v.mean) s)
  simp only [paprResult, hscan, h]
  exact ⟨hdone, rfl, rfl, rfl, rfl⟩

/-- With finite powers the tests of the sum, the mean, the ratio and PAPR_DB decide, in this order (46_papr R234). -/
theorem paprResult_of_finite_powers {xs : List Cx} {len : Nat} {sum peak mean ratio papr : F64} (s : State)
    (hscan : scanSamples xs = .ok ()) (hpowers : ∀ x ∈ xs, isFinite (power x) = true)
    (hsum : sumOf (xs.map power) = sum) (hpeak : peakOf (xs.map power) = peak) (hmean : fdiv sum (i2f len) = mean)
    (hratio : fdiv peak mean = ratio) (hpapr : paprDbOf (clampRatio ratio) = papr) :
    let t := paprResult xs len s
    let failed (d : BitVec 4) (n : Nat) : Prop :=
      Finished .numerical d n s t ∧ SamePapr s t ∧ t.status.paprValid = false
    if isFinite sum = false then failed 1#4 len
    else if isZero mean = true then failed 3#4 0
    else if isFinite ratio = false then failed 1#4 len
    else if isFinite papr = false then failed 1#4 len
    else Finished .noError 0#4 0 s t ∧ t.status.paprValid = true ∧ t.paprDb = pack papr ∧
      t.peakPwr = pack peak ∧ t.meanPwr = pack mean := by
  intro t failed
  have hraise : ∀ d n, paprOf xs len = .error ⟨.numerical, d, n⟩ → failed d n := fun _ _ h =>
    paprResult_of_error hscan h s
  have hcommit (h : paprOf xs len = .ok ⟨papr, peak, mean⟩) := paprResult_of_ok hscan h s
  have hok := powersFrom_of_finite hpowers
  simp only [paprOf, hok, hsum, hpeak, hmean, hratio, hpapr, Bool.not_eq_true'] at hraise hcommit
  split_ifs with hs hm hr hp
  · exact hraise _ _ (if_pos hs)
  · exact hraise _ _ (by rw [if_neg hs, if_pos hm])
  · exact hraise _ _ (by rw [if_neg hs, if_neg hm, if_pos hr])
  · exact hraise _ _ (by rw [if_neg hs, if_neg hm, if_neg hr, if_pos hp])
  · exact hcommit (by rw [if_neg hs, if_neg hm, if_neg hr, if_neg hp])

/-- Settles O29: the first power that is not finite, or the chain of tests, decides what the compute phase answers. -/
theorem paprMeasures : Obligations.PaprMeasures := by
  intro s cs x hcfg hx hfin L p peak sum mean ratio clamped papr
  have hexec := exec_papr_of_holds hcfg hx
  obtain ⟨hsetup, hvar, hber, hctr, hmem⟩ := exec_papr_frame hexec
  have hscan := scanSamples_of_allFinite hfin
  refine ⟨_, hexec, hsetup, hvar, hber, hctr, hmem, fun i hi hbefore hbad => ?_, fun hall => ?_⟩
  · exact paprResult_of_error hscan (paprOf_of_first_nonFinite hi hbad hbefore L) s
  · have hpowers : ∀ i < L, isFinite (power (x i)) = true := hall
    exact paprResult_of_finite_powers s hscan (by simpa using hpowers) (sumOf_stream x L) (peakOf_stream x L)
      rfl rfl rfl

end Sys2Proof.Machine
end

section
/-!
PROOF. Integers of at most 53 bits are numbers, and their sums and quotients lose no bit (00_scope R8, R12): an exact
result is its own rounding.
-/

namespace Sys2Proof.Machine

open Sys2Proof.Safety

/-! ### Sums and quotients that lose no bit (00_scope R12) -/

/-- A finite rounding has the sign of its argument. -/
theorem roundF64_eq_fin {neg : Bool} {m : Nat} {x : Int} {sticky : Bool}
    (h : isFinite (roundF64 neg m x sticky) = true) : ∃ m' e, roundF64 neg m x sticky = .fin neg m' e := by
  by_cases hm : m = 0
  · exact ⟨0, 0, by rw [roundF64, if_pos hm]⟩
  · rw [roundF64_eq_carry neg x sticky hm] at h ⊢
    generalize roundSignificand m x sticky = q at *
    generalize roundExponent m x = e at *
    by_cases hover : 2045 < e ∨ e = 2045 ∧ q = 2 ^ 53
    · simp [carry_eq_inf neg hover, isFinite] at h
    · obtain ⟨m', e', hcarry, -⟩ := carry_eq_fin neg hover
      exact ⟨m', e', hcarry⟩

/-- A canonical magnitude has one significand and exponent. -/
theorem canonical_unique {neg : Bool} {m e m' e' : Nat} (h : f64Canonical (.fin neg m e))
    (h' : f64Canonical (.fin neg m' e')) (hmag : magnitude m e = magnitude m' e') :
    F64.fin neg m e = .fin neg m' e' := by
  wlog hle : e ≤ e' generalizing m e m' e'
  · exact (this h' h hmag.symm (by omega)).symm
  obtain ⟨k, rfl⟩ := Nat.exists_eq_add_of_le hle
  obtain ⟨hm, -, -⟩ := h
  obtain ⟨-, -, hnorm⟩ := h'
  have heq : m = m' * 2 ^ k := by
    rw [magnitude_eq, magnitude_eq, unitOf_add, ← mul_assoc, mul_left_inj' (unitOf_pos e).ne'] at hmag
    exact_mod_cast hmag
  cases k with
  | zero => rw [heq, pow_zero, mul_one, add_zero]
  | succ k =>
    have hm' : 2 ^ 52 ≤ m' := hnorm.resolve_right (by omega)
    have hbig : 2 ^ 52 * 2 ≤ m' * 2 ^ (k + 1) := Nat.mul_le_mul hm' (Nat.le_self_pow (by omega) 2)
    omega

/-- A canonical magnitude is its own rounding. -/
theorem eq_of_isRounded_exact {neg : Bool} {a : ℝ} {v : F64} {m e : Nat} (h : IsRounded neg a v)
    (hcan : f64Canonical (.fin neg m e)) (ha : magnitude m e = a) : v = .fin neg m e := by
  obtain ⟨hvcan, -, hnear⟩ := h
  have hlt := abs_signedValue_lt hcan
  rw [abs_signedValue, ← magnitude_eq, ha] at hlt
  obtain ⟨m', e', rfl, hbest⟩ := hnear hlt
  have hdist := (hbest m e hcan).1
  rw [ha, sub_self, abs_zero, abs_nonpos_iff, sub_eq_zero] at hdist
  exact canonical_unique hvcan hcan (hdist.trans ha.symm)

/-- An integer of at most 53 bits is a finite number of that magnitude. -/
theorem i2f_eq_fin {k : Nat} (hk : k < 2 ^ 53) : ∃ m e, i2f k = .fin false m e ∧ magnitude m e = k := by
  obtain ⟨neg, m, e, hfin, hvalue⟩ := exists_i2f_eq_fin hk
  obtain ⟨m', e', hround⟩ : ∃ m' e', i2f k = .fin false m' e' :=
    roundF64_eq_fin ((isFinite_iff _).2 ⟨_, _, _, hfin⟩)
  cases hfin.symm.trans hround
  exact ⟨m, e, hround, by simpa [signedValue] using hvalue⟩

theorem isFinite_i2f {k : Nat} (hk : k < 2 ^ 53) : isFinite (i2f k) = true := by
  obtain ⟨m, e, hfin, -⟩ := i2f_eq_fin hk
  exact (isFinite_iff _).2 ⟨_, _, _, hfin⟩

/-- The rounding of an integer of at most 53 bits is its number. -/
theorem eq_i2f_of_isRounded {k : Nat} (hk : k < 2 ^ 53) {v : F64} (h : IsRounded false k v) : v = i2f k := by
  obtain ⟨m, e, hfin, hmag⟩ := i2f_eq_fin hk
  rw [hfin]
  exact eq_of_isRounded_exact h (hfin ▸ canonical_i2f k) hmag

theorem signedValue_false (m e : Nat) : signedValue false m e = magnitude m e := by
  simp [signedValue]

theorem fadd_i2f {a b : Nat} (h : a + b < 2 ^ 53) : fadd (i2f a) (i2f b) = i2f (a + b) := by
  obtain ⟨ma, ea, ha, hmagA⟩ := i2f_eq_fin (k := a) (by omega)
  obtain ⟨mb, eb, hb, hmagB⟩ := i2f_eq_fin (k := b) (by omega)
  obtain ⟨hpos, -, hzero⟩ := isRoundedSum_fadd false false ma ea mb eb
  rw [← ha, ← hb, signedValue_false, signedValue_false, hmagA, hmagB, ← Nat.cast_add] at hpos hzero
  rcases Nat.eq_zero_or_pos (a + b) with h0 | h0
  · rw [hzero (by exact_mod_cast h0), h0]
    rfl
  · exact eq_i2f_of_isRounded h (hpos (by exact_mod_cast h0))

theorem fdiv_i2f {a b : Nat} (ha0 : 0 < a) (hb0 : 0 < b) (h : a * b < 2 ^ 53) :
    fdiv (i2f (a * b)) (i2f b) = i2f a := by
  obtain ⟨ma, ea, ha, hmagA⟩ := i2f_eq_fin h
  obtain ⟨mb, eb, hb, hmagB⟩ := i2f_eq_fin (k := b) ((Nat.le_mul_of_pos_left b ha0).trans_lt h)
  have hbR : (b : ℝ) ≠ 0 := by exact_mod_cast hb0.ne'
  have hmb : mb ≠ 0 := by
    rw [Ne, ← signedValue_eq_zero_iff false mb eb, signedValue_false, hmagB]
    exact hbR
  have hround := isRounded_fdiv (na := false) (ma := ma) (ea := ea) (hb ▸ canonical_i2f b) hmb
  rw [← ha, ← hb, signedValue_false, signedValue_false, hmagA, hmagB, Nat.cast_mul, mul_div_cancel_right₀ _ hbR,
    Nat.abs_cast] at hround
  exact eq_i2f_of_isRounded ((Nat.le_mul_of_pos_right a hb0).trans_lt h) hround

/-- Adding c a number of times loses no bit while the sum has at most 53 of them. -/
theorem foldl_fadd_replicate (c : Nat) : ∀ n k : Nat, k + n * c < 2 ^ 53 →
    (List.replicate n (i2f c)).foldl fadd (i2f k) = i2f (k + n * c)
  | 0, k, _ => by simp
  | n + 1, k, h => by
    rw [Nat.succ_mul] at h ⊢
    rw [List.replicate_succ, List.foldl_cons, fadd_i2f (by omega), foldl_fadd_replicate c n (k + c) (by omega)]
    congr 1
    omega

end Sys2Proof.Machine
end

section
/-!
PROOF. The order of what PAPR measures (46_papr): the powers are not negative (R231), the peak is their maximum (R232),
and the clamp keeps PAPR_DB from falling below 0 (R235).
-/

namespace Sys2Proof.Machine

open Sys2Proof.Safety

/-! ### The powers are not negative (46_papr R231) -/

theorem isFinite_of_fadd {a b : F64} (h : isFinite (fadd a b) = true) : isFinite a = true ∧ isFinite b = true := by
  unfold fadd at h
  split at h
  · exact ⟨rfl, rfl⟩
  · split at h <;> cases h
  all_goals cases h

theorem isFinite_of_fmul {a b : F64} (h : isFinite (fmul a b) = true) : isFinite a = true ∧ isFinite b = true := by
  unfold fmul at h
  split at h
  · exact ⟨rfl, rfl⟩
  · cases h
  · split at h <;> cases h
  · split at h <;> cases h
  all_goals cases h

theorem fmul_self_eq_fin {v : F64} (h : isFinite (fmul v v) = true) : ∃ m e, fmul v v = .fin false m e := by
  obtain ⟨neg, m, e, rfl⟩ := (isFinite_iff v).1 (isFinite_of_fmul h).1
  rw [fmul, bne_self_eq_false] at h ⊢
  exact roundF64_eq_fin h

theorem fadd_false_eq_fin {ma ea mb eb : Nat} (h : isFinite (fadd (.fin false ma ea) (.fin false mb eb)) = true) :
    ∃ m e, fadd (.fin false ma ea) (.fin false mb eb) = .fin false m e := by
  have hsum : ¬ signedInt false (ma <<< (ea - min ea eb)) + signedInt false (mb <<< (eb - min ea eb)) < 0 := by
    simp only [signedInt, Bool.false_eq_true, if_false]
    exact not_lt.2 (by positivity)
  simp only [fadd, decide_eq_false hsum] at h ⊢
  split
  · exact ⟨0, 0, rfl⟩
  · next hne =>
    rw [if_neg hne] at h
    exact roundF64_eq_fin h

theorem power_eq_fin {x : Cx} (h : isFinite (power x) = true) : ∃ m e, power x = .fin false m e := by
  rw [power] at h ⊢
  obtain ⟨hre, him⟩ := isFinite_of_fadd h
  obtain ⟨ma, ea, hre⟩ := fmul_self_eq_fin hre
  obtain ⟨mb, eb, him⟩ := fmul_self_eq_fin him
  rw [hre, him] at h ⊢
  exact fadd_false_eq_fin h

/-- A finite power that is not above +0.0 is +0.0. -/
theorem power_eq_fzero {x : Cx} (h : isFinite (power x) = true) (hzero : flt fzero (power x) = false) :
    power x = fzero := by
  obtain ⟨m, e, hp⟩ := power_eq_fin h
  obtain ⟨-, -, hnorm⟩ : f64Canonical (.fin false m e) := hp ▸ canonical_power x
  rw [hp, ← Bool.not_eq_true, flt_fzero_fin] at hzero
  obtain rfl : m = 0 := by simpa using hzero
  obtain rfl : e = 0 := hnorm.resolve_left (by decide)
  exact hp

/-! ### The maximum (46_papr R232) -/

/-- The maximum from a first number on is that one or one of the others. -/
theorem foldl_fmax_mem (ps : List F64) (a : F64) : ps.foldl fmax a ∈ a :: ps := by
  refine List.foldlRecOn ps fmax (motive := (· ∈ a :: ps)) (List.mem_cons_self ..) fun m hm p hp => ?_
  rw [fmax]
  split
  · exact List.mem_cons_of_mem a hp
  · exact hm

/-- Neither of two finite numbers is above the larger. -/
theorem flt_fmax {a b : F64} (ha : isFinite a = true) (hb : isFinite b = true) :
    flt (fmax a b) a = false ∧ flt (fmax a b) b = false := by
  rw [fmax]
  split
  · next h => exact ⟨flt_asymm ha hb h, flt_irrefl b⟩
  · next h => exact ⟨flt_irrefl a, Bool.eq_false_of_not_eq_true h⟩

theorem isFinite_fmax {a b : F64} (ha : isFinite a = true) (hb : isFinite b = true) : isFinite (fmax a b) = true := by
  rw [fmax]
  split
  · exact hb
  · exact ha

/-- None of the finite numbers is above their maximum. -/
theorem flt_foldl_fmax : ∀ (ps : List F64) (a : F64), (∀ p ∈ a :: ps, isFinite p = true) →
    ∀ p ∈ a :: ps, flt (ps.foldl fmax a) p = false
  | [], a, _, p, hp => by
    obtain rfl := List.mem_singleton.1 hp
    exact flt_irrefl p
  | q :: ps, a, hfin, p, hp => by
    simp only [List.forall_mem_cons] at hfin
    obtain ⟨ha, hq, hps⟩ := hfin
    obtain ⟨hmaxa, hmaxq⟩ := flt_fmax ha hq
    have hmax := isFinite_fmax ha hq
    have hrest : ∀ y ∈ fmax a q :: ps, isFinite y = true := List.forall_mem_cons.2 ⟨hmax, hps⟩
    have ih := flt_foldl_fmax ps (fmax a q) hrest
    have hresult := hrest _ (foldl_fmax_mem ps (fmax a q))
    have hle := ih (fmax a q) (List.mem_cons_self ..)
    rcases List.mem_cons.1 hp with rfl | hp
    · exact flt_trans_le ha hmax hresult hmaxa hle
    · rcases List.mem_cons.1 hp with rfl | hp
      · exact flt_trans_le hq hmax hresult hmaxq hle
      · exact ih p (List.mem_cons_of_mem _ hp)

/-- Settles O30: where the maximum is the +0.0 it starts from, every power is +0.0, the first one among them. -/
theorem peakIsTheMaximum : Obligations.PeakIsTheMaximum := by
  intro xs hne hfin
  have hpowers : ∀ p ∈ fzero :: xs.map power, isFinite p = true :=
    List.forall_mem_cons.2 ⟨rfl, by simpa using hfin⟩
  have hmax : ∀ x ∈ xs, flt (peakOf (xs.map power)) (power x) = false := fun x hx =>
    flt_foldl_fmax _ _ hpowers _ (List.mem_cons_of_mem _ (List.mem_map_of_mem hx))
  refine ⟨?_, hmax⟩
  rcases List.mem_cons.1 (foldl_fmax_mem (xs.map power) fzero) with hzero | hmem
  · obtain ⟨x, hx⟩ := List.exists_mem_of_ne_nil xs hne
    have hle := hmax x hx
    rw [peakOf, hzero] at hle
    exact ⟨x, hx, hzero.trans (power_eq_fzero (hfin x hx) hle).symm⟩
  · obtain ⟨x, hx, hpower⟩ := List.mem_map.1 hmem
    exact ⟨x, hx, hpower.symm⟩

/-! ### PAPR_DB is not negative (46_papr R235) -/

/-- A finite number below +0.0 is negative. -/
theorem flt_fin_fzero (neg : Bool) (m e : Nat) : flt (.fin neg m e) fzero = true ↔ neg = true ∧ m ≠ 0 := by
  rw [fzero, flt_fin]
  cases neg <;> simp [signedInt, Nat.pos_iff_ne_zero]

/-- Ten times a number that is not below +0.0 is not, where it is finite. -/
theorem flt_fmul_ften_fzero {v : F64} (h : flt v fzero = false) (hfin : isFinite (fmul ften v) = true) :
    flt (fmul ften v) fzero = false := by
  obtain ⟨neg, m, e, rfl⟩ := (isFinite_iff v).1 (isFinite_of_fmul hfin).2
  obtain ⟨m₁, e₁, hten, -⟩ := i2f_eq_fin (k := 10) (by norm_num)
  rw [ften, hten, fmul, Bool.false_bne] at hfin ⊢
  obtain ⟨m', e', hround⟩ := roundF64_eq_fin hfin
  rw [← Bool.not_eq_true, flt_fin_fzero] at h
  rw [hround, ← Bool.not_eq_true, flt_fin_fzero]
  rintro ⟨rfl, hm'⟩
  obtain rfl : m = 0 := by simpa using h
  rw [mul_zero, roundF64, if_pos rfl] at hround
  cases hround
  exact hm' rfl

/-- The clamped ratio is a finite number of at least 1.0 (46_papr R233). -/
theorem clampRatio_spec {r : F64} (hcan : f64Canonical r) (hfin : isFinite r = true) :
    unpack (pack (clampRatio r)) = clampRatio r ∧ isFinite (clampRatio r) = true ∧
      flt (clampRatio r) (i2f 1) = false := by
  have hclamp : isFinite (clampRatio r) = true ∧ flt (clampRatio r) (i2f 1) = false := by
    rw [clampRatio]
    split
    · exact ⟨isFinite_i2f (by norm_num), flt_irrefl _⟩
    · next h => exact ⟨hfin, Bool.eq_false_of_not_eq_true h⟩
  exact ⟨unpack_pack_of_finite (canonical_clampRatio hcan) hclamp.1, hclamp⟩

/-- A monotone LOG10 with LOG10(1) = +0 is not negative from 1.0 on. -/
theorem flt_log10_fzero (hone : Log10Exact1 Config.log10) (hmono : Log10Monotone Config.log10) {r : F64}
    (hr : unpack (pack r) = r) (hfin : isFinite r = true) (hle : flt r (i2f 1) = false) :
    flt (log10 r) fzero = false := by
  have honeFin : isFinite (i2f 1) = true := isFinite_i2f (by norm_num)
  have hpack : unpack (pack (i2f 1)) = i2f 1 := unpack_pack_of_finite (canonical_i2f 1) honeFin
  have h := hmono (pack (i2f 1)) (pack r) (by rwa [hpack]) (by rwa [hr]) (by rwa [hpack, hr])
  rwa [hone] at h

/-- Settles O33: LOG10 of the clamped ratio is not negative, so ten times it is not, and its pattern stands for it. -/
theorem paprIsNotNegative : Obligations.PaprIsNotNegative := by
  intro hone hmono s t cs h herr
  rcases exec_cases h with ⟨r, hr⟩ | ⟨u, hu, rfl⟩
  · obtain ⟨m, -, hkind, rfl⟩ := raises_state hr
    exact absurd herr hkind
  · obtain ⟨-, xs, v, -, -, hpapr, rfl⟩ := hu
    obtain ⟨-, -, -, -, -, hratio, hdb, hfin⟩ := paprOf_ok hpapr
    obtain ⟨hpack, hclampFin, hclamp⟩ := clampRatio_spec (canonical_fdiv _ _) hratio
    have hpaprPack : unpack (pack v.papr) = v.papr := unpack_pack_of_finite (hdb ▸ canonical_fmul _ _) hfin
    rw [completed_eq, finish_paprDb, commitPapr_paprDb, hpaprPack]
    rw [hdb] at hfin ⊢
    exact flt_fmul_ften_fzero (flt_log10_fzero hone hmono hpack hclampFin hclamp) hfin

end Sys2Proof.Machine
end

section
/-!
PROOF. Two signals whose PAPR is known (46_papr): zeros have no energy (R234), and QPSK symbols have 0 dB (R238).
-/

namespace Sys2Proof.Machine

open Sys2Proof.Safety

/-! ### A signal of zeros (46_papr R234) -/

/-- A sample of zeros is finite and has power +0.0, whatever the signs. -/
theorem sample_of_zeros {x : Cx} (hre : x.re = 0#64 ∨ x.re = 0x8000000000000000#64)
    (him : x.im = 0#64 ∨ x.im = 0x8000000000000000#64) : cxFinite x = true ∧ power x = fzero := by
  obtain ⟨re, im⟩ := x
  rcases hre with rfl | rfl <;> rcases him with rfl | rfl <;> decide

/-- Settles O32: the powers and their sum are +0.0, and so is the mean. -/
theorem zeroEnergyIsRefused : Obligations.ZeroEnergyIsRefused := by
  intro s cs x hcfg hx hzeros
  obtain ⟨hlo, hhi⟩ := streamLen_bounds hcfg
  have hexec := exec_papr_of_holds hcfg hx
  obtain ⟨-, -, -, -, hmem⟩ := exec_papr_frame hexec
  have hsample : ∀ i < streamLen s, cxFinite (x i) = true ∧ power (x i) = fzero := fun i hi =>
    sample_of_zeros (hzeros i hi).1 (hzeros i hi).2
  have hfin : AllFinite s x := fun i hi => (hsample i hi).1
  have hpowers : ∀ y ∈ (List.range (streamLen s)).map x, power y = fzero := by
    simpa using fun i hi => (hsample i hi).2
  have hsum : sumOf (((List.range (streamLen s)).map x).map power) = fzero := by
    refine List.foldlRecOn _ fadd (motive := (· = fzero)) rfl fun a ha p hp => ?_
    obtain ⟨y, hy, rfl⟩ := List.mem_map.1 hp
    rw [ha, hpowers y hy]
    rfl
  have hmean : fdiv fzero (i2f (streamLen s)) = fzero := fdiv_i2f_zero hlo (by omega)
  have h := paprResult_of_finite_powers s (scanSamples_of_allFinite hfin) (fun y hy => by rw [hpowers y hy]; rfl) hsum
    rfl hmean rfl rfl
  have htests : isFinite fzero = true ∧ isZero fzero = true := by decide
  simp only [htests, Bool.true_eq_false, if_false, if_true] at h
  obtain ⟨hdone, hpapr, hvalid⟩ := h
  exact ⟨_, hexec, hdone, hvalid, hpapr, hmem⟩

/-! ### A stream of symbols (46_papr R238) -/

/-- A symbol is finite and has power 2.0. -/
theorem sample_of_symbol {x : Cx} (h : IsSymbol x) : cxFinite x = true ∧ power x = i2f 2 := by
  have hword : ∀ b, symbolWord b = 0x3FF0000000000000#64 ∨ symbolWord b = 0xBFF0000000000000#64 := fun b => by
    unfold symbolWord
    split <;> simp
  obtain ⟨b0, b1, rfl⟩ := h
  rcases hword b0 with h0 | h0 <;> rcases hword b1 with h1 | h1 <;> rw [h0, h1] <;> decide +kernel

/-- LOG10(1) = +0 gives a clamped ratio of 1.0 a PAPR of +0 dB. -/
theorem paprDbOf_clampRatio_one (h : Log10Exact1 Config.log10) : paprDbOf (clampRatio (i2f 1)) = fzero := by
  have hclamp : clampRatio (i2f 1) = i2f 1 := by decide +kernel
  rw [hclamp, paprDbOf, log10, h]
  decide +kernel

/-- Settles O31: all powers are 2.0, so the peak and the mean are, and their ratio is 1.0. -/
theorem paprOfSymbolsIsZeroDb : Obligations.PaprOfSymbolsIsZeroDb := by
  intro hone s cs x hcfg hx hsymbols
  obtain ⟨hlo, hhi⟩ := streamLen_bounds hcfg
  set xs := (List.range (streamLen s)).map x with hxs
  have hlen : xs.length = streamLen s := by simp [hxs]
  have hscan : scanSamples xs = .ok () :=
    scanSamples_of_allFinite fun i hi => (sample_of_symbol (hsymbols i hi)).1
  have hpowers : ∀ y ∈ xs, power y = i2f 2 := by
    simpa [hxs] using fun i hi => (sample_of_symbol (hsymbols i hi)).2
  have hfin : ∀ y ∈ xs, isFinite (power y) = true := fun y hy => by
    rw [hpowers y hy]
    exact isFinite_i2f (by norm_num)
  have hsum : sumOf (xs.map power) = i2f (2 * streamLen s) := by
    have hreplicate : xs.map power = List.replicate (streamLen s) (i2f 2) :=
      List.eq_replicate_iff.2 ⟨by simpa using hlen, by simpa using hpowers⟩
    rw [hreplicate, mul_comm, ← Nat.zero_add (streamLen s * 2)]
    exact foldl_fadd_replicate 2 (streamLen s) 0 (by omega)
  have hpeak : peakOf (xs.map power) = i2f 2 := by
    obtain ⟨⟨y, hy, hpeak⟩, -⟩ := peakIsTheMaximum xs (List.ne_nil_of_length_pos (by omega)) hfin
    rw [hpeak, hpowers y hy]
  have hmean : fdiv (i2f (2 * streamLen s)) (i2f (streamLen s)) = i2f 2 := fdiv_i2f two_pos hlo (by omega)
  have hratio : fdiv (i2f 2) (i2f 2) = i2f 1 := fdiv_i2f (a := 1) one_pos two_pos (by norm_num)
  have h := paprResult_of_finite_powers s hscan hfin hsum hpeak hmean hratio (paprDbOf_clampRatio_one hone)
  have hsumFin : isFinite (i2f (2 * streamLen s)) = true := isFinite_i2f (by omega)
  have htests : isZero (i2f 2) = false ∧ isFinite (i2f 1) = true ∧ isFinite fzero = true := by decide +kernel
  simp only [hsumFin, htests, Bool.true_eq_false, Bool.false_eq_true, if_false] at h
  obtain ⟨hdone, hvalid, hdb, hpeakPwr, hmeanPwr⟩ := h
  have htwo : pack (i2f 2) = 0x4000000000000000#64 := by decide +kernel
  exact ⟨_, exec_papr_of_holds hcfg hx, hdone, hvalid, hdb, hpeakPwr.trans htwo, hmeanPwr.trans htwo⟩

end Sys2Proof.Machine
end

section
/-!
PROOF. What a completion reports and what an error leaves (60_exceptions R251 to R258): each command reports its own
rows of the table, and a raise changes nothing but its VALID bit and, in the compute phase, the destination.
-/

namespace Sys2Proof.Machine

open Sys2Proof.Safety

/-- What a command can report stands in the table of errors (60_exceptions R251), a finite check of each row. -/
theorem detailLegal_of_canReport {i : Instr} {k : ErrKind} {d : BitVec 4} (h : canReport i k d = true) :
    detailLegal k d = true := by
  cases i <;> cases k <;> decide +revert

theorem canReport_success (i : Instr) : canReport i .noError 0#4 = true := by
  cases i <;> rfl

/-- The error of a raise is reported as it is. -/
theorem Raises.report {i : Instr} {s t : State} {r : Raise} (h : Raises i s r t) :
    t.status.err = r.kind ∧ t.status.detail = r.detail := by
  obtain ⟨m, -, -, rfl⟩ := raises_state h
  exact ⟨rfl, rfl⟩

/-- Settles O34: a raise is one of the command's rows, and a success reports detail 0. -/
theorem errorsEachCommandReports : Obligations.ErrorsEachCommandReports := by
  intro i s t h
  rcases exec_cases h with ⟨r, hr⟩ | ⟨u, -, rfl⟩
  · obtain ⟨-, hreport, -⟩ := id hr
    obtain ⟨hkind, hdetail⟩ := hr.report
    rwa [hkind, hdetail]
  · exact canReport_success i

/-- Every completion ends the command; a success reports index 0 (60_exceptions R254, R255). -/
theorem completion_of_exec {i : Instr} {s t : State} (h : exec i s = .next t) :
    t.status.busy = false ∧ t.status.done = true ∧
      (t.status.err = .noError → t.status.detail = 0#4 ∧ t.errIndex = 0#64) := by
  rcases exec_cases h with ⟨r, hr⟩ | ⟨u, -, rfl⟩
  · obtain ⟨m, -, hkind, rfl⟩ := raises_state hr
    exact ⟨rfl, rfl, fun hsuccess => absurd hsuccess hkind⟩
  · exact ⟨rfl, rfl, fun _ => ⟨rfl, rfl⟩⟩

/-- Settles O9: the report is one of the command's rows (O34), and no command writes HAZ or the set-up. -/
theorem everyCompletionEndsTheCommand : Obligations.EveryCompletionEndsTheCommand := by
  intro i s t h
  obtain ⟨hbusy, hdone, hsuccess⟩ := completion_of_exec h
  exact ⟨hbusy, hdone, detailLegal_of_canReport (errorsEachCommandReports i s t h), hsuccess, haz_sameSetup_of_exec h⟩

/-- A raise leaves every buffer as it was, or is one of the compute phase and forgets the destination
(60_exceptions R254). -/
theorem Raises.mem_cases {i : Instr} {s t : State} {r : Raise} (h : Raises i s r t) :
    (t.mem = s.mem ∧ (r.kind = .numerical → r.detail = 1#4 ∨ r.detail = 2#4 → destSize s i = 0)) ∨
      (t.mem = forgetDestination i (streamLen s) s.mem ∧ r.kind = .numerical ∧ (r.detail = 1#4 ∨ r.detail = 2#4)) := by
  obtain ⟨-, -, ⟨rfl, hsize⟩ | ⟨rfl, hcompute⟩⟩ := h <;> rw [dropOf_eq_dropGroup]
  · exact .inl ⟨dropGroup_mem _ s, hsize⟩
  · exact .inr ⟨dropGroup_mem _ _, hcompute⟩

/-- Settles O35: the registers by `dropGroup_frame`, the buffers by the two ways a raise leaves them. -/
theorem errorsLeaveTheResultsAlone : Obligations.ErrorsLeaveTheResultsAlone := by
  intro i s t h herr
  rcases exec_cases h with ⟨r, hr⟩ | ⟨u, -, rfl⟩
  · obtain ⟨hkind, hdetail⟩ := hr.report
    have hframe : SameVar s t ∧ SamePapr s t ∧ SameBer s t ∧ KeepCtr s t := by
      obtain ⟨m, -, -, rfl⟩ := raises_state hr
      obtain ⟨-, -, hvar, hpapr, hber, hctr, -⟩ := dropGroup_frame (ownGroup i) (commitMem m s)
      exact ⟨hvar, hpapr, hber, hctr⟩
    obtain ⟨hvar, hpapr, hber, hctr⟩ := hframe
    refine ⟨hvar, hpapr, hber, hctr, onlyTheDestinationChanges i s t h, ?_⟩
    rw [hkind, hdetail]
    rcases hr.mem_cases with ⟨hmem, hsize⟩ | ⟨hmem, hnumerical, hcompute⟩
    · refine ⟨fun _ => keepMem_of_mem_eq hmem, fun hnumerical hcompute a hlo hhi => ?_⟩
      rw [hsize hnumerical hcompute] at hhi
      omega
    · refine ⟨fun hother => ?_, fun _ _ a hlo hhi => hmem ▸ memRead_forgetDestination_of_inside i s hlo hhi⟩
      rcases hother with hkind | ⟨h1, h2⟩
      · exact absurd hnumerical hkind
      · exact absurd hcompute (not_or.2 ⟨h1, h2⟩)
  · exact absurd rfl herr

end Sys2Proof.Machine
end

section
/-!
PROOF. The shape of the state (20_memory R62, 60_exceptions R251): a command writes its destination only, which lies in
the buffers under a valid configuration, and the Host writes buffer bytes only where the bus has them.
-/

namespace Sys2Proof.Machine

open Sys2Proof.Safety

/-! ### The memory -/

/-- The memory has its canonical form and lists buffer addresses only (20_memory R62). -/
def MemShape (m : Mem) : Prop := memWf m = true ∧ ∀ c ∈ m, 0x040000 ≤ c.1 ∧ c.1 < 0x150000

theorem memInv_iff (s : State) : MemInv s ↔ MemShape s.mem := Iff.rfl

theorem MemShape.memForget {m : Mem} (h : MemShape m) (a n : Nat) : MemShape (memForget m a n) :=
  ⟨memWf_memForget a n h.1, fun c hc => h.2 c (List.mem_of_mem_filter hc)⟩

theorem MemShape.forgetDestination {m : Mem} (h : MemShape m) (i : Instr) (len : Nat) :
    MemShape (forgetDestination i len m) := by
  cases i with
  | qmap _ _ | mod _ _ | demod _ _ | chan _ _ | detect _ _ => exact h.memForget _ _
  | nop | check | bercnt | papr _ => exact h

/-- Bytes stored inside the buffers keep the memory there. -/
theorem MemShape.memWriteBytes {m : Mem} (h : MemShape m) {a : Nat} {bs : List Byte}
    (hrange : bs = [] ∨ 0x040000 ≤ a ∧ a + bs.length ≤ 0x150000) : MemShape (memWriteBytes m a bs) := by
  rcases hrange with rfl | ⟨hlo, hhi⟩
  · exact h
  · refine ⟨memWf_memWriteBytes bs m a h.1, fun c hc => ?_⟩
    rcases mem_memWriteBytes bs hc with hnew | hold
    · omega
    · exact h.2 c hold

/-! ### What a command commits -/

theorem Commits.cfgValid {i : Instr} {s u : State} (h : Commits s u i) (hi : i ≠ .nop) : CfgValid s := by
  cases i with
  | nop => exact absurd rfl hi
  | _ => exact h.1

/-- A destination with bytes lies in the buffers under a valid configuration (20_memory R62). -/
theorem destination_in_buffers {s : State} (hcfg : CfgValid s) (i : Instr) :
    destSize s i = 0 ∨ 0x040000 ≤ destBase i ∧ destBase i + destSize s i ≤ 0x150000 := by
  obtain ⟨-, hlen⟩ := streamLen_bounds hcfg
  cases i with
  | qmap cd _ | mod cd _ | demod cd _ | chan cd _ =>
    have hcd := cd.isLt
    simp only [destBase, destSize, cbBase_eq]
    omega
  | detect bd _ =>
    have hbd := bd.isLt
    simp only [destBase, destSize, bbBase_eq]
    omega
  | nop | check | bercnt | papr _ => exact .inl rfl

/-- A success stores as many bytes as the destination has, from its base on (10_state R40, R41). -/
theorem Commits.mem_eq {i : Instr} {s u : State} (h : Commits s u i) :
    ∃ bs : List Byte, bs.length = destSize s i ∧ u.mem = memWriteBytes s.mem (destBase i) bs := by
  cases i with
  | nop => exact ⟨[], rfl, congrArg State.mem h⟩
  | check =>
    obtain ⟨-, -, rfl⟩ := h
    exact ⟨[], rfl, rfl⟩
  | qmap cd bs =>
    obtain ⟨-, bytes, hread, -, rfl⟩ := h
    exact ⟨_, by rw [length_samplesBytes, length_mapBits _ _ (length_of_readBits hread)]; rfl, rfl⟩
  | mod cd cs =>
    obtain ⟨-, xs, ys, -, -, hblocks, rfl⟩ := h
    exact ⟨_, by rw [length_samplesBytes, shapeBlocks_length (shapeOk_mod _) hblocks]; rfl, rfl⟩
  | demod cd cs =>
    obtain ⟨-, xs, ys, -, -, hblocks, rfl⟩ := h
    exact ⟨_, by rw [length_samplesBytes, shapeBlocks_length (shapeOk_demod _) hblocks]; rfl, rfl⟩
  | chan cd cs =>
    obtain ⟨-, -, xs, ys, hread, -, hnoise, rfl⟩ := h
    exact ⟨_, by rw [length_samplesBytes, addNoise_length hnoise, length_of_readSamples hread]; rfl, rfl⟩
  | detect bd cs =>
    obtain ⟨-, xs, hread, -, rfl⟩ := h
    exact ⟨_, by rw [length_decideBits, length_of_readSamples hread]; rfl, rfl⟩
  | bercnt =>
    obtain ⟨-, _, _, -, -, -, -, rfl⟩ := h
    exact ⟨[], rfl, rfl⟩
  | papr cs =>
    obtain ⟨-, _, _, -, -, -, rfl⟩ := h
    exact ⟨[], rfl, rfl⟩

theorem Commits.memShape {i : Instr} {s u : State} (h : Commits s u i) (hs : MemShape s.mem) : MemShape u.mem := by
  by_cases hi : i = .nop
  · subst hi
    exact (congrArg State.mem h : u.mem = s.mem) ▸ hs
  · obtain ⟨bs, hlen, hmem⟩ := h.mem_eq
    rw [hmem]
    refine hs.memWriteBytes ((destination_in_buffers (h.cfgValid hi) i).imp (fun hsize => ?_) fun hrange => ?_)
    · exact List.eq_nil_of_length_eq_zero (hlen.trans hsize)
    · rwa [hlen]

/-! ### The Engine's step -/

theorem memShape_exec {i : Instr} {s t : State} (hs : MemShape s.mem) (h : exec i s = .next t) : MemShape t.mem := by
  rcases exec_cases h with ⟨r, hr⟩ | ⟨u, hu, rfl⟩
  · rcases hr.mem_cases with ⟨hmem, -⟩ | ⟨hmem, -⟩ <;> rw [hmem]
    · exact hs
    · exact hs.forgetDestination i _
  · exact hu.memShape hs

/-- A completion leaves a legal report (60_exceptions R251, R255) and no command in flight. -/
theorem shapeInv_exec {i : Instr} {s t : State} (hs : ShapeInv s) (h : exec i s = .next t) : ShapeInv t := by
  obtain ⟨hmem, -, hmark⟩ := hs
  obtain ⟨hbusy, -, hlegal, hsuccess, -, hsetup⟩ := everyCompletionEndsTheCommand i s t h
  obtain ⟨-, -, -, -, -, -, -, -, hmark', -⟩ := hsetup
  exact ⟨memShape_exec hmem h, ⟨hlegal, fun herr => (hsuccess herr).2, by simp [hbusy]⟩, hmark'.trans hmark⟩

theorem shapeInv_illegalCommand {s : State} (hs : ShapeInv s) (k : Illegal) : ShapeInv (illegalCommand k s) := by
  obtain ⟨hmem, -, hmark⟩ := hs
  cases k <;> exact ⟨hmem, ⟨rfl, ErrKind.noConfusion, Bool.noConfusion⟩, hmark⟩

theorem shapeInv_engineStep {s t : State} (hs : ShapeInv s) (h : engineStep s = .next t) : ShapeInv t := by
  unfold engineStep at h
  split at h
  · exact shapeInv_exec hs h
  · cases h
    exact shapeInv_illegalCommand hs _

/-! ### The Host's step -/

theorem statusInv_reset {s : State} (hstatus : s.status = Status.reset) (hindex : s.errIndex = 0#64) : StatusInv s := by
  rw [StatusInv, hstatus]
  exact ⟨rfl, fun _ => hindex, Bool.noConfusion⟩

theorem memShape_abandonedMem {s : State} (hs : MemShape s.mem) : MemShape (abandonedMem s) := by
  by_cases hlegal : s.status.busy = true ∧ (∃ i, decode s.cmd = .ok i) ∧ CfgValid s
  · obtain ⟨hbusy, ⟨i, hi⟩, hcfg⟩ := hlegal
    rw [abandonedMem_of_legal hbusy hi hcfg]
    exact hs.forgetDestination i _
  · have hkeep : abandonedMem s = s.mem := by
      by_cases hbusy : s.status.busy = true
      · exact abandonedMem_of_illegal (by simpa [hbusy, imp_iff_not_or] using hlegal)
      · exact abandonedMem_of_idle (Bool.eq_false_of_not_eq_true hbusy)
    rwa [hkeep]

theorem shapeInv_softReset {s : State} (hs : ShapeInv s) : ShapeInv (softReset s) := by
  obtain ⟨hmem, -, hmark⟩ := hs
  exact ⟨memShape_abandonedMem hmem, statusInv_reset rfl rfl, hmark⟩

theorem shapeInv_hardReset (s : State) : ShapeInv (hardReset s) :=
  ⟨⟨rfl, by simp [hardReset]⟩, statusInv_reset rfl rfl, rfl⟩

/-- An issue reports nothing (40_host_access R116). -/
theorem shapeInv_issue {s : State} (hs : ShapeInv s) (w : Word) : ShapeInv (issue w s) := by
  obtain ⟨hmem, -, hmark⟩ := hs
  exact ⟨hmem, ⟨rfl, fun _ => rfl, fun _ => ⟨rfl, rfl⟩⟩, hmark⟩

theorem shapeInv_unlessBusy {s s' : State} (hs : ShapeInv s) (hs' : ShapeInv s') : ShapeInv (unlessBusy s s') := by
  rw [unlessBusy]
  split
  · exact hs
  · exact hs'

theorem shapeInv_writeCtrl {s : State} (hs : ShapeInv s) (v : Word) : ShapeInv (writeCtrl v s) := by
  rw [writeCtrl]
  split
  · exact shapeInv_softReset hs
  · exact hs

/-- Clearing DONE and HAZ leaves a legal report legal. -/
theorem shapeInv_writeStatus {s : State} (hs : ShapeInv s) (v : Word) : ShapeInv (writeStatus v s) := by
  obtain ⟨hmem, ⟨hlegal, hindex, hbusy⟩, hmark⟩ := hs
  rw [writeStatus_eq]
  exact ⟨hmem, ⟨hlegal, hindex, fun h => ⟨by simp [hbusy h], (hbusy h).2⟩⟩, hmark⟩

theorem shapeInv_regWrite {s : State} (hs : ShapeInv s) (r : Reg) (v : Word) : ShapeInv (regWrite r v s) := by
  cases r with
  | ctrl => exact shapeInv_writeCtrl hs v
  | status => exact shapeInv_writeStatus hs v
  | cmd => exact shapeInv_unlessBusy hs (shapeInv_issue hs v)
  | cfgNsub | cfgNsym | cfgWavelet | snrDb | noiseSeed => exact shapeInv_unlessBusy hs hs
  | _ => exact hs

/-- An admitted write outside the register file lies in the buffers (20_memory R62, R66). -/
theorem admits_in_buffers {a n : Nat} (h : admits a n = true) (hregs : ¬ inRegisters a = true) :
    0x040000 ≤ a ∧ a + n ≤ 0x150000 := by
  rw [inRegisters_iff] at hregs
  obtain ⟨hsize, halign, hrange⟩ := (admits_iff a n).1 h
  rcases hsize with rfl | rfl | rfl | rfl <;> omega

theorem shapeInv_busWrite {s : State} (hs : ShapeInv s) (a n : Nat) (v : Word) : ShapeInv (busWrite a n v s) := by
  rw [busWrite]
  split
  · next hadmits =>
    split
    · rw [regWriteAt]
      split
      · exact hs
      · exact shapeInv_regWrite hs _ v
    · next hregs =>
      obtain ⟨hmem, hrest⟩ := id hs
      have hrange := length_bytesOf n v ▸ admits_in_buffers hadmits hregs
      exact shapeInv_unlessBusy hs ⟨((memInv_iff s).1 hmem).memWriteBytes (.inr hrange), hrest⟩
  · exact hs

theorem shapeInv_performInput {s : State} (hs : ShapeInv s) (i : Input) : ShapeInv (performInput i s) := by
  cases i with
  | read a n => exact hs
  | write a n v => exact shapeInv_busWrite hs a n v
  | wait =>
    rw [performInput_wait]
    exact hs
  | hardReset => exact shapeInv_hardReset s

theorem shapeInv_hostStep {s : State} (hs : ShapeInv s) : ShapeInv (hostStep s) := by
  rw [hostStep]
  split
  · exact hs
  · next i rest _ => exact shapeInv_performInput (s := hostTick { s with inputs := rest }) hs i

/-- Settles O54: after a reset the memory is empty, nothing is reported and no VALID bit is set. -/
theorem resetMeetsTheInvariants : Obligations.ResetMeetsTheInvariants :=
  ⟨shapeInv_hardReset State.reset, validInv_of_reset rfl⟩

/-- Settles O55: the Engine's completion and the Host's step, each by its own lemma. -/
theorem everyStepKeepsTheShape : Obligations.EveryStepKeepsTheShape := by
  intro s t hs h
  rw [step] at h
  split at h
  · exact shapeInv_engineStep hs h
  · cases h
    exact shapeInv_hostStep hs

end Sys2Proof.Machine
end

section
/-!
PROOF. A command in flight (60_exceptions R256, 70_reset_and_hazards R290 to R295): its completion step is exec of the
word in CMD, and until then a bus write changes IE, DONE and HAZ only, or abandons the command by a soft reset.
-/

namespace Sys2Proof.Machine

/-- Settles O6: the Engine's step of a word that decodes. -/
theorem stepRunsTheDecodedCommand : Obligations.StepRunsTheDecodedCommand := by
  intro s i hbusy hnext hdecode
  rw [step_eq_engineStep hbusy hnext, engineStep, hdecode]

/-! ### Bus writes while BUSY -/

/-- Of the state s, at most IE, DONE and HAZ differ in t. -/
def SameButFlags (s t : State) : Prop :=
  ∃ ie done haz, t = { s with ie := ie, status := { s.status with done := done, haz := haz } }

theorem sameButFlags_refl (s : State) : SameButFlags s s := ⟨s.ie, s.status.done, s.status.haz, rfl⟩

theorem sameButFlags_refuseWrite (s : State) : SameButFlags s (refuseWrite s) := ⟨s.ie, s.status.done, true, rfl⟩

/-- While BUSY = 1 a register write is the soft reset or changes at most IE, DONE and HAZ (70_reset_and_hazards
R290). -/
theorem regWrite_cases_of_busy {s : State} (hbusy : s.status.busy = true) (r : Reg) (v : Word) :
    (r = .ctrl ∧ v.getLsbD 1 = true ∧ regWrite r v s = softReset s) ∨ SameButFlags s (regWrite r v s) := by
  cases r with
  | ctrl =>
    cases hv : v.getLsbD 1 with
    | true => exact .inl ⟨rfl, rfl, writeCtrl_of_set hv s⟩
    | false => exact .inr ⟨_, s.status.done, s.status.haz, writeCtrl_of_clear hv s⟩
  | status => exact .inr ⟨s.ie, _, _, writeStatus_eq v s⟩
  | cmd | cfgNsub | cfgNsym | cfgWavelet | snrDb | noiseSeed =>
    rw [regWrite, unlessBusy_of_busy hbusy]
    exact .inr (sameButFlags_refuseWrite s)
  | _ => exact .inr (sameButFlags_refl s)

/-- CTRL is register 1 of the map (10_state R20). -/
theorem eq_one_of_regList_ctrl {k : Nat} (h : regList[k]? = some .ctrl) : k = 1 := by
  have hnodup : regList.Nodup := by decide
  exact ((List.getElem?_inj (i := 1) (by decide) hnodup).1 h.symm).symm

/-- A buffer write while BUSY = 1 is refused (40_host_access R120). -/
theorem busWrite_buffer_of_busy {s : State} (hbusy : s.status.busy = true) {a n : Nat} (hadmits : admits a n = true)
    (hregs : ¬ inRegisters a = true) (v : Word) : busWrite a n v s = refuseWrite s := by
  rw [busWrite, if_pos hadmits, if_neg hregs, bufWrite, unlessBusy_of_busy hbusy]

/-- While BUSY = 1 a bus write is the soft reset or changes at most IE, DONE and HAZ. -/
theorem busWrite_cases_of_busy {s : State} (hbusy : s.status.busy = true) (a n : Nat) (v : Word) :
    (a = 0x008 ∧ v.getLsbD 1 = true ∧ busWrite a n v s = softReset s) ∨ SameButFlags s (busWrite a n v s) := by
  by_cases hadmits : admits a n = true
  · by_cases hregs : inRegisters a = true
    · obtain ⟨-, halign, hrange⟩ := (admits_iff a n).1 hadmits
      rw [inRegisters_iff] at hregs
      obtain rfl : n = 8 := by omega
      obtain ⟨k, rfl⟩ := Nat.dvd_of_mod_eq_zero halign
      cases hr : regList[k]? with
      | none =>
        rw [busWrite_reserved (by omega) hr]
        exact .inr (sameButFlags_refl s)
      | some r =>
        rw [busWrite_offset (by omega) hr]
        refine (regWrite_cases_of_busy hbusy r v).imp_left fun ⟨hctrl, hreset⟩ => ?_
        obtain rfl : k = 1 := eq_one_of_regList_ctrl (hctrl ▸ hr)
        exact ⟨rfl, hreset⟩
    · rw [busWrite_buffer_of_busy hbusy hadmits hregs]
      exact .inr (sameButFlags_refuseWrite s)
  · rw [busWrite_of_refused (Bool.eq_false_of_not_eq_true hadmits)]
    exact .inr (sameButFlags_refl s)

/-- The registers from NOISE_CTR on read as before where only flags differ. -/
theorem SameButFlags.regValue_eq {s t : State} (h : SameButFlags s t) {r : Reg}
    (hr : r ∈ [Reg.noiseCtr, .noiseVar, .paprDb, .peakPwr, .meanPwr, .errBits, .totalBits, .ber, .errIndex]) :
    regValue r t = regValue r s := by
  obtain ⟨ie, done, haz, rfl⟩ := h
  cases r with
  | id | ctrl | status | cmd | cfgNsub | cfgNsym | cfgWavelet | snrDb | noiseSeed => exact absurd hr (by decide)
  | _ => rfl

/-- Settles O44: the refused registers by their number, and every other write by `busWrite_cases_of_busy`. -/
theorem busyWritesAreRefused : Obligations.BusyWritesAreRefused := by
  intro s a n v hbusy
  refine ⟨fun hadmits haddr => ?_, fun hreset r hr => ?_⟩
  · have hwrite := fun k => busWrite_register k v s
    obtain ⟨-, -, -, -, hsize⟩ := (admits_iff_checks a n).1 hadmits
    rcases haddr with hbuffer | rfl | rfl | rfl | rfl | rfl | rfl
    · exact busWrite_buffer_of_busy hbusy hadmits (by rw [inRegisters_iff]; omega) v
    all_goals obtain rfl := hsize (by omega)
    · exact (hwrite 3).trans (unlessBusy_of_busy hbusy _)
    · exact (hwrite 4).trans (unlessBusy_of_busy hbusy _)
    · exact (hwrite 5).trans (unlessBusy_of_busy hbusy _)
    · exact (hwrite 6).trans (unlessBusy_of_busy hbusy _)
    · exact (hwrite 7).trans (unlessBusy_of_busy hbusy _)
    · exact (hwrite 8).trans (unlessBusy_of_busy hbusy _)
  · rcases busWrite_cases_of_busy hbusy a n v with ⟨haddr, hset, -⟩ | hflags
    · rw [hreset haddr] at hset
      cases hset
    · exact hflags.regValue_eq hr

/-! ### The way to the completion step -/

/-- A step of the Host while BUSY = 1 abandons the command or leaves it one step fewer to wait. -/
theorem hostStep_of_busy {s : State} (hbusy : s.status.busy = true) (hinputs : s.inputs ≠ []) :
    (hostStep s).status.busy = false ∨
      ((hostStep s).status.busy = true ∧ (hostStep s).patience = s.patience - 1) := by
  obtain ⟨i, rest, hcons⟩ := List.exists_cons_of_ne_nil hinputs
  rw [hostStep_cons hcons]
  cases i with
  | read a n => exact .inr ⟨hbusy, rfl⟩
  | write a n v =>
    rw [performInput]
    rcases busWrite_cases_of_busy (s := hostTick { s with inputs := rest }) hbusy a n v with
      ⟨-, -, hreset⟩ | ⟨ie, done, haz, hflags⟩
    · rw [hreset]
      exact .inl rfl
    · rw [hflags]
      exact .inr ⟨hbusy, rfl⟩
  | wait =>
    rw [performInput_wait]
    exact .inr ⟨hbusy, rfl⟩
  | hardReset => exact .inl rfl

theorem completion_comes_within (n : Nat) : ∀ s : State, s.status.busy = true → s.patience = n →
    ∃ k ≤ n, ∃ u : State, Host.Core.run Sys2Proof.core k s = .next u ∧
      (engineNext u = true ∨ u.status.busy = false) := by
  induction n with
  | zero => exact fun s hbusy hpatience => ⟨0, le_rfl, s, rfl, .inl (by simp [engineNext, hbusy, hpatience])⟩
  | succ n ih =>
    intro s hbusy hpatience
    by_cases hinputs : s.inputs = []
    · exact ⟨0, Nat.zero_le _, s, rfl, .inl (by simp [engineNext, hbusy, hinputs])⟩
    · have hstep : step s = .next (hostStep s) := step_eq_hostStep (.inr ⟨by omega, hinputs⟩)
      rcases hostStep_of_busy hbusy hinputs with hidle | ⟨hbusy', hpatience'⟩
      · exact ⟨1, by omega, hostStep s, core_run_next 0 hstep, .inr hidle⟩
      · obtain ⟨k, hk, u, hrun, hu⟩ := ih (hostStep s) hbusy' (by omega)
        exact ⟨k + 1, by omega, u, (core_run_next k hstep).trans hrun, hu⟩

/-- Settles O8, by induction on the Host steps still to come before the completion. -/
theorem completionComesWithinThePatience : Obligations.CompletionComesWithinThePatience :=
  fun s hbusy => completion_comes_within s.patience s hbusy rfl

end Sys2Proof.Machine
end

section
/-!
PROOF. The reset state (70_reset_and_hazards R280 to R284) and the variance it gives, and SNR_DB patterns that give none
(44_channel R192).
-/

namespace Sys2Proof.Machine

open Sys2Proof.Safety

/-- Settles O51: the reset registers are those of `State.reset`, and its memory is empty. -/
theorem hardResetValues : Obligations.HardResetValues := fun _ =>
  ⟨rfl, rfl, rfl, rfl, rfl, rfl, rfl, rfl, rfl, rfl, rfl, rfl, rfl, rfl, rfl, rfl, rfl, rfl, rfl, rfl, rfl,
    fun _ => rfl⟩

/-! ### CHECK after reset -/

theorem cfgValid_reset : CfgValid State.reset := ⟨⟨6, rfl⟩, by decide, by decide, by decide⟩

/-- 10^0 = 1 makes the variance of the reset registers 64 / 2. -/
theorem snrVariance_reset (h : Pow10Exact Config.pow10) : snrVariance State.reset = i2f 32 := by
  have hzero : fdiv (unpack 0#64) (i2f 10) = i2f 0 := by decide +kernel
  have hone : pow10 (i2f 0) = i2f 1 := by
    have hpow : pow10 (i2f 0) = unpack (Config.pow10 (pack (i2f 0))) := rfl
    rw [hpow, h 0 (by omega), pow_zero, unpack_pack_of_finite (canonical_i2f 1) (isFinite_i2f (by norm_num))]
  have htwo : fmul (i2f 2) (i2f 1) = i2f 2 := by decide +kernel
  calc snrVariance State.reset = fdiv (i2f 64) (fmul (i2f 2) (pow10 (fdiv (unpack 0#64) (i2f 10)))) := rfl
    _ = fdiv (i2f (32 * 2)) (i2f 2) := by rw [hzero, hone, htwo]
    _ = i2f 32 := fdiv_i2f (by norm_num) (by norm_num) (by norm_num)

/-- Settles O13: the variance is 32.0, which is in range. -/
theorem checkAfterReset : Obligations.CheckAfterReset := by
  refine ⟨cfgValid_reset, fun hpow => ?_⟩
  have hvalue := snrVariance_reset hpow
  have hvar : VarianceOk State.reset := by
    rw [VarianceOk, hvalue]
    decide +kernel
  have hpack : pack (i2f 32) = 0x4040000000000000#64 := by decide +kernel
  exact ⟨_, exec_check_of_varianceOk cfgValid_reset hvar, ⟨rfl, rfl, rfl, rfl, rfl, rfl⟩,
    (congrArg pack hvalue).trans hpack, rfl⟩

/-! ### An SNR_DB that is not finite (44_channel R192) -/

/-- A quotient by zero is not finite. -/
theorem isFinite_fdiv_zero (na nb : Bool) (ma ea eb : Nat) :
    isFinite (fdiv (.fin na ma ea) (.fin nb 0 eb)) = false := by
  rw [fdiv_zero]
  split <;> rfl

/-- A NaN gives a NaN, an infinite SNR no noise, and an SNR of minus infinity a quotient by zero. -/
theorem not_varianceOk_of_nonFinite {s : State} (hcfg : CfgValid s) (h : isFinite (unpack s.snrDb) = false) :
    ¬ VarianceOk s := by
  obtain ⟨-, -, hsym, hmax⟩ := id hcfg
  have hnsub : s.cfgNsub.toNat < 2 ^ 53 := ((Nat.le_mul_of_pos_right _ hsym).trans hmax).trans_lt (by norm_num)
  obtain ⟨m, e, hn, -⟩ := i2f_eq_fin hnsub
  rintro ⟨hfin, hpos⟩
  rw [snrVariance, hn] at hfin hpos
  cases hsnr : unpack s.snrDb with
  | nan =>
    have hdivisor : fmul (i2f 2) (pow10 (fdiv .nan (i2f 10))) = .nan := by decide +kernel
    rw [hsnr, hdivisor] at hfin
    cases hfin
  | inf neg =>
    have hdivisor : fmul (i2f 2) (pow10 (fdiv (.inf neg) (i2f 10))) = if neg then fzero else .inf false := by
      cases neg <;> decide +kernel
    rw [hsnr, hdivisor] at hfin hpos
    cases neg with
    | true => exact Bool.eq_false_iff.1 (isFinite_fdiv_zero false false m e 0) hfin
    | false => exact Bool.false_ne_true hpos
  | fin neg m e =>
    rw [hsnr] at h
    cases h

/-- Settles O14: the variance is out of range, which CHAN finds before it reads its source (60_exceptions R257). -/
theorem nonFiniteSnrIsOutOfRange : Obligations.NonFiniteSnrIsOutOfRange := by
  intro s cd cs hcfg h
  have hvar := not_varianceOk_of_nonFinite hcfg h
  obtain ⟨hdone, hsame, hvalid, hctr⟩ := raised_dropVar_frame ⟨.parameterRange, 1#4, 0⟩ s.mem s
  exact ⟨⟨_, exec_of_not_varianceOk hcfg hvar rfl, hdone, hvalid, hsame⟩,
    ⟨_, exec_of_not_varianceOk hcfg hvar rfl, hdone, hvalid, hsame, hctr, keepMem_of_mem_eq rfl⟩⟩

end Sys2Proof.Machine
end

section
/-!
PROOF. When a command faults (70_reset_and_hazards R281, R297): UnwrittenSource is the answer of the source scan and of
nothing else, so each command faults exactly where it reaches a source that is not wholly written.
-/

namespace Sys2Proof.Machine

open Sys2Proof.Safety

/-- The outcome is the fault exactly when `p` holds, and never a refusal. -/
def FaultsIff (o : Host.Outcome State Fault Refusal) (p : Prop) : Prop :=
  (o = .fault .unwrittenSource ↔ p) ∧ ∀ r, o ≠ .refused r

theorem faultsIff_next (t : State) : FaultsIff (.next t) False := by
  simp [FaultsIff]

theorem faultsIff_fault {p : Prop} (hp : p) : FaultsIff (.fault .unwrittenSource) p := by
  simp [FaultsIff, hp]

theorem FaultsIff.congr {o : Host.Outcome State Fault Refusal} {p q : Prop} (h : FaultsIff o p) (hpq : p ↔ q) :
    FaultsIff o q :=
  ⟨h.1.trans hpq, h.2⟩

theorem faultsIff_withCfg {s : State} {perform : Cfg → Host.Outcome State Fault Refusal} {p : Prop}
    (h : FaultsIff (perform (cfgOf s)) p) (drop : State → State) :
    FaultsIff (withCfg drop s perform) (CfgValid s ∧ p) := by
  rcases withCfg_cases drop s perform with ⟨d, hd, -, he⟩ | ⟨hcfg, he⟩ <;> rw [he]
  · have hinvalid : ¬ CfgValid s := fun hcfg => by simp [(cfgFailure_eq_none_iff s).2 hcfg] at hd
    exact (faultsIff_next _).congr (by simp [hinvalid])
  · exact h.congr (by simp [hcfg])

/-- A command that reads samples and then answers a next state. -/
theorem faultsIff_withSamples (c : CIdx) (len : Nat) (s : State) (result : List Cx → State) :
    FaultsIff (withSamples c len s fun xs => .next (result xs))
      (∃ j < 16 * len, memRead s.mem (cbBase c + j) = none) := by
  rw [← readSamples_eq_none]
  rcases withSamples_cases c len s fun xs => .next (result xs) with ⟨hnone, he⟩ | ⟨xs, hsome, he⟩ <;> rw [he]
  · exact faultsIff_fault hnone
  · exact (faultsIff_next _).congr (by simp [hsome])

/-- A command that reads bits goes on to what may itself fault. -/
theorem faultsIff_withBits {b : BIdx} {n : Nat} {s : State} {perform : List Byte → Host.Outcome State Fault Refusal}
    {p : Prop} (h : ∀ bs, FaultsIff (perform bs) p) :
    FaultsIff (withBits b n s perform) ((∃ j < n, memRead s.mem (bbBase b + j) = none) ∨ p) := by
  rw [← readBits_eq_none]
  rcases withBits_cases b n s perform with ⟨hnone, he⟩ | ⟨bs, hsome, he⟩ <;> rw [he]
  · exact faultsIff_fault (.inl hnone)
  · exact (h bs).congr (by simp [hsome])

/-- CHAN reads its source only when the variance is in range (60_exceptions R257). -/
theorem faultsIff_chanPerform (cd cs : CIdx) (s : State) :
    FaultsIff (chanPerform cd cs s (cfgOf s))
      (VarianceOk s ∧ ∃ j < 16 * streamLen s, memRead s.mem (cbBase cs + j) = none) := by
  rcases noiseVariance_cases (cfgOf s) s with ⟨hfin, hpos, hvar⟩ | ⟨hrange, hvar⟩ <;> rw [chanPerform, hvar]
  · have hok : VarianceOk s := ⟨hfin, hpos⟩
    exact (faultsIff_withSamples cs (streamLen s) s _).congr (by simp [hok])
  · have hbad : ¬ VarianceOk s := hrange
    exact (faultsIff_next _).congr (by simp [hbad])

/-- Some byte of a range is unwritten exactly when not all are written. -/
theorem exists_unwritten_iff (m : Mem) (a n : Nat) :
    (∃ j < n, memRead m (a + j) = none) ↔ ¬ ∀ j < n, memRead m (a + j) ≠ none := by
  simp only [not_forall, ne_eq, not_not, exists_prop]

theorem faultsIff_exec (i : Instr) (s : State) : FaultsIff (exec i s) (ReachesSource s i ∧ ¬ SourceWritten s i) := by
  cases i with
  | nop => exact (faultsIff_next _).congr (by simp [SourceWritten])
  | check => exact (faultsIff_withCfg (faultsIff_next _) _).congr (by simp [SourceWritten])
  | qmap cd bs =>
    refine (faultsIff_withCfg (faultsIff_withBits fun _ => faultsIff_next _) _).congr ?_
    rw [or_false, exists_unwritten_iff]
    rfl
  | mod cd cs | demod cd cs | detect cd cs | papr cs =>
    refine (faultsIff_withCfg (faultsIff_withSamples ..) _).congr ?_
    rw [exists_unwritten_iff]
    rfl
  | chan cd cs =>
    refine (faultsIff_withCfg (faultsIff_chanPerform cd cs s) _).congr ?_
    rw [exists_unwritten_iff, ← and_assoc]
    rfl
  | bercnt =>
    refine (faultsIff_withCfg (faultsIff_withBits fun _ => faultsIff_withBits fun _ => faultsIff_next _) _).congr ?_
    rw [or_false, exists_unwritten_iff, exists_unwritten_iff, ← not_and_or, ReachesSource, SourceWritten,
      Fin.forall_fin_two]
    rfl

/-- Settles O38: each command is a chain of checks whose one fault is that of the source scan. -/
theorem unwrittenSourceIsTheOnlyFault : Obligations.UnwrittenSourceIsTheOnlyFault := fun i s => faultsIff_exec i s

end Sys2Proof.Machine
end

section
/-!
PROOF. The lossless round trip of the baseline (43_modulation R178, third case): the exact transforms are inverse to
each other (R166), and the DFT of a block moved by at most tol moves by at most c_fwd N tol.
-/

namespace Sys2Proof.Machine

open Sys2Proof.Safety

/-! ### The exact transforms (43_modulation R166) -/

/-- exp(2 pi i / N). -/
noncomputable def unitRoot (N : Nat) : ℂ := Complex.exp (2 * Real.pi * Complex.I / N)

/-- The sum of IDFT_exact, before its scale. -/
noncomputable def idftSum (N : Nat) (v : Nat → ℂ) (n : Nat) : ℂ :=
  ∑ k ∈ Finset.range N, v k * Complex.exp (2 * Real.pi * Complex.I * k * n / N)

/-- The sum of DFT_exact, before its scale. -/
noncomputable def dftSum (N : Nat) (v : Nat → ℂ) (k : Nat) : ℂ :=
  ∑ n ∈ Finset.range N, v n * Complex.exp (-(2 * Real.pi * Complex.I * k * n / N))

theorem exp_eq_unitRoot_pow (N k n : Nat) :
    Complex.exp (2 * Real.pi * Complex.I * k * n / N) = (unitRoot N ^ k) ^ n := by
  rw [unitRoot, ← pow_mul, ← Complex.exp_nat_mul]
  congr 1
  push_cast
  ring

/-- A sum of N values of magnitude at most B, each turned by a factor of magnitude 1. -/
theorem norm_sum_turned_le {N : Nat} {v w : Nat → ℂ} {B : ℝ} (hw : ∀ k, ‖w k‖ = 1)
    (hv : ∀ k < N, ‖v k‖ ≤ B) : ‖∑ k ∈ Finset.range N, v k * w k‖ ≤ N * B := by
  have hterm : ∀ k ∈ Finset.range N, ‖v k * w k‖ ≤ B := fun k hk => by
    rw [norm_mul, hw, mul_one]
    exact hv k (Finset.mem_range.1 hk)
  simpa using norm_sum_le_of_le (Finset.range N) hterm

section
variable {N : Nat} (hN : 0 < N)
include hN

theorem norm_exp_eq_one (k n : Nat) : ‖Complex.exp (2 * Real.pi * Complex.I * k * n / N)‖ = 1 := by
  have hroot : ‖unitRoot N‖ = 1 := (Complex.isPrimitiveRoot_exp N hN.ne').norm'_eq_one hN.ne'
  rw [exp_eq_unitRoot_pow, norm_pow, norm_pow, hroot, one_pow, one_pow]

/-- The rows of the transform are orthogonal: a root of unity other than 1 has powers that sum to 0. -/
theorem sum_exp_mul_exp {k n : Nat} (hk : k < N) (hn : n < N) :
    ∑ m ∈ Finset.range N, Complex.exp (2 * Real.pi * Complex.I * k * m / N) *
      Complex.exp (-(2 * Real.pi * Complex.I * n * m / N)) = if k = n then (N : ℂ) else 0 := by
  have hroot : IsPrimitiveRoot (unitRoot N) N := Complex.isPrimitiveRoot_exp N hN.ne'
  have hne : unitRoot N ^ n ≠ 0 := pow_ne_zero n (Complex.exp_ne_zero _)
  have hpowers : ∀ m : Nat, Complex.exp (2 * Real.pi * Complex.I * k * m / N) *
      Complex.exp (-(2 * Real.pi * Complex.I * n * m / N)) = (unitRoot N ^ k * (unitRoot N ^ n)⁻¹) ^ m := fun m => by
    rw [Complex.exp_neg, exp_eq_unitRoot_pow, exp_eq_unitRoot_pow, mul_pow, inv_pow]
  simp only [hpowers]
  split
  · next h => simp [h, mul_inv_cancel₀ hne]
  · next h =>
    have hone : unitRoot N ^ k * (unitRoot N ^ n)⁻¹ ≠ 1 := fun hprod =>
      h (hroot.pow_inj hk hn ((mul_inv_eq_one₀ hne).1 hprod))
    have hcycle : (unitRoot N ^ k * (unitRoot N ^ n)⁻¹) ^ N = 1 := by
      rw [mul_pow, inv_pow, pow_right_comm, pow_right_comm _ n, hroot.pow_eq_one, one_pow, one_pow, inv_one, one_mul]
    rw [geom_sum_eq hone, hcycle, sub_self, zero_div]

/-- The transforms are inverse to each other, but for their scales. -/
theorem dftSum_idftSum (v : Nat → ℂ) {n : Nat} (hn : n < N) : dftSum N (idftSum N v) n = N * v n := by
  calc dftSum N (idftSum N v) n
      = ∑ m ∈ Finset.range N, ∑ k ∈ Finset.range N, v k * (Complex.exp (2 * Real.pi * Complex.I * k * m / N) *
          Complex.exp (-(2 * Real.pi * Complex.I * n * m / N))) := by
        simp only [dftSum, idftSum, Finset.sum_mul, mul_assoc]
    _ = ∑ k ∈ Finset.range N, v k * if k = n then (N : ℂ) else 0 := by
        rw [Finset.sum_comm]
        refine Finset.sum_congr rfl fun k hk => ?_
        rw [← Finset.mul_sum, sum_exp_mul_exp hN (Finset.mem_range.1 hk) hn]
    _ = N * v n := by simp [hn, mul_comm]

theorem norm_idftSum_le {v : Nat → ℂ} {B : ℝ} (hv : ∀ k < N, ‖v k‖ ≤ B) (n : Nat) : ‖idftSum N v n‖ ≤ N * B :=
  norm_sum_turned_le (fun k => norm_exp_eq_one hN k n) hv

theorem norm_dftSum_le {v : Nat → ℂ} {B : ℝ} (hv : ∀ n < N, ‖v n‖ ≤ B) (k : Nat) : ‖dftSum N v k‖ ≤ N * B :=
  norm_sum_turned_le (fun n => by rw [Complex.exp_neg, norm_inv, norm_exp_eq_one hN, inv_one]) hv

end

/-- The two scales of a normalization are not negative and undo the factor N (43_modulation R166). -/
theorem scales_spec {norm : DftNorm} {N : Nat} (hN : 0 < N) {cInv cFwd : ℝ} (hinv : IsInverseScale norm N cInv)
    (hfwd : IsForwardScale norm N cFwd) : 0 ≤ cInv ∧ 0 ≤ cFwd ∧ cFwd * (cInv * N) = 1 := by
  have hN' : (0 : ℝ) < N := by exact_mod_cast hN
  cases norm with
  | backward =>
    obtain rfl : cInv = 1 / N := hinv
    obtain rfl : cFwd = 1 := hfwd
    exact ⟨by positivity, zero_le_one, by field_simp⟩
  | ortho =>
    obtain rfl : cInv = 1 / Real.sqrt N := hinv
    obtain rfl : cFwd = 1 / Real.sqrt N := hfwd
    refine ⟨by positivity, by positivity, ?_⟩
    field_simp
    exact (Real.sq_sqrt hN'.le).symm

/-- The DFT of what lies within tol of the IDFT of v lies within c_fwd N tol of v. -/
theorem norm_dft_sub_le {N : Nat} (hN : 0 < N) {cInv cFwd tol : ℝ} (hfwd : 0 ≤ cFwd) (hscale : cFwd * (cInv * N) = 1)
    {v y : Nat → ℂ} (hy : ∀ m < N, ‖y m - cInv * idftSum N v m‖ ≤ tol) {n : Nat} (hn : n < N) :
    ‖cFwd * dftSum N y n - v n‖ ≤ cFwd * N * tol := by
  have hdiff : cFwd * dftSum N y n - v n = cFwd * dftSum N (fun m => y m - cInv * idftSum N v m) n := by
    have hlinear : dftSum N (fun m => y m - cInv * idftSum N v m) n =
        dftSum N y n - cInv * dftSum N (idftSum N v) n := by
      simp only [dftSum, sub_mul, Finset.sum_sub_distrib, Finset.mul_sum, mul_assoc]
    have hscale' : (cFwd : ℂ) * (cInv * N) = 1 := by exact_mod_cast hscale
    rw [hlinear, dftSum_idftSum hN v hn]
    linear_combination v n * hscale'
  rw [hdiff, norm_mul, Complex.norm_real, Real.norm_of_nonneg hfwd, mul_assoc]
  exact mul_le_mul_of_nonneg_left (norm_dftSum_le hN hy n) hfwd

/-! ### The computed transforms of a stream -/

theorem isCxValue_iff (x : Cx) (z : ℂ) : IsCxValue x z ↔ cxFinite x = true ∧ z = cxValue x := by
  rw [IsCxValue, Complex.ext_iff]
  rfl

/-- The stream of the computed transforms of the blocks of x (43_modulation R165, R167). -/
def transformed (f : DftNorm → List Cx → Nat → Cx) (s : State) (x : Nat → Cx) (i : Nat) : Cx :=
  f Config.dftNorm (blockOf s x (i / s.cfgNsub.toNat)) (i % s.cfgNsub.toNat)

theorem transformed_index (f : DftNorm → List Cx → Nat → Cx) {s : State} (x : Nat → Cx) (b : Nat) {n : Nat}
    (hn : n < s.cfgNsub.toNat) :
    transformed f s x (b * s.cfgNsub.toNat + n) = f Config.dftNorm (blockOf s x b) n := by
  rw [transformed, Nat.mul_add_mod', Nat.mod_eq_of_lt hn, Nat.add_comm, Nat.add_mul_div_right _ _ (by omega),
    Nat.div_eq_of_lt hn, Nat.zero_add]

theorem length_blockOf (s : State) (x : Nat → Cx) (b : Nat) : (blockOf s x b).length = s.cfgNsub.toNat := by
  simp [blockOf]

/-- The exact values of the samples of block b. -/
noncomputable def blockValues (s : State) (x : Nat → Cx) (b k : Nat) : ℂ := cxValue (x (b * s.cfgNsub.toNat + k))

/-- The samples of every block have magnitude at most B. -/
def StreamBound (B : ℝ) (s : State) (x : Nat → Cx) : Prop := ∀ i < streamLen s, ∀ u, IsCxValue (x i) u → ‖u‖ ≤ B

/-- A command of the baseline whose outputs are finite leaves their stream in the destination, and the configuration as
it found it. -/
theorem exec_of_transformed {s : State} {cd cs : CIdx} {x : Nat → Cx} (hcfg : CfgValid s)
    (hwavelet : s.cfgWavelet.toNat = 0) (hx : Holds s cs x) (hfin : AllFinite s x) {i : Instr}
    {f : DftNorm → List Cx → Nat → Cx}
    (hi : (i = .mod cd cs ∧ f = Config.idftSample) ∨ (i = .demod cd cs ∧ f = Config.dftSample))
    (hy : AllFinite s (transformed f s x)) :
    ∃ t, exec i s = .next t ∧ t.status.err = .noError ∧ SameSetup s t ∧
      ∀ n < streamLen s, sampleAt t cd n = some (transformed f s x n) := by
  obtain ⟨t, hexec, ⟨hsetup, -⟩, -, -, hsuccess, -⟩ := baselineShaping s cd cs x hcfg hwavelet hx hfin i f hi
  obtain ⟨⟨-, -, -, herr, -⟩, hsamples⟩ := hsuccess fun b hb n hn =>
    (congrArg cxFinite (transformed_index f x b hn)).symm.trans (hy _ (index_lt_streamLen hb hn))
  exact ⟨t, hexec, herr, hsetup, forall_stream_of_blocks fun b hb n hn =>
    (hsamples b hb n hn).trans (congrArg some (transformed_index f x b hn).symm)⟩

/-- MOD, then DEMOD of its result, in the baseline: the two transforms, one after the other. -/
theorem exec_mod_demod_of_transformed {s : State} {c₀ c₁ c₂ : CIdx} {x : Nat → Cx} (hcfg : CfgValid s)
    (hwavelet : s.cfgWavelet.toNat = 0) (hx : Holds s c₀ x) (hfin : AllFinite s x)
    (hy : AllFinite s (transformed Config.idftSample s x))
    (hz : AllFinite s (transformed Config.dftSample s (transformed Config.idftSample s x))) :
    ∃ t u, exec (.mod c₁ c₀) s = .next t ∧ exec (.demod c₂ c₁) t = .next u ∧ u.status.err = .noError ∧
      ∀ n < streamLen s, sampleAt u c₂ n =
        some (transformed Config.dftSample s (transformed Config.idftSample s x) n) := by
  obtain ⟨t, hmod, -, hsetup, hsamples⟩ := exec_of_transformed hcfg hwavelet hx hfin (.inl ⟨rfl, rfl⟩) hy
  obtain ⟨-, -, hnsub, hnsym, hwave, -⟩ := hsetup
  have hlen : streamLen t = streamLen s := by simp only [streamLen, hnsub, hnsym]
  have htransformed : transformed Config.dftSample t = transformed Config.dftSample s := by
    funext y i
    simp only [transformed, blockOf, hnsub]
  have hcfgT : CfgValid t := by simpa only [CfgValid, hnsub, hnsym, hwave] using hcfg
  have hholds : Holds t c₁ (transformed Config.idftSample s x) := by simpa only [Holds, hlen] using hsamples
  have hyT : AllFinite t (transformed Config.idftSample s x) := by simpa only [AllFinite, hlen] using hy
  obtain ⟨u, hdemod, herr, -, hsamples'⟩ := exec_of_transformed hcfgT (by rwa [hwave]) hholds hyT (.inr ⟨rfl, rfl⟩)
    (by simpa only [AllFinite, hlen, htransformed] using hz)
  exact ⟨t, u, hmod, hdemod, herr, by simpa only [hlen, htransformed] using hsamples'⟩

/-! ### The named property of the library on the blocks of a stream (00_scope R10) -/

section
variable {s : State} {x : Nat → Cx} (hcfg : CfgValid s) (hfin : AllFinite s x)
include hcfg hfin

theorem exists_dftBlock_blockOf {b : Nat} (hb : b < s.cfgNsym.toNat) :
    ∃ k, s.cfgNsub.toNat = 2 ^ k ∧ DftBlock k (blockOf s x b) := by
  obtain ⟨⟨k, hk⟩, -, hsym, hmax⟩ := hcfg
  refine ⟨k, hk, ?_, by rw [length_blockOf, hk], fun y hy => ?_⟩
  · rw [← hk]
    exact (Nat.le_mul_of_pos_right _ hsym).trans hmax
  · obtain ⟨n, hn, rfl⟩ := List.mem_map.1 hy
    exact hfin _ (index_lt_streamLen hb (List.mem_range.1 hn))

/-- Under DFT_CLOSE(tol) the computed transforms are finite and within tol of the exact ones. -/
theorem transformed_close {f : DftNorm → List Cx → Nat → Cx} {exact : DftNorm → List Cx → Nat → ℂ → Prop} {tol B : ℝ}
    (hclose : DftClose tol B Config.dftNorm f exact) (hbound : StreamBound B s x) {b n : Nat}
    (hb : b < s.cfgNsym.toNat) (hn : n < s.cfgNsub.toNat) {z : ℂ} (hz : exact Config.dftNorm (blockOf s x b) n z) :
    cxFinite (transformed f s x (b * s.cfgNsub.toNat + n)) = true ∧
      ‖cxValue (transformed f s x (b * s.cfgNsub.toNat + n)) - z‖ ≤ tol := by
  obtain ⟨k, hk, hblock⟩ := exists_dftBlock_blockOf hcfg hfin hb
  have hblockBound : BlockBound B (blockOf s x b) := fun y hy u hu => by
    obtain ⟨m, hm, rfl⟩ := List.mem_map.1 hy
    exact hbound _ (index_lt_streamLen hb (List.mem_range.1 hm)) u hu
  obtain ⟨v, hv, hdist⟩ := hclose k _ hblock hblockBound n (hk ▸ hn) z hz
  obtain ⟨hvfin, rfl⟩ := (isCxValue_iff _ _).1 hv
  rw [transformed_index f x b hn]
  exact ⟨hvfin, hdist⟩

end

/-- The values of the samples of a block. -/
theorem isCxValue_of_blockOf {s : State} {x : Nat → Cx} (hfin : AllFinite s x) {b : Nat} (hb : b < s.cfgNsym.toNat)
    (k : Nat) (y : Cx) (hy : (blockOf s x b)[k]? = some y) : IsCxValue y (blockValues s x b k) := by
  obtain ⟨hk, rfl⟩ := List.getElem?_eq_some_iff.1 hy
  rw [length_blockOf] at hk
  simp only [blockOf, List.getElem_map, List.getElem_range]
  exact (isCxValue_iff _ _).2 ⟨hfin _ (index_lt_streamLen hb hk), rfl⟩

theorem isIdftExact_blockOf {s : State} {x : Nat → Cx} (hfin : AllFinite s x) {norm : DftNorm} {cInv : ℝ}
    (hinv : IsInverseScale norm s.cfgNsub.toNat cInv) {b : Nat} (hb : b < s.cfgNsym.toNat) (n : Nat) :
    IsIdftExact norm (blockOf s x b) n (cInv * idftSum s.cfgNsub.toNat (blockValues s x b) n) :=
  ⟨cInv, _, by rwa [length_blockOf], isCxValue_of_blockOf hfin hb, by rw [length_blockOf]; rfl⟩

theorem isDftExact_blockOf {s : State} {x : Nat → Cx} (hfin : AllFinite s x) {norm : DftNorm} {cFwd : ℝ}
    (hfwd : IsForwardScale norm s.cfgNsub.toNat cFwd) {b : Nat} (hb : b < s.cfgNsym.toNat) (k : Nat) :
    IsDftExact norm (blockOf s x b) k (cFwd * dftSum s.cfgNsub.toNat (blockValues s x b) k) :=
  ⟨cFwd, _, by rwa [length_blockOf], isCxValue_of_blockOf hfin hb, by rw [length_blockOf]; rfl⟩

/-- What lies within tol of the IDFT of a stream of magnitude at most `bound` has magnitude at most
c_inv N bound + tol. -/
theorem streamBound_of_close_idft {s : State} {x y : Nat → Cx} {cInv tol bound : ℝ} (hN : 0 < s.cfgNsub.toNat)
    (hinv : 0 ≤ cInv) (hfin : AllFinite s x) (hbound : StreamBound bound s x)
    (hclose : ∀ b < s.cfgNsym.toNat, ∀ n < s.cfgNsub.toNat, ‖cxValue (y (b * s.cfgNsub.toNat + n)) -
      cInv * idftSum s.cfgNsub.toNat (blockValues s x b) n‖ ≤ tol) :
    StreamBound (cInv * s.cfgNsub.toNat * bound + tol) s y := by
  refine forall_stream_of_blocks fun b hb n hn u hu => ?_
  obtain ⟨-, rfl⟩ := (isCxValue_iff _ _).1 hu
  have hsum := norm_idftSum_le hN (v := blockValues s x b) (B := bound) (fun k hk =>
    hbound _ (index_lt_streamLen hb hk) _ ((isCxValue_iff _ _).2 ⟨hfin _ (index_lt_streamLen hb hk), rfl⟩)) n
  have hexact := mul_le_mul_of_nonneg_left hsum hinv
  have hnorm := norm_le_norm_sub_add (cxValue (y (b * s.cfgNsub.toNat + n)))
    (cInv * idftSum s.cfgNsub.toNat (blockValues s x b) n)
  rw [norm_mul, Complex.norm_real, Real.norm_of_nonneg hinv] at hnorm
  linarith [hclose b hb n hn]

/-- Settles O59: MOD leaves a stream within tolInv of the exact IDFT, whose exact DFT is within c_fwd N tolInv of the
source, and DEMOD computes that within tolFwd. -/
theorem baselineRoundTrip : Obligations.BaselineRoundTrip := by
  intro s c₀ c₁ c₂ x tolInv tolFwd bound cInv cFwd hcfg hwavelet hx hfin hbound N hinv hfwd hcloseInv hcloseFwd
  have hN : 0 < N := by
    obtain ⟨⟨k, hk⟩, -⟩ := id hcfg
    exact (Nat.two_pow_pos k).trans_eq hk.symm
  obtain ⟨hinv0, hfwd0, hscale⟩ := scales_spec hN hinv hfwd
  set y := transformed Config.idftSample s x
  set z := transformed Config.dftSample s y
  have hmod := fun b (hb : b < s.cfgNsym.toNat) n (hn : n < N) =>
    transformed_close hcfg hfin hcloseInv hbound hb hn (isIdftExact_blockOf hfin hinv hb n)
  have hy : AllFinite s y := forall_stream_of_blocks fun b hb n hn => (hmod b hb n hn).1
  have hybound := streamBound_of_close_idft hN hinv0 hfin hbound fun b hb n hn => (hmod b hb n hn).2
  have hdemod := fun b (hb : b < s.cfgNsym.toNat) n (hn : n < N) =>
    transformed_close hcfg hy hcloseFwd hybound hb hn (isDftExact_blockOf hy hfwd hb n)
  have hz : AllFinite s z := forall_stream_of_blocks fun b hb n hn => (hdemod b hb n hn).1
  obtain ⟨t, u, hexecMod, hexecDemod, herr, hsamples⟩ :=
    exec_mod_demod_of_transformed (c₁ := c₁) (c₂ := c₂) hcfg hwavelet hx hfin hy hz
  refine ⟨t, u, hexecMod, hexecDemod, herr, fun b hb n hn => ?_⟩
  have hindex := index_lt_streamLen hb hn
  refine ⟨_, _, _, hsamples _ hindex, (isCxValue_iff _ _).2 ⟨hz _ hindex, rfl⟩,
    (isCxValue_iff _ _).2 ⟨hfin _ hindex, rfl⟩, ?_⟩
  calc _ ≤ _ + _ := norm_sub_le_norm_sub_add_norm_sub _ (cFwd * dftSum N (blockValues s y b) n : ℂ) _
    _ ≤ tolFwd + cFwd * N * tolInv := add_le_add (hdemod b hb n hn).2
        (norm_dft_sub_le hN hfwd0 hscale (fun m hm => (hmod b hb m hm).2) hn)

end Sys2Proof.Machine
end
